-- ==== Sys2Proof/Word.lean ====
section
/-! DEFINITION. The words of the block: bytes, 16-bit flag words, 32-bit registers, and the two register groups that
own a bit channel's cursor state (10_state R22, R23). -/

namespace Sys2Proof

/-- The unit of every buffer (20_memory R60). -/
abbrev Byte := BitVec 8

/-- A flag word: 16 flag bits (30_encoding R96). -/
abbrev Half := BitVec 16

/-- A host register as the register map shows it, and the size field (10_state R40, 20_memory R61). -/
abbrev Word := BitVec 32

/-- The BitWriter group (10_state R22): `WACC`, `WCNT`, `RSV`, `WP`. -/
structure BitWriter where
  /-- Flag bits not yet written; the first bit appended ends up most significant. -/
  wacc : Half
  /-- How many flag bits still fit in the current flag word (0 to 16). -/
  wcnt : Nat
  /-- The `OBUF` address reserved for the current flag word. -/
  rsv : Nat
  /-- The write cursor: the `OBUF` address of the next byte to be appended. -/
  wp : Nat
deriving DecidableEq, Repr

/-- The BitReader group (10_state R23): `RACC`, `RCNT`, `RP`. -/
structure BitReader where
  /-- The flag word being consumed; its most significant bit is the next flag bit. -/
  racc : Half
  /-- How many flag bits of `RACC` are unread (0 to 16). -/
  rcnt : Nat
  /-- The read cursor: the `IBUF` address of the next stream byte. -/
  rp : Nat
deriving DecidableEq, Repr

end Sys2Proof
end

