-- ==== Sys2Proof/Config.lean ====
section
/-! DEFINITION. The implementation parameters (00_scope R6). Those the spec fixes are numbers; those it leaves OPEN are
opaque constants without a body, so that no proof can learn a value of them (log 14, 15). -/

namespace Sys2Proof

/-- Flag bits per flag word. -/
def flagsPerWord : Nat := 16
/-- Slots of the DictionaryIndex. -/
def htSlots : Nat := 8192
/-- Bytes hashed per position. -/
def window : Nat := 4
/-- The shortest match emitted. -/
def minMatch : Nat := 4
/-- Capacity in bytes of the compressor's output, padding included. -/
def compCap : Nat := 0x8000
/-- The largest legal value of the size field. -/
def sizeMax : Nat := 0x20000
/-- The size of `IBUF`. -/
def inCap : Nat := 0x20000
/-- The size of `OBUF`. -/
def outCap : Nat := 0x20000
/-- The padding granule in bytes. -/
def padBlock : Nat := 8
/-- Bytes of a digest. -/
def digestLen : Nat := 16
/-- The verifier trims 0 to this many trailing bytes. -/
def padTol : Nat := 7
/-- Bytes of the size field. -/
def sizeFieldLen : Nat := 4
/-- The value of the filler bytes (92_eei D10; log 16). -/
def fill : Byte := 0x00

/-- The marker of the variant Plain, `<?xml`, looked for at offset 16 (45_pipeline R212). -/
def markPlain : List Byte := [0x3C, 0x3F, 0x78, 0x6D, 0x6C]

/-- A window hash: the four bytes of a window to a slot of `HT` (41_dictionary R141). -/
abbrev Hash := Byte → Byte → Byte → Byte → Fin 8192

/-- The multiplicative rolling hash of 41_dictionary R141 with multiplier `m`. The model's machine does NOT use it:
its `HASH` is the opaque parameter below; this is the default the spec's test vectors name. -/
def rollingHash (m : Nat) : Hash := fun b0 b1 b2 b3 =>
  ⟨(((b0.toNat * m + b1.toNat) * m + b2.toNat) * m + b3.toNat) % 8192, Nat.mod_lt _ (by decide)⟩

/-- The OPEN parameters of 00_scope R6, as one record that every definition depending on one of them takes. -/
structure Params where
  /-- `HASH` (41_dictionary R141). -/
  hash : Hash
  /-- `DIGEST`: a byte string of any length to 16 bytes (44_verify R190). -/
  digest : List Byte → Vector Byte 16
  /-- `CIPHER_ENC` on one 8-byte block: the external block cipher in ECB mode acts on each block independently. Used by
  the host's pipeline only (`encrypt` of Machine/Pipeline.lean applies it to a byte string). -/
  encBlock : Vector Byte 8 → Vector Byte 8 → Vector Byte 8
  /-- `CIPHER_DEC` on one 8-byte block. That it undoes `encBlock` is a hypothesis of the claims that need it. -/
  decBlock : Vector Byte 8 → Vector Byte 8 → Vector Byte 8
  /-- `MARK_A`, looked for at offset 20. -/
  markA : List Byte
  /-- `MARK_B`, looked for at offset 22. -/
  markB : List Byte

/-- `HASH`, OPEN (log 14). -/
opaque Config.hash : Byte → Byte → Byte → Byte → Fin 8192
/-- `DIGEST`, OPEN (log 15). -/
opaque Config.digest : List Byte → Vector Byte 16
/-- `CIPHER_ENC` on one block, OPEN (log 15). -/
opaque Config.encBlock : Vector Byte 8 → Vector Byte 8 → Vector Byte 8
/-- `CIPHER_DEC` on one block, OPEN (log 15). -/
opaque Config.decBlock : Vector Byte 8 → Vector Byte 8 → Vector Byte 8
/-- `KEY`, OPEN (log 15). -/
opaque Config.key : Vector Byte 8
/-- `MARK_A`, OPEN (log 15). -/
opaque Config.markA : List Byte
/-- `MARK_B`, OPEN (log 15). -/
opaque Config.markB : List Byte

/-- The parameters of this machine. -/
def Config.params : Params where
  hash := Config.hash
  digest := Config.digest
  encBlock := Config.encBlock
  decBlock := Config.decBlock
  markA := Config.markA
  markB := Config.markB

/-- FREE VALUE: what the host's read of an unspecified byte of `OBUF` returns (10_state R52, 93_impl U1: "a read
returns a draw"), applied to the number of the draw (log 10). -/
opaque Config.drawnByte : Nat → Byte

/-- FREE VALUE: the byte of `IBUF` at an address after a reset in service (70_reset R260), applied to the number of
the draw and the address (log 9). -/
opaque Config.resetIbufByte : Nat → Nat → Byte

/-- FREE VALUE: the byte of `OBUF` at an address after a reset in service (70_reset R260; log 9). -/
opaque Config.resetObufByte : Nat → Nat → Byte

/-- FREE VALUE: the flag bits of a copy that is no token of 30_encoding R98 (`mlen` below 4 or distance 0), for which the
spec has no code (40_bitchannel R126; log 30). -/
opaque Config.noTokenFlags : Nat → Nat → List Bool

/-- FREE VALUE: the byte of such a copy (log 30). -/
opaque Config.noTokenByte : Nat → Nat → Byte

end Sys2Proof
end

