-- ==== Sys2Proof/Syntax.lean ====
section
/-! DEFINITION. The instructions: one constructor per row of spec/opcode_table.json. -/

namespace Sys2Proof

/-- What the block executes. The first five are command words a host writes to `CMD` (30_encoding R91, R94); the last
two are the tokens of a compressed stream, which a running `DECOMPRESS` fetches at `RP` (30_encoding R98, 10_state R30). -/
inductive Instr where
  /-- `COMPRESS` with its byte order (42_compress R160); true is little-endian. -/
  | compress (le : Bool)
  /-- `DECOMPRESS` with its byte order (43_decompress R176). -/
  | decompress (le : Bool)
  /-- `VERIFY`; the bit `LE` is carried and ignored (44_verify R191, 30_encoding R94). -/
  | verify (le : Bool)
  /-- `RESOLVE` with the assumed byte order (44_verify R196). -/
  | resolve (le : Bool)
  /-- A reserved command word: `OP` 0, 5, 6 or 7, or a bit of 31:4 set (30_encoding R94). -/
  | reservedOp (w : Word)
  /-- `LIT b` (43_decompress R174). -/
  | lit (b : Byte)
  /-- `MATCH mlen, D` with the TRUE distance `D = E + 1` (43_decompress R175, 30_encoding R100). -/
  | matchTok (mlen dist : Nat)
deriving DecidableEq, Repr

end Sys2Proof
end

