-- ==== Sys2Proof/WellFormed.lean ====
section
/-! DEFINITION. Which instruction terms stand for an encoding of the spec. -/

namespace Sys2Proof

/-- The command word has a bit of 31:4 set (30_encoding R92, test (1)). -/
def reservedBitsSet (w : Word) : Bool := w.extractLsb' 4 28 ≠ 0#28

/-- `OP` (bits 2:0) of a command word is 0, 5, 6 or 7 (30_encoding R92, test (2)). -/
def illegalOp (w : Word) : Bool :=
  w.extractLsb' 0 3 = 0#3 ∨ w.extractLsb' 0 3 = 5#3 ∨ w.extractLsb' 0 3 = 6#3 ∨ w.extractLsb' 0 3 = 7#3

/-- A term is well-formed when some encoding stands for it: a reserved word is one of 30_encoding R94, and a match has
`mlen >= 4` and `D >= 1` (30_encoding R100). -/
def Instr.wf : Instr → Bool
  | .compress _ => true
  | .decompress _ => true
  | .verify _ => true
  | .resolve _ => true
  | .reservedOp w => reservedBitsSet w || illegalOp w
  | .lit _ => true
  | .matchTok mlen dist => decide (minMatch ≤ mlen) && decide (1 ≤ dist)

end Sys2Proof
end

