-- ==== Sys2Proof/Decode.lean ====
section
/-! DEFINITION. Decoding: the command word (30_encoding R91, R92), the bit channel's read side (40_bitchannel R125), the
variable-length code (R99, R127) and the stream tokens (R98, R100); and after them the encoder. -/

namespace Sys2Proof

/-! ### Byte order (00_scope R8) -/

/-- Two bytes in ascending address order, read as a flag word: little-endian when `le`. -/
def halfOf (le : Bool) (b0 b1 : Byte) : Half := if le then b1 ++ b0 else b0 ++ b1

/-- The two bytes of a flag word, the one for the lower address first. -/
def halfBytes (le : Bool) (h : Half) : Byte × Byte :=
  if le then (h.extractLsb' 0 8, h.extractLsb' 8 8) else (h.extractLsb' 8 8, h.extractLsb' 0 8)

/-- Four bytes in ascending address order, read as a 32-bit number: little-endian when `le`. -/
def wordOf (le : Bool) (b0 b1 b2 b3 : Byte) : Word :=
  if le then b3 ++ b2 ++ b1 ++ b0 else b0 ++ b1 ++ b2 ++ b3

/-- The byte of a 32-bit number for the address at `i` (0 to 3) from the first. -/
def wordByte (le : Bool) (w : Word) (i : Nat) : Byte :=
  if le then w.extractLsb' (8 * i) 8 else w.extractLsb' (8 * (3 - i)) 8

/-! ### The command word -/

/-- The mask of the four commands' match values (30_encoding R91): every bit but `LE`. -/
def cmdMask : Word := 0xFFFFFFF7

/-- `CMD.LE`, bit 3 (30_encoding R91, R93). -/
def leOf (w : Word) : Bool := w.getLsbD 3

/-- The instruction of a word written to `CMD` (30_encoding R91, R94): the four match values under the mask, and every
other word reserved. Total: a reserved word is an instruction, whose meaning is its fault. -/
def decodeCommand (w : Word) : Instr :=
  if w &&& cmdMask = 1 then .compress (leOf w)
  else if w &&& cmdMask = 2 then .decompress (leOf w)
  else if w &&& cmdMask = 3 then .verify (leOf w)
  else if w &&& cmdMask = 4 then .resolve (leOf w)
  else .reservedOp w

/-! ### The stream tokens -/

/-- Why a bit pattern gives no instruction. -/
inductive Reject where
  /-- The flag bits or the bytes end inside a token (43_decompress R172, 40_bitchannel R125). -/
  | srcUnderrun
  /-- Flag bits are left over after the token they were given for. -/
  | leftover
deriving DecidableEq, Repr

/-- A token of the stream (30_encoding R98). -/
inductive Token where
  | lit (b : Byte)
  /-- `dist` is the true distance D. -/
  | copy (mlen dist : Nat)
deriving DecidableEq, Repr

/-- The instruction a token is. -/
def Token.toInstr : Token → Instr
  | .lit b => .lit b
  | .copy mlen dist => .matchTok mlen dist

/-- `GETVLC` (40_bitchannel R127) over any source of flag bits: shift in a data digit, then read the continuation
flag, until it is 0. `fuel` bounds the digits; running out of it is the source running out. -/
def readVlc {σ : Type} (bit : σ → Except Reject (Bool × σ)) : Nat → Nat → σ → Except Reject (Nat × σ)
  | 0, _, _ => .error .srcUnderrun
  | fuel + 1, v, s => do
    let (d, s) ← bit s
    let (c, s) ← bit s
    if c then readVlc bit fuel (2 * v + d.toNat) s else .ok (2 * v + d.toNat, s)

/-- Operand assembly of a match token (30_encoding R100): `mlen = v1 + 2`, `E = ((v2 - 2) << 8) | low`, `D = E + 1`. -/
def copyToken (v1 v2 : Nat) (low : Byte) : Token := .copy (v1 + 2) ((v2 - 2) * 256 + low.toNat + 1)

/-- One token (43_decompress R173 to R175, the part that reads the stream): the flag bit, for a match its two codes,
then the token's byte. -/
def readToken {σ : Type} (bit : σ → Except Reject (Bool × σ)) (byte : σ → Except Reject (Byte × σ)) (fuel : Nat)
    (s : σ) : Except Reject (Token × σ) := do
  let (f, s) ← bit s
  if f then
    let (v1, s) ← readVlc bit fuel 1 s
    let (v2, s) ← readVlc bit fuel 1 s
    let (low, s) ← byte s
    .ok (copyToken v1 v2 low, s)
  else
    let (b, s) ← byte s
    .ok (.lit b, s)

/-! ### The stream as the machine reads it -/

/-- A stream in a buffer: its bytes, its length and the byte order of its flag words. -/
structure Stream where
  byte : Nat → Byte
  len : Nat
  le : Bool

/-- Load the next flag word at `RP` (40_bitchannel R125): needs two bytes below the stream's length. -/
def loadFlags (src : Stream) (r : BitReader) : Except Reject BitReader :=
  if r.rp + 1 ≥ src.len then .error .srcUnderrun
  else .ok { racc := halfOf src.le (src.byte r.rp) (src.byte (r.rp + 1)), rcnt := 16, rp := r.rp + 2 }

/-- Shift the next flag bit out of `RACC`, most significant first (40_bitchannel R125). -/
def shiftFlag (r : BitReader) : Bool × BitReader :=
  (r.racc.getLsbD 15, { r with racc := r.racc <<< 1, rcnt := r.rcnt - 1 })

/-- `GETBIT` (40_bitchannel R125): load a flag word only when a bit is wanted and none is left. -/
def getBit (src : Stream) (r : BitReader) : Except Reject (Bool × BitReader) :=
  if r.rcnt = 0 then do
    let r ← loadFlags src r
    .ok (shiftFlag r)
  else .ok (shiftFlag r)

/-- `READ_BYTE` (43_decompress R172). -/
def readByte (src : Stream) (r : BitReader) : Except Reject (Byte × BitReader) :=
  if r.rp ≥ src.len then .error .srcUnderrun
  else .ok (src.byte r.rp, { r with rp := r.rp + 1 })

/-- The token at the reader's position. The fuel is more than the flag bits the stream can still give. -/
def fetchFrom (src : Stream) (r : BitReader) : Except Reject (Token × BitReader) :=
  readToken (getBit src) (readByte src) (r.rcnt + 8 * src.len + 1) r

/-! ### A token given by itself: its flag bits and its byte -/

/-- The next flag bit of a list. -/
def listBit (s : List Bool × List Byte) : Except Reject (Bool × (List Bool × List Byte)) :=
  match s.1 with
  | [] => .error .srcUnderrun
  | b :: bits => .ok (b, (bits, s.2))

/-- The next byte of a list. -/
def listByte (s : List Bool × List Byte) : Except Reject (Byte × (List Bool × List Byte)) :=
  match s.2 with
  | [] => .error .srcUnderrun
  | b :: bytes => .ok (b, (s.1, bytes))

/-- The first token of two lists, flag bits and bytes, and what is left of them. -/
def decodeToken (bits : List Bool) (bytes : List Byte) : Except Reject (Token × (List Bool × List Byte)) :=
  readToken listBit listByte bits.length (bits, bytes)

/-! ### The encoder -/

/-- The encoding of one instruction: a command word, or a token's flag bits and its byte. -/
inductive Code where
  | word (w : Word)
  | token (flags : List Bool) (byte : Byte)
deriving DecidableEq, Repr

/-- The digits of `v` below position `i`, most significant first, each followed by its continuation flag, 1 after every
digit but the last (30_encoding R99). -/
def vlcDigits (v : Nat) : Nat → List Bool
  | 0 => []
  | i + 1 => v.testBit i :: decide (0 < i) :: vlcDigits v i

/-- VLC(v) (30_encoding R99, 40_bitchannel R126): the digits below the top one. `v >= 2` is a precondition: the values 0
and 1 have no code. -/
def vlcBits (v : Nat) (_ : 2 ≤ v) : List Bool := vlcDigits v (Nat.log2 v)

/-- The first code of a match is of `mlen - 2` (42_compress R158). -/
theorem lenCode_ge {mlen dist : Nat} (h : minMatch ≤ mlen ∧ 1 ≤ dist) : 2 ≤ mlen - 2 := by
  have : 4 ≤ mlen := h.1
  omega

/-- The second code of a match is of `(E >> 8) + 2` (42_compress R158). -/
theorem distCode_ge (dist : Nat) : 2 ≤ (dist - 1) / 256 + 2 := Nat.le_add_left _ _

/-- The flag bits of a match (30_encoding R98): 1, VLC(mlen - 2), VLC((E >> 8) + 2). -/
def matchFlags (mlen dist : Nat) (h : minMatch ≤ mlen ∧ 1 ≤ dist) : List Bool :=
  true :: (vlcBits (mlen - 2) (lenCode_ge h) ++ vlcBits ((dist - 1) / 256 + 2) (distCode_ge dist))

/-- `E & 0xFF` of a match (30_encoding R98, R100). -/
def matchByte (dist : Nat) : Byte := BitVec.ofNat 8 ((dist - 1) % 256)

/-- The flag bits of a token (30_encoding R98). A copy that is no token (`mlen` below 4 or distance 0) has no code: free
values stand for it (log 30). -/
def Token.flags : Token → List Bool
  | .lit _ => [false]
  | .copy mlen dist => if h : minMatch ≤ mlen ∧ 1 ≤ dist then matchFlags mlen dist h else Config.noTokenFlags mlen dist

/-- The byte of a token: the literal, or `E & 0xFF` (30_encoding R98, R100; log 30). -/
def Token.byte : Token → Byte
  | .lit b => b
  | .copy mlen dist => if minMatch ≤ mlen ∧ 1 ≤ dist then matchByte dist else Config.noTokenByte mlen dist

/-- The command word with operation `op` and byte order `le` (30_encoding R91). -/
def commandWord (op : BitVec 3) (le : Bool) : Word := op.zeroExtend 32 ||| (if le then 8 else 0)

/-- The encoding of an instruction (30_encoding R91, R98). -/
def encode : Instr → Code
  | .compress le => .word (commandWord 1 le)
  | .decompress le => .word (commandWord 2 le)
  | .verify le => .word (commandWord 3 le)
  | .resolve le => .word (commandWord 4 le)
  | .reservedOp w => .word w
  | .lit b => .token (Token.lit b).flags (Token.lit b).byte
  | .matchTok mlen dist => .token (Token.copy mlen dist).flags (Token.copy mlen dist).byte

/-- Decoding of one instruction's encoding: a word always, a token when its flag bits are exactly used up. -/
def decode : Code → Except Reject Instr
  | .word w => .ok (decodeCommand w)
  | .token flags byte =>
    match decodeToken flags [byte] with
    | .ok (t, ([], _)) => .ok t.toInstr
    | .ok (_, (_ :: _, _)) => .error .leftover
    | .error e => .error e

/-! ### The host's numbering of a row's bits (log 20) -/

/-- Rows of at most this many bits are stream tokens; longer ones are command words. -/
def tokenRowBits : Nat := 24

/-- The flag bits of a token row: bit 0 of `w` is the token's first flag bit, and so on to bit 15. -/
def tableFlags (w : Nat) : List Bool := (List.range 16).map w.testBit

/-- The byte of a token row: bits 23 to 16 of `w`. -/
def tableByte (w : Nat) : Byte := BitVec.ofNat 8 (w / 65536)

/-- The instruction the decoder reads from an opcode-table row's bits: a 32-bit command word, or (`nbits` at most 24)
the first token of 16 flag bits and a byte. -/
def decodeTableWord (nbits w : Nat) : Option Instr :=
  if nbits ≤ tokenRowBits then
    match decodeToken (tableFlags w) [tableByte w] with
    | .ok (t, _) => some t.toInstr
    | .error _ => none
  else if nbits ≤ 32 then some (decodeCommand (BitVec.ofNat 32 w))
  else none

end Sys2Proof
end

