-- ==== Sys2Proof/Machine/State.lean ====
section
/-! DEFINITION. The machine's state (10_state) as plain data, the reasons it can stop, and its reset. -/

namespace Sys2Proof.Machine

/-- A byte memory (`IBUF`, `OBUF`): address and byte pairs, addresses strictly rising, no entry equal to the byte an
unlisted address reads as (log 8). -/
abbrev Mem := List Host.Cell

/-- The hash table `HT` (10_state R50): its valid slots, slot numbers strictly rising; a slot not listed is empty. -/
abbrev HashTable := List (Nat × Nat)

/-- `PHASE` (10_state R30). -/
inductive Phase where
  | idle
  | run
  | done
  | flt
deriving DecidableEq, Repr

/-- Where in the running command control stands (the model's own field; log 1): before its first step, or before the
next token of a `DECOMPRESS`. Meaningless, and `start`, while `PHASE` is not `RUN`. -/
inductive Pos where
  | start
  | tokens
deriving DecidableEq, Repr

/-- The sixteen fault causes (60_exceptions R232 to R236). -/
inductive Cause where
  | sizeBothOrders
  | badMarker
  | lenNotMult8
  | shortBuffer
  | noMatch
  | srcUnderrun
  | outOverrun
  | badDistance
  | zeroLength
  | outOverflow
  | emptyInput
  | inputTooLong
  | illegalOp
  | reservedBits
  | ilenRange
  | rawlenRange
deriving DecidableEq, Repr

/-- The eight host registers (10_state R40). -/
inductive Reg where
  | cmd
  | status
  | fault
  | ilen
  | rawlen
  | olen
  | opad
  | vk
deriving DecidableEq, Repr

/-- What a host can do to the block (70_reset R263: "the only ones"). A register is named by its byte offset from the
block's register base (10_state R40); the buffers are moved a byte at a time (log 28). -/
inductive HostOp where
  | reset
  | readReg (offset : Nat)
  | writeReg (offset : Nat) (v : Word)
  | readIbuf (a : Nat)
  | writeIbuf (a : Nat) (b : Byte)
  | readObuf (a : Nat)
  | writeObuf (a : Nat) (b : Byte)
deriving DecidableEq, Repr

/-- Whose move is next, and how far the block goes in its move (70_reset R282; log 1, 2). -/
inductive Turn where
  /-- The host performs one access. -/
  | host (op : HostOp)
  /-- The block runs its command to the end. -/
  | block
  /-- The block goes on by one token of a `DECOMPRESS` (any other command runs to its end). -/
  | token
deriving DecidableEq, Repr

/-- Why the model stops with a fault. None of these is a fault of the block: the block's own faults (60_exceptions) are
next states with `PHASE` = `FLT`. -/
inductive Fault where
  /-- A byte of `IBUF` or `OBUF` at an address that does not exist (at or above 0x20000, 10_state R51, R52): raised by the
  host's buffer accesses, and by `execLit` and `execMatch` in a state no run reaches (`DP` beyond `OBUF`). Safe: the
  hardware is given no such access. -/
  | noSuchAddress
  /-- A register offset outside the map of 10_state R40: raised by the host's register accesses. Safe. -/
  | noSuchRegister
deriving DecidableEq, Repr

/-- Why the model refuses a step. -/
inductive Refusal where
  /-- An instruction that has no meaning yet. No arm of this model answers it. Safe. -/
  | notModelled (mnemonic : String)
  /-- A host access that 70_reset R270 forbids while `PHASE` = `RUN`, raised by `hostMove`: "the effect of the other
  forbidden accesses is not defined and a model should refuse them". Safe. -/
  | hostAccessWhileBusy
deriving DecidableEq, Repr

/-- Everything the spec gives the block (10_state R20), and four fields of the model's own at the end. -/
structure State where
  cmd : Word
  fault : Word
  ilen : Word
  rawlen : Word
  olen : BitVec 18
  opad : BitVec 18
  vk : BitVec 3
  phase : Phase
  vok : Bool
  rle : Bool
  flip : Bool
  bw : BitWriter
  br : BitReader
  /-- The source cursor of `COMPRESS` (10_state R24). -/
  sp : Nat
  /-- The index cursor of `COMPRESS` (10_state R24). -/
  hp : Nat
  /-- The output cursor of `DECOMPRESS` (10_state R25). -/
  dp : Nat
  /-- The dictionary index (10_state R50, 41_dictionary R140). What it holds once a command has ended is open there; here it
  keeps what the last `COMPRESS` left (log 31, the model's choice). -/
  ht : HashTable
  ibuf : Mem
  obuf : Mem
  /-- The model's own: the position in the running command (log 1). -/
  pos : Pos
  /-- The model's own: the moves to come, the next one first (log 2). -/
  turns : List Turn
  /-- The model's own: what the host's last read returned (log 5). -/
  rdata : Word
  /-- The model's own: how many free values have been drawn (log 10). -/
  draws : Nat
deriving DecidableEq, Repr

/-- The state after reset (70_reset R260, 10_state R56): the host registers 0, `PHASE` = `IDLE`. The working registers,
`HT` and the memories are unspecified there; their values here are the model's (log 6, 7, 8). -/
def State.reset : State where
  cmd := 0
  fault := 0
  ilen := 0
  rawlen := 0
  olen := 0
  opad := 0
  vk := 0
  phase := .idle
  vok := false
  rle := false
  flip := false
  bw := { wacc := 0, wcnt := 0, rsv := 0, wp := 0 }
  br := { racc := 0, rcnt := 0, rp := 0 }
  sp := 0
  hp := 0
  dp := 0
  ht := []
  ibuf := []
  obuf := []
  pos := .start
  turns := []
  rdata := 0
  draws := 0

end Sys2Proof.Machine
end

