-- ==== Sys2Proof/Machine/Ops.lean ====
section
/-! DEFINITION. The named operations over memory and registers: bytes, flag words and the size field (00_scope R8,
20_memory R61 to R65), the slots of `HT` (10_state R50), fault entry (60_exceptions R240), the end of a command, and the
accepted `CMD` write, which is also the way out of the faulted state (10_state R40, 60_exceptions R243). -/

namespace Sys2Proof.Machine

/-! ### Lists sorted by key -/

/-- The value at a key. -/
def assocGet {β : Type} (k : Nat) : List (Nat × β) → Option β
  | [] => none
  | (k', v) :: rest => if k' = k then some v else assocGet k rest

/-- Put a value at a key, keeping the keys strictly rising. -/
def assocPut {β : Type} (k : Nat) (v : β) : List (Nat × β) → List (Nat × β)
  | [] => [(k, v)]
  | (k', v') :: rest =>
    if k < k' then (k, v) :: (k', v') :: rest
    else if k = k' then (k, v) :: rest
    else (k', v') :: assocPut k v rest

/-- Remove a key, every entry of it: reading after writing then holds of every list, sorted or not. -/
def assocErase {β : Type} (k : Nat) : List (Nat × β) → List (Nat × β)
  | [] => []
  | (k', v) :: rest => if k' = k then assocErase k rest else (k', v) :: assocErase k rest

/-- Keys strictly rising. -/
abbrev Sorted {β : Type} (m : List (Nat × β)) : Prop := (m.map Prod.fst).Pairwise (· < ·)

/-! ### Byte memories -/

/-- The byte an unlisted address reads as. DESIGN CHOICE (log 8): the contents of `IBUF` and `OBUF` at power-on are
unspecified (10_state R51, R52). -/
def unlistedByte : Byte := 0

/-- `MemRead(S, a, 1)` (00_scope R8). -/
def memRead (m : Mem) (a : Nat) : Byte := (assocGet a m).getD unlistedByte

/-- `MemWrite(S, a, 1, v)` (00_scope R8), keeping the canonical form. -/
def memWrite (m : Mem) (a : Nat) (v : Byte) : Mem := if v = unlistedByte then assocErase a m else assocPut a v m

/-- The canonical form: addresses strictly rising, and no entry equal to the byte an unlisted address reads as. -/
abbrev Mem.wf (m : Mem) : Prop := Sorted m ∧ ∀ c ∈ m, c.2 ≠ unlistedByte

/-- `B[a : a + n]` of a memory (00_scope R7). -/
def memBytes (m : Mem) (a : Nat) : Nat → List Byte
  | 0 => []
  | n + 1 => memRead m a :: memBytes m (a + 1) n

/-- Write a byte string at `a`, in ascending address order. -/
def memLoad (m : Mem) (a : Nat) : List Byte → Mem
  | [] => m
  | b :: bytes => memLoad (memWrite m a b) (a + 1) bytes

/-- The memory that holds `f a` at every address below `n`. -/
def memOf (f : Nat → Byte) : Nat → Mem
  | 0 => []
  | n + 1 => memOf f n ++ (if f n = unlistedByte then [] else [(n, f n)])

/-- `MemRead(S, a, 4, le)` (20_memory R61, R63). -/
def memRead4 (le : Bool) (m : Mem) (a : Nat) : Word :=
  wordOf le (memRead m a) (memRead m (a + 1)) (memRead m (a + 2)) (memRead m (a + 3))

/-- `MemWrite(S, a, 4, v, le)`: four byte writes in ascending order (20_memory R61, R63). -/
def memWrite4 (le : Bool) (m : Mem) (a : Nat) (v : Word) : Mem :=
  memWrite (memWrite (memWrite (memWrite m a (wordByte le v 0)) (a + 1) (wordByte le v 1)) (a + 2) (wordByte le v 2))
    (a + 3) (wordByte le v 3)

/-! ### The hash table -/

/-- A slot of `HT`: the offset it holds, or nothing when its `valid` bit is 0 (10_state R50). -/
def htSlot (t : HashTable) (h : Fin 8192) : Option Nat := assocGet h.val t

/-- `HT[h] <- (1, p)`: overwrites any occupant (41_dictionary R143). -/
def htPut (t : HashTable) (h : Fin 8192) (p : Nat) : HashTable := assocPut h.val p t

/-! ### Faults (60_exceptions) -/

/-- `FAULT.KIND` of a cause (60_exceptions R231). -/
def Cause.kind : Cause → Nat
  | .sizeBothOrders | .badMarker | .lenNotMult8 | .shortBuffer => 1
  | .noMatch => 2
  | .srcUnderrun | .outOverrun | .badDistance | .zeroLength => 3
  | .outOverflow | .emptyInput | .inputTooLong => 4
  | .illegalOp | .reservedBits | .ilenRange | .rawlenRange => 5

/-- `FAULT.CAUSE` of a cause (60_exceptions R232 to R236). -/
def Cause.number : Cause → Nat
  | .sizeBothOrders => 1
  | .badMarker => 2
  | .lenNotMult8 => 3
  | .shortBuffer => 4
  | .noMatch => 1
  | .srcUnderrun => 1
  | .outOverrun => 2
  | .badDistance => 3
  | .zeroLength => 4
  | .outOverflow => 1
  | .emptyInput => 2
  | .inputTooLong => 3
  | .illegalOp => 1
  | .reservedBits => 2
  | .ilenRange => 3
  | .rawlenRange => 4

/-- The value `FAULT` takes: `(CAUSE << 4) | KIND` (60_exceptions R240). -/
def faultCode (c : Cause) : Word := (BitVec.ofNat 32 c.number <<< 4) ||| BitVec.ofNat 32 c.kind

/-- `raise Kind(CAUSE)` (60_exceptions R240), the one fault entry of the machine. `OLEN`, `OPAD`, `VK` and the flags stay
as the command's start cleared them; what has been written stays written; no control goes anywhere. -/
def raise (c : Cause) (s : State) : State :=
  { s with fault := faultCode c, phase := .flt, pos := .start }

/-- The end of a command without a fault: `PHASE <- DONE` (30_encoding R92). -/
def complete (s : State) : State := { s with phase := .done, pos := .start }

/-- An accepted `CMD` write (10_state R40, 30_encoding R92): the clears, `PHASE <- RUN`, the value stored. It is also the
only way out of `FLT` but reset (60_exceptions R243): nothing is restored, because nothing was saved. -/
def acceptCommand (w : Word) (s : State) : State :=
  { s with
    cmd := w, fault := 0, olen := 0, opad := 0, vk := 0, vok := false, rle := false, flip := false,
    phase := .run, pos := .start }

end Sys2Proof.Machine
end

