-- ==== Sys2Proof/Machine/Operands.lean ====
section
/-! DEFINITION. The operand forms: the lengths a command takes from `ILEN` and `RAWLEN` (30_encoding R90), the effective
addresses of 60_exceptions R255, and the parts of State each command works on. -/

namespace Sys2Proof.Machine

/-- L, the input length (00_scope R9). -/
def State.inLen (s : State) : Nat := s.ilen.toNat

/-- N, the raw length (00_scope R9). -/
def State.rawLen (s : State) : Nat := s.rawlen.toNat

/-- PLEN of a CLEN (00_scope R9): rounded up to a multiple of 8. -/
def padded (clen : Nat) : Nat := (clen + 7) / padBlock * padBlock

/-- The stream a `DECOMPRESS` reads: `IBUF[0:ILEN]` with flag words in the order `le` (30_encoding R90). -/
def State.stream (s : State) (le : Bool) : Stream := { byte := memRead s.ibuf, len := s.inLen, le := le }

/-- The window hash at a position of `IBUF` (41_dictionary R141). -/
def hashAt (hash : Hash) (ibuf : Mem) (p : Nat) : Fin 8192 :=
  hash (memRead ibuf p) (memRead ibuf (p + 1)) (memRead ibuf (p + 2)) (memRead ibuf (p + 3))

/-- The part of State the BitWriter works on (40_bitchannel R121): its registers and `OBUF`. -/
structure Out where
  bw : BitWriter
  obuf : Mem
deriving DecidableEq, Repr

/-- The part of State the compressor's loops work on (42_compress R152, R155). -/
structure Comp where
  out : Out
  sp : Nat
  hp : Nat
  ht : HashTable
deriving DecidableEq, Repr

/-- The part of State the decompressor's loop works on (43_decompress R173). -/
structure Dec where
  br : BitReader
  dp : Nat
  obuf : Mem
deriving DecidableEq, Repr

/-- Put the compressor's part back, `HT` among it: that it outlives the command is the model's choice (log 31; 41_dictionary
R140 and 70_reset R264 leave it open). -/
def State.setComp (s : State) (c : Comp) : State :=
  { s with bw := c.out.bw, obuf := c.out.obuf, sp := c.sp, hp := c.hp, ht := c.ht }

/-- The decompressor's part. -/
def State.dec (s : State) : Dec := { br := s.br, dp := s.dp, obuf := s.obuf }

/-- Put the decompressor's part back. -/
def State.setDec (s : State) (d : Dec) : State := { s with br := d.br, dp := d.dp, obuf := d.obuf }

end Sys2Proof.Machine
end

