-- ==== Sys2Proof/Machine/BitChannel.lean ====
section
/-! DEFINITION. The bit channel's write side and the tokens' emission (40_bitchannel R120 to R126, 42_compress R156, R157),
and `ASSEMBLE` (30_encoding R106). An operation that meets the end of the compressor's buffer answers `.error` with what it
had done until then: the fault `OUT_OVERFLOW` (20_memory R65), the one fault of this family. -/

namespace Sys2Proof.Machine

/-- `BW_INIT` (40_bitchannel R120). -/
def bwInit : BitWriter := { wacc := 0, wcnt := 16, rsv := 5, wp := 7 }

/-- A byte write of `COMPRESS` to `OBUF`: refused at or above `COMP_CAP` (20_memory R65). -/
def putByteAt (a : Nat) (v : Byte) (o : Out) : Except Out Out :=
  if a < compCap then .ok { o with obuf := memWrite o.obuf a v } else .error o

/-- A flag-word write of `COMPRESS`: two byte writes in ascending order, each checked (20_memory R62, R63, R65). -/
def putHalfAt (le : Bool) (a : Nat) (h : Half) (o : Out) : Except Out Out := do
  let o ← putByteAt a (halfBytes le h).1 o
  putByteAt (a + 1) (halfBytes le h).2 o

/-- Append one bit to the accumulator (40_bitchannel R121, the last two lines). -/
def shiftIn (b : Bool) (w : BitWriter) : BitWriter :=
  { w with wacc := (w.wacc <<< 1) ||| (if b then 1 else 0), wcnt := w.wcnt - 1 }

/-- Reserve the next flag word at the write cursor (40_bitchannel R121). -/
def reserve (w : BitWriter) : BitWriter := { wacc := 0, wcnt := 16, rsv := w.wp, wp := w.wp + 2 }

/-- `PUTBIT(b)` (40_bitchannel R121): a full word is written out, and the next one reserved, when the NEXT bit arrives. -/
def putBit (le b : Bool) (o : Out) : Except Out Out :=
  if o.bw.wcnt = 0 then do
    let o ← putHalfAt le o.bw.rsv o.bw.wacc o
    .ok { o with bw := shiftIn b (reserve o.bw) }
  else .ok { o with bw := shiftIn b o.bw }

/-- Flag bits in order. -/
def putBits (le : Bool) : List Bool → Out → Except Out Out
  | [], o => .ok o
  | b :: bits, o => do
    let o ← putBit le b o
    putBits le bits o

/-- `PUTVLC(v)` (40_bitchannel R126), with its precondition `v >= 2`. -/
def putVlc (le : Bool) (v : Nat) (h : 2 ≤ v) (o : Out) : Except Out Out := putBits le (vlcBits v h) o

/-- `FINALIZE` (40_bitchannel R123): the partial word, its bits moved to the high end. -/
def finalize (le : Bool) (o : Out) : Except Out Out := putHalfAt le o.bw.rsv (o.bw.wacc <<< o.bw.wcnt) o

/-- `MemWrite(OBUF, WP, 1, b); WP <- WP + 1` (60_exceptions R255). -/
def appendByte (b : Byte) (o : Out) : Except Out Out := do
  let o ← putByteAt o.bw.wp b o
  .ok { o with bw := { o.bw with wp := o.bw.wp + 1 } }

/-- `EMIT_LIT(b)` (42_compress R156). -/
def emitLit (le : Bool) (b : Byte) (o : Out) : Except Out Out := do
  let o ← putBit le false o
  appendByte b o

/-- `EMIT_MATCH(mlen, D)` (42_compress R157) with its precondition `mlen >= 4`, `D >= 1`: `E = D - 1`, the flag bit 1, the
two codes, the byte `E & 0xFF`. -/
def emitMatch (le : Bool) (mlen dist : Nat) (h : minMatch ≤ mlen ∧ 1 ≤ dist) (o : Out) : Except Out Out := do
  let o ← putBit le true o
  let o ← putVlc le (mlen - 2) (lenCode_ge h) o
  let o ← putVlc le ((dist - 1) / 256 + 2) (distCode_ge dist) o
  appendByte (matchByte dist) o

/-- One token of a list (30_encoding R106). A copy that is no token of R98, which no rule emits (42_compress R158), puts
the free values that stand for its missing code (log 30). -/
def emitToken (le : Bool) : Token → Out → Except Out Out
  | .lit b, o => emitLit le b o
  | .copy mlen dist, o =>
    if h : minMatch ≤ mlen ∧ 1 ≤ dist then emitMatch le mlen dist h o
    else putBits le (Config.noTokenFlags mlen dist) o >>= appendByte (Config.noTokenByte mlen dist)

/-- The tokens of a list in order (30_encoding R106). -/
def emitTokens (le : Bool) : List Token → Out → Except Out Out
  | [], o => .ok o
  | t :: ts, o => do
    let o ← emitToken le t o
    emitTokens le ts o

/-- The header of a CompressedBuffer (42_compress R151, 30_encoding R95): the size field at 0, the first literal at 4,
and the BitWriter initialised. Addresses 0 to 4 are below `COMP_CAP`: no fault. -/
def header (le : Bool) (n : Nat) (first : Byte) (obuf : Mem) : Out :=
  { bw := bwInit, obuf := memWrite (memWrite4 le obuf 0 (BitVec.ofNat 32 n)) 4 first }

/-- `count` filler bytes from `a` (42_compress R161). -/
def padFrom (a : Nat) : Nat → Out → Except Out Out
  | 0, o => .ok o
  | count + 1, o => do
    let o ← putByteAt a fill o
    padFrom (a + 1) count o

/-- `FINALIZE` and the filler (42_compress R161): CLEN is `WP`, and `OBUF[CLEN:PLEN]` is filled. -/
def finishOut (le : Bool) (o : Out) : Except Out Out := do
  let o ← finalize le o
  padFrom o.bw.wp (padded o.bw.wp - o.bw.wp) o

/-- `ASSEMBLE(N, b0, tokens, le)` (30_encoding R106), into a given `OBUF`. -/
def assembleInto (le : Bool) (n : Nat) (first : Byte) (tokens : List Token) (obuf : Mem) : Except Out Out := do
  let o ← emitTokens le tokens (header le n first obuf)
  finishOut le o

/-- `ASSEMBLE` (30_encoding R106): the bytes `OBUF[0:PLEN]` a token list stands for, or nothing where they do not fit. -/
def assemble (le : Bool) (n : Nat) (first : Byte) (tokens : List Token) : Option (List Byte) :=
  match assembleInto le n first tokens [] with
  | .ok o => some (memBytes o.obuf 0 (padded o.bw.wp))
  | .error _ => none

end Sys2Proof.Machine
end

