-- ==== Sys2Proof/Machine/Dictionary.lean ====
section
/-! DEFINITION. The DictionaryIndex (41_dictionary): a single-slot hash table whose insertion always replaces. -/

namespace Sys2Proof.Machine

/-- `HT_CLEAR` (41_dictionary R142). -/
def htClear : HashTable := []

/-- `HT_INSERT(p)` (41_dictionary R143). -/
def htInsert (hash : Hash) (ibuf : Mem) (p : Nat) (t : HashTable) : HashTable := htPut t (hashAt hash ibuf p) p

/-- `HT_LOOKUP(p)` (41_dictionary R144). -/
def htLookup (hash : Hash) (ibuf : Mem) (p : Nat) (t : HashTable) : Option Nat := htSlot t (hashAt hash ibuf p)

/-- The loop of `INDEX_UPTO` (41_dictionary R145), `fuel` insertions from `hp`. -/
def indexLoop (hash : Hash) (ibuf : Mem) : Nat → Nat → HashTable → HashTable
  | 0, _, t => t
  | fuel + 1, hp, t => indexLoop hash ibuf fuel (hp + 1) (htInsert hash ibuf hp t)

/-- `INDEX_UPTO(s)` (41_dictionary R145): every position from `HP` up to but not including `s`; `HP` is then `s`. -/
def indexUpto (hash : Hash) (ibuf : Mem) (s : Nat) (c : Comp) : Comp :=
  { c with ht := indexLoop hash ibuf (s - c.hp) c.hp c.ht, hp := max c.hp s }

end Sys2Proof.Machine
end

