-- ==== Sys2Proof/Machine/Compress.lean ====
section
/-! DEFINITION. The `COMPRESS` command (42_compress), for any window hash; the machine's own is the OPEN parameter. -/

namespace Sys2Proof.Machine

/-- `NORMALISE` (42_compress R150): append a zero byte where the input does not end in one; N goes to `RAWLEN`. -/
def normalise (s : State) : Except Cause State :=
  if s.inLen = 0 then .error .emptyInput
  else if memRead s.ibuf (s.inLen - 1) ≠ 0 then
    if s.inLen = inCap then .error .inputTooLong
    else .ok { s with ibuf := memWrite s.ibuf s.inLen 0, rawlen := BitVec.ofNat 32 (s.inLen + 1) }
  else .ok { s with rawlen := BitVec.ofNat 32 s.inLen }

/-- `C_INIT` (42_compress R151). -/
def cInit (le : Bool) (ibuf : Mem) (n : Nat) (obuf : Mem) : Comp :=
  { out := header le n (memRead ibuf 0) obuf, sp := 1, hp := 0, ht := htClear }

/-- The loop of `MATCHLEN` (42_compress R153) from `n` equal bytes on; `fuel` is what remains of the buffer. -/
def matchLoop (ibuf : Mem) (c s : Nat) : Nat → Nat → Nat
  | 0, n => n
  | fuel + 1, n => if memRead ibuf (c + n) = memRead ibuf (s + n) then matchLoop ibuf c s fuel (n + 1) else n

/-- `MATCHLEN(c, s)` (42_compress R153) in a buffer of `N = rawLen` bytes. -/
def matchLen (ibuf : Mem) (rawLen c s : Nat) : Nat := matchLoop ibuf c s (rawLen - s) 0

/-- The match at the source cursor, when one is taken: its length and its distance (42_compress R152, R154). The
dictionary holds every position below `SP`. -/
def findMatch (hash : Hash) (ibuf : Mem) (rawLen : Nat) (c : Comp) : Option (Nat × Nat) :=
  match htLookup hash ibuf c.sp c.ht with
  | none => none
  | some cand =>
    if minMatch ≤ matchLen ibuf rawLen cand c.sp then some (matchLen ibuf rawLen cand c.sp, c.sp - cand) else none

/-- Emit a literal of the byte at the source cursor and advance by 1 (42_compress R152, R155). -/
def literalStep (le : Bool) (ibuf : Mem) (c : Comp) : Except Comp Comp :=
  match emitLit le (memRead ibuf c.sp) c.out with
  | .error o => .error { c with out := o }
  | .ok o => .ok { c with out := o, sp := c.sp + 1 }

/-- Emit a match and advance by its length (42_compress R152). The caller's match has `mlen >= 4` and `D >= 1` (R154,
R158), the precondition of `EMIT_MATCH`. -/
def matchStep (le : Bool) (mlen dist : Nat) (c : Comp) : Except Comp Comp :=
  match emitToken le (.copy mlen dist) c.out with
  | .error o => .error { c with out := o }
  | .ok o => .ok { c with out := o, sp := c.sp + mlen }

/-- One iteration of `C_MAIN` (42_compress R152). -/
def mainStep (hash : Hash) (le : Bool) (ibuf : Mem) (rawLen : Nat) (c : Comp) : Except Comp Comp :=
  match findMatch hash ibuf rawLen (indexUpto hash ibuf c.sp c) with
  | some (mlen, dist) => matchStep le mlen dist (indexUpto hash ibuf c.sp c)
  | none => literalStep le ibuf (indexUpto hash ibuf c.sp c)

/-- `C_MAIN` (42_compress R152): while a whole window remains. Every iteration advances `SP`, so `fuel` = N is enough. -/
def cMain (hash : Hash) (le : Bool) (ibuf : Mem) (rawLen : Nat) : Nat → Comp → Except Comp Comp
  | 0, c => .ok c
  | fuel + 1, c =>
    if 4 ≤ rawLen - c.sp then do
      let c ← mainStep hash le ibuf rawLen c
      cMain hash le ibuf rawLen fuel c
    else .ok c

/-- `C_TAIL` (42_compress R155): the trailing bytes as literals. -/
def cTail (le : Bool) (ibuf : Mem) (rawLen : Nat) : Nat → Comp → Except Comp Comp
  | 0, c => .ok c
  | fuel + 1, c =>
    if c.sp < rawLen then do
      let c ← literalStep le ibuf c
      cTail le ibuf rawLen fuel c
    else .ok c

/-- `FINALIZE` and the filler, on the compressor's part (42_compress R161). -/
def cFinish (le : Bool) (c : Comp) : Except Comp Comp :=
  match finishOut le c.out with
  | .error o => .error { c with out := o }
  | .ok o => .ok { c with out := o }

/-- `C_INIT` to `C_FINISH` (42_compress R160) on a normalised buffer of `rawLen` bytes. -/
def compressBody (hash : Hash) (le : Bool) (ibuf : Mem) (rawLen : Nat) (obuf : Mem) : Except Comp Comp := do
  let c ← cMain hash le ibuf rawLen rawLen (cInit le ibuf rawLen obuf)
  let c ← cTail le ibuf rawLen rawLen c
  cFinish le c

/-- The results of a `COMPRESS` that ended without a fault: `OLEN` = CLEN, `OPAD` = PLEN (42_compress R161).
`HT` and the working registers keep what the command left in them, the model's choice (log 31, 11). -/
def compressDone (c : Comp) (s : State) : State :=
  complete { s.setComp c with
    olen := BitVec.ofNat 18 c.out.bw.wp, opad := BitVec.ofNat 18 (padded c.out.bw.wp) }

/-- `COMPRESS` (42_compress R160) with the window hash `hash`; 30_encoding R92 tests `ILEN` first. -/
def compressWith (hash : Hash) (le : Bool) (s : State) : State :=
  if inCap < s.inLen then raise .ilenRange s
  else
    match normalise s with
    | .error cause => raise cause s
    | .ok s' =>
      match compressBody hash le s'.ibuf s'.rawLen s'.obuf with
      | .error c => raise .outOverflow (s'.setComp c)
      | .ok c => compressDone c s'

/-- The meaning of `COMPRESS`. -/
def execCompress (le : Bool) (s : State) : Host.Outcome State Fault Refusal :=
  .next (compressWith Config.params.hash le s)

end Sys2Proof.Machine
end

