-- ==== Sys2Proof/Machine/Decompress.lean ====
section
/-! DEFINITION. The `DECOMPRESS` command and the stream tokens (43_decompress). -/

namespace Sys2Proof.Machine

/-- `BR_INIT` (40_bitchannel R124). -/
def brInit : BitReader := { racc := 0, rcnt := 0, rp := 4 }

/-- The decompressor's part once `BR_INIT` and `DP <- 0` are done (43_decompress R171). -/
def dStart (s : State) : Dec := { br := brInit, dp := 0, obuf := s.obuf }

/-- `D_INIT` (43_decompress R171): the two tests of N, `BR_INIT` and `DP <- 0`, then the first literal. A fault carries
what stands then. That `RACC`, `RCNT`, `RP` and `DP` hold 0, 0, 4 and 0 after `SRC_UNDERRUN` on the first literal is the
model's choice, the pseudocode's values: 10_state R26 leaves them unspecified (log 11). -/
def dInit (le : Bool) (s : State) : Except (Cause × Dec) Dec :=
  if sizeMax < s.rawLen then .error (.rawlenRange, s.dec)
  else if s.rawLen = 0 then .error (.zeroLength, s.dec)
  else
    match readByte (s.stream le) (dStart s).br with
    | .error _ => .error (.srcUnderrun, dStart s)
    | .ok (b, r) => .ok { br := r, dp := 1, obuf := memWrite s.obuf 0 b }

/-- The byte-serial copy of a match (43_decompress R175, 20_memory R73): each read sees the writes before it. -/
def copyBytes : Nat → Nat → Nat → Mem → Mem
  | 0, _, _, m => m
  | count + 1, off, dp, m => copyBytes count (off + 1) (dp + 1) (memWrite m dp (memRead m off))

/-- `TOK_LIT` (43_decompress R174) once its byte is read. -/
def tokLit (b : Byte) (d : Dec) : Dec := { d with obuf := memWrite d.obuf d.dp b, dp := d.dp + 1 }

/-- `TOK_MATCH` (43_decompress R175) once its codes and byte are read, for the raw length `rawLen`: the two tests, then
the copy from `D` bytes back. `D = E + 1`. -/
def tokMatch (rawLen mlen dist : Nat) (d : Dec) : Except Cause Dec :=
  if d.dp < dist then .error .badDistance
  else if rawLen - d.dp < mlen then .error .outOverrun
  else .ok { d with obuf := copyBytes mlen (d.dp - dist) d.dp d.obuf, dp := d.dp + mlen }

/-- A token's effect (43_decompress R173). -/
def tokenEffect (rawLen : Nat) (t : Token) (d : Dec) : Except Cause Dec :=
  match t with
  | .lit b => .ok (tokLit b d)
  | .copy mlen dist => tokMatch rawLen mlen dist d

/-- One iteration of `D_MAIN` (43_decompress R173): fetch a token and do it. A fault carries what stands then. Where the
stream ends inside the token, the reader's registers stand as before it: the model's choice (log 18). -/
def dStep (src : Stream) (rawLen : Nat) (d : Dec) : Except (Cause × Dec) Dec :=
  match fetchFrom src d.br with
  | .error _ => .error (.srcUnderrun, d)
  | .ok (t, r) =>
    match tokenEffect rawLen t { d with br := r } with
    | .error cause => .error (cause, { d with br := r })
    | .ok d' => .ok d'

/-- `D_MAIN` (43_decompress R173): while `DP < N`. Every token produces a byte, so `fuel` = N - DP is enough. -/
def dMain (src : Stream) (rawLen : Nat) : Nat → Dec → Except (Cause × Dec) Dec
  | 0, d => .ok d
  | fuel + 1, d =>
    if d.dp < rawLen then do
      let d ← dStep src rawLen d
      dMain src rawLen fuel d
    else .ok d

/-- The results of a `DECOMPRESS` that ended without a fault: `OLEN` = `OPAD` = N (43_decompress R176). -/
def decompressDone (s : State) : State :=
  complete { s with olen := BitVec.ofNat 18 s.rawLen, opad := BitVec.ofNat 18 s.rawLen }

/-- `D_MAIN` and the results, from the token the command stands before. -/
def decompressRest (le : Bool) (s : State) : State :=
  match dMain (s.stream le) s.rawLen (s.rawLen - s.dp) s.dec with
  | .error (cause, d) => raise cause (s.setDec d)
  | .ok d => decompressDone (s.setDec d)

/-- `DECOMPRESS` (43_decompress R176); 30_encoding R92 tests `ILEN` first. -/
def decompressWhole (le : Bool) (s : State) : State :=
  if inCap < s.inLen then raise .ilenRange s
  else
    match dInit le s with
    | .error (cause, d) => raise cause (s.setDec d)
    | .ok d => decompressRest le (s.setDec d)

/-- The meaning of `DECOMPRESS`. -/
def execDecompress (le : Bool) (s : State) : Host.Outcome State Fault Refusal := .next (decompressWhole le s)

/-- The meaning of `LIT b` (43_decompress R174). A `DP` beyond `OBUF`, which no running `DECOMPRESS` has (20_memory R66),
names no byte. -/
def execLit (b : Byte) (s : State) : Host.Outcome State Fault Refusal :=
  if outCap ≤ s.dp then .fault .noSuchAddress else .next (s.setDec (tokLit b s.dec))

/-- The meaning of `MATCH mlen, D` (43_decompress R175): its two faults are raised, in this order, before anything is
copied. -/
def execMatch (mlen dist : Nat) (s : State) : Host.Outcome State Fault Refusal :=
  match tokMatch s.rawLen mlen dist s.dec with
  | .error cause => .next (raise cause s)
  | .ok d => if outCap < d.dp then .fault .noSuchAddress else .next (s.setDec d)

/-! ### A `DECOMPRESS` taken token by token (70_reset R282; log 1) -/

/-- `CMD.LE` as sampled when the command started (20_memory R63): `CMD` cannot change while `PHASE` = `RUN`. -/
def State.le (s : State) : Bool := leOf s.cmd

/-- The token the running `DECOMPRESS` stands before, and the reader after it. -/
def fetchToken (s : State) : Except Cause (Token × BitReader) :=
  match fetchFrom (s.stream s.le) s.br with
  | .error _ => .error .srcUnderrun
  | .ok tr => .ok tr

/-- After a token (43_decompress R173): the command ends when `DP` has reached N. -/
def closeTokens (s : State) : State :=
  if s.phase = .run ∧ s.rawLen ≤ s.dp then decompressDone s else s

/-- The start of a `DECOMPRESS` that is then taken token by token: `D_INIT`, and the end of the command if N = 1. -/
def startTokens (le : Bool) (s : State) : State :=
  if inCap < s.inLen then raise .ilenRange s
  else
    match dInit le s with
    | .error (cause, d) => raise cause (s.setDec d)
    | .ok d => closeTokens { s.setDec d with pos := .tokens }

end Sys2Proof.Machine
end

