-- ==== Sys2Proof/Machine/Flags.lean ====
section
/-! DEFINITION. The status flags (10_state R31, R41): `STATUS` as a word, and the flags a command writes. -/

namespace Sys2Proof.Machine

/-- One bit of a word. -/
def bitAt (i : Nat) (b : Bool) : Word := if b then BitVec.ofNat 32 (2 ^ i) else 0

/-- `STATUS` (10_state R41): `BUSY`, `DONE` and `FLT` report `PHASE`; bits 31:6 read as 0. -/
def statusWord (s : State) : Word :=
  bitAt 0 (s.phase = .run) ||| bitAt 1 (s.phase = .done ∨ s.phase = .flt) ||| bitAt 2 (s.phase = .flt)
    ||| bitAt 3 s.vok ||| bitAt 4 s.rle ||| bitAt 5 s.flip

/-- `STATUS.VOK <- 1`, `VK <- k` (44_verify R191). -/
def setVerified (k : Nat) (s : State) : State := { s with vok := true, vk := BitVec.ofNat 3 k }

/-- `STATUS.RLE <- le`, `STATUS.FLIP <- flipped` (44_verify R196). -/
def setResolved (le flipped : Bool) (s : State) : State := { s with rle := le, flip := flipped }

/-- The value a host read of a register returns (10_state R40, R46): the narrower registers are extended with zeros. -/
def regValue (s : State) : Reg → Word
  | .cmd => s.cmd
  | .status => statusWord s
  | .fault => s.fault
  | .ilen => s.ilen
  | .rawlen => s.rawlen
  | .olen => s.olen.zeroExtend 32
  | .opad => s.opad.zeroExtend 32
  | .vk => s.vk.zeroExtend 32

end Sys2Proof.Machine
end

