-- ==== Sys2Proof/Machine/Resolve.lean ====
section
/-! DEFINITION. The `RESOLVE` command (44_verify R196) and the reserved command words (30_encoding R94). -/

namespace Sys2Proof.Machine

/-- The size field of the buffer, read in the order `le` (20_memory R61). -/
def sizeField (le : Bool) (s : State) : Word := memRead4 le s.ibuf 0

/-- The results of a `RESOLVE` that settled on `le` (44_verify R196). -/
def resolveDone (le flipped : Bool) (s : State) : State :=
  complete (setResolved le flipped { s with rawlen := sizeField le s })

/-- `RESOLVE` (44_verify R196) with the assumed order `le`: at most one flip; 30_encoding R92 tests `ILEN` first. -/
def resolveWith (le : Bool) (s : State) : State :=
  if inCap < s.inLen then raise .ilenRange s
  else if s.inLen < sizeFieldLen then raise .shortBuffer s
  else if (sizeField le s).toNat ≤ sizeMax then resolveDone le false s
  else if (sizeField (!le) s).toNat ≤ sizeMax then resolveDone (!le) true s
  else raise .sizeBothOrders s

/-- The meaning of `RESOLVE`. -/
def execResolve (le : Bool) (s : State) : Host.Outcome State Fault Refusal := .next (resolveWith le s)

/-- The fault of a reserved command word: `RESERVED_BITS` is tested before `ILLEGAL_OP` (30_encoding R92). -/
def reservedCause (w : Word) : Cause := if reservedBitsSet w then .reservedBits else .illegalOp

/-- The meaning of a reserved command word (30_encoding R94): its `CommandFault` and no other effect. -/
def execReservedOp (w : Word) (s : State) : Host.Outcome State Fault Refusal := .next (raise (reservedCause w) s)

end Sys2Proof.Machine
end

