-- ==== Sys2Proof/Machine/Verify.lean ====
section
/-! DEFINITION. The `VERIFY` command (44_verify R191), for any digest; the machine's own is the OPEN parameter. -/

namespace Sys2Proof.Machine

/-- Candidate `k` (44_verify R191): `DIGEST(IBUF[16 : L - k])` is `IBUF[0:16]`, byte for byte in address order. -/
def digestMatches (digest : List Byte → Vector Byte 16) (ibuf : Mem) (len k : Nat) : Bool :=
  (digest (memBytes ibuf digestLen (len - k - digestLen))).toList = memBytes ibuf 0 digestLen

/-- The candidates from `k` on, at most `fuel` of them (44_verify R191): stop where no room is left for a digest. -/
def verifyLoop (digest : List Byte → Vector Byte 16) (ibuf : Mem) (len : Nat) : Nat → Nat → Option Nat
  | 0, _ => none
  | fuel + 1, k =>
    if len - k < digestLen then none
    else if digestMatches digest ibuf len k then some k
    else verifyLoop digest ibuf len fuel (k + 1)

/-- `VERIFY` (44_verify R191) with the digest `digest`; 30_encoding R92 tests `ILEN` first. -/
def verifyWith (digest : List Byte → Vector Byte 16) (s : State) : State :=
  if inCap < s.inLen then raise .ilenRange s
  else
    match verifyLoop digest s.ibuf s.inLen (padTol + 1) 0 with
    | none => raise .noMatch s
    | some k => complete (setVerified k s)

/-- The meaning of `VERIFY`; its `LE` is ignored (30_encoding R94). -/
def execVerify (_le : Bool) (s : State) : Host.Outcome State Fault Refusal :=
  .next (verifyWith Config.params.digest s)

end Sys2Proof.Machine
end

