-- ==== Sys2Proof/Machine/Dispatch.lean ====
section
/-! DEFINITION. One arm per row of spec/opcode_table.json. -/

namespace Sys2Proof.Machine

def exec (i : Instr) (s : State) : Host.Outcome State Fault Refusal :=
  match i with
  | .compress le => Sys2Proof.Machine.execCompress le s
  | .decompress le => Sys2Proof.Machine.execDecompress le s
  | .verify le => Sys2Proof.Machine.execVerify le s
  | .resolve le => Sys2Proof.Machine.execResolve le s
  | .reservedOp w => Sys2Proof.Machine.execReservedOp w s
  | .lit b => Sys2Proof.Machine.execLit b s
  | .matchTok mlen dist => Sys2Proof.Machine.execMatch mlen dist s

end Sys2Proof.Machine
end

