-- ==== Sys2Proof/Machine/HostPort.lean ====
section
/-! DEFINITION. What the host can do to the block (70_reset R260, R263, R270): register and buffer accesses, and reset. -/

namespace Sys2Proof.Machine

/-- The register at a byte offset (10_state R40). -/
def regAt (offset : Nat) : Option Reg :=
  match offset with
  | 0x00 => some .cmd
  | 0x04 => some .status
  | 0x08 => some .fault
  | 0x0C => some .ilen
  | 0x10 => some .rawlen
  | 0x14 => some .olen
  | 0x18 => some .opad
  | 0x1C => some .vk
  | _ => none

/-- Reset in service (70_reset R260), in any phase: as `State.reset`, but the memories hold free values, since a model
must not assume they keep what they held (log 9). The host's own side (its moves to come, what it last read) stays. -/
def resetMove (s : State) : State :=
  { State.reset with
    ibuf := memOf (Config.resetIbufByte s.draws) inCap, obuf := memOf (Config.resetObufByte s.draws) outCap,
    turns := s.turns, rdata := s.rdata, draws := s.draws + 1 }

/-- A register read (70_reset R263): no side effect; while `RUN` only `STATUS` and `FAULT` may be read (R270). -/
def readRegMove (offset : Nat) (s : State) : Host.Outcome State Fault Refusal :=
  match regAt offset with
  | none => .fault .noSuchRegister
  | some r =>
    if s.phase = .run ∧ r ≠ .status ∧ r ≠ .fault then .refused .hostAccessWhileBusy
    else .next { s with rdata := regValue s r }

/-- A register write (10_state R40, 70_reset R263): a `CMD` write while `RUN` is ignored (30_encoding R92), any other
write while `RUN` is forbidden (R270); a write to a read-only register is ignored. -/
def writeRegMove (offset : Nat) (v : Word) (s : State) : Host.Outcome State Fault Refusal :=
  match regAt offset with
  | none => .fault .noSuchRegister
  | some .cmd => if s.phase = .run then .next s else .next (acceptCommand v s)
  | some .ilen => if s.phase = .run then .refused .hostAccessWhileBusy else .next { s with ilen := v }
  | some .rawlen => if s.phase = .run then .refused .hostAccessWhileBusy else .next { s with rawlen := v }
  | some .status | some .fault | some .olen | some .opad | some .vk =>
    if s.phase = .run then .refused .hostAccessWhileBusy else .next s

/-- A buffer access is forbidden while `RUN` (70_reset R270) and needs an address that exists (10_state R51, R52). -/
def bufferMove (a cap : Nat) (s : State) (s' : State) : Host.Outcome State Fault Refusal :=
  if s.phase = .run then .refused .hostAccessWhileBusy
  else if cap ≤ a then .fault .noSuchAddress
  else .next s'

/-- A read of a byte of `IBUF`. -/
def readIbufMove (a : Nat) (s : State) : Host.Outcome State Fault Refusal :=
  bufferMove a inCap s { s with rdata := (memRead s.ibuf a).zeroExtend 32 }

/-- A write of a byte of `IBUF`. -/
def writeIbufMove (a : Nat) (b : Byte) (s : State) : Host.Outcome State Fault Refusal :=
  bufferMove a inCap s { s with ibuf := memWrite s.ibuf a b }

/-- A read of a byte of `OBUF` (10_state R52): below `OPAD` after a command that ended without a fault it is the byte;
anywhere else it is unspecified, and the read draws a free value (log 10). -/
def readObufMove (a : Nat) (s : State) : Host.Outcome State Fault Refusal :=
  if s.phase = .done ∧ a < s.opad.toNat then
    bufferMove a outCap s { s with rdata := (memRead s.obuf a).zeroExtend 32 }
  else
    bufferMove a outCap s { s with rdata := (Config.drawnByte s.draws).zeroExtend 32, draws := s.draws + 1 }

/-- A write of a byte of `OBUF` (70_reset R263: "never needed"). -/
def writeObufMove (a : Nat) (b : Byte) (s : State) : Host.Outcome State Fault Refusal :=
  bufferMove a outCap s { s with obuf := memWrite s.obuf a b }

/-- One host access. -/
def hostMove (op : HostOp) (s : State) : Host.Outcome State Fault Refusal :=
  match op with
  | .reset => .next (resetMove s)
  | .readReg offset => readRegMove offset s
  | .writeReg offset v => writeRegMove offset v s
  | .readIbuf a => readIbufMove a s
  | .writeIbuf a b => writeIbufMove a b s
  | .readObuf a => readObufMove a s
  | .writeObuf a b => writeObufMove a b s

end Sys2Proof.Machine
end

