-- ==== Sys2Proof/Machine/Turns.lean ====
section
/-! DEFINITION. The moves of the block (70_reset R282): fetching what it runs next, at either granularity, and how the
host's row test places one instruction where the next step fetches it. -/

namespace Sys2Proof.Machine

/-- The command the block is running: decoded from `CMD` (30_encoding R92). -/
def fetchCommand (s : State) : Instr := decodeCommand s.cmd

/-- The block's move to the end of its command (70_reset R282). Outside `RUN` the block does nothing (70_reset R260). -/
def blockMove (s : State) : Host.Outcome State Fault Refusal :=
  match s.phase, s.pos with
  | .run, .start => exec (fetchCommand s) s
  | .run, .tokens => .next (decompressRest s.le s)
  | .idle, _ => .next s
  | .done, _ => .next s
  | .flt, _ => .next s

/-- The state after a token's meaning, closed if `DP` has reached N (43_decompress R173). -/
def closeMove (o : Host.Outcome State Fault Refusal) : Host.Outcome State Fault Refusal :=
  match o with
  | .next s => .next (closeTokens s)
  | .fault f => .fault f
  | .refused r => .refused r

/-- The running `DECOMPRESS` goes on by one token: fetch it at `RP`, execute it, end the command at N
(10_state R30, 43_decompress R173). -/
def tokenStep (s : State) : Host.Outcome State Fault Refusal :=
  if s.dp < s.rawLen then
    match fetchToken s with
    | .error cause => .next (raise cause s)
    | .ok (t, r) => closeMove (exec t.toInstr { s with br := r })
  else .next (decompressDone s)

/-- The first step of a command taken token by token: only a `DECOMPRESS` has tokens, any other runs to its end. -/
def startStep (i : Instr) (s : State) : Host.Outcome State Fault Refusal :=
  match i with
  | .decompress le => .next (startTokens le s)
  | .compress le => exec (.compress le) s
  | .verify le => exec (.verify le) s
  | .resolve le => exec (.resolve le) s
  | .reservedOp w => exec (.reservedOp w) s
  | .lit b => exec (.lit b) s
  | .matchTok mlen dist => exec (.matchTok mlen dist) s

/-- The block's move by one token (70_reset R282). -/
def tokenMove (s : State) : Host.Outcome State Fault Refusal :=
  match s.phase, s.pos with
  | .run, .start => startStep (fetchCommand s) s
  | .run, .tokens => tokenStep s
  | .idle, _ => .next s
  | .done, _ => .next s
  | .flt, _ => .next s

/-- One move. -/
def takeTurn (t : Turn) (s : State) : Host.Outcome State Fault Refusal :=
  match t with
  | .host op => hostMove op s
  | .block => blockMove s
  | .token => tokenMove s

/-- The next move and the state it is made in: the first of `turns`; where none is listed, the block's (log 2). -/
def nextTurn (s : State) : Turn × State :=
  match s.turns with
  | [] => (.block, s)
  | t :: rest => (t, { s with turns := rest })

/-- A command word placed where the block fetches it: as if the host had just written it to `CMD` (log 19). -/
def placeCommand (w : Word) (s : State) : State :=
  { acceptCommand w s with turns := .block :: s.turns }

/-- The stream that `placeToken` writes: 16 flag bits as flag word 0 at offsets 5 and 6, big-endian, then the byte. -/
def placeStream (flags : List Bool) (byte : Byte) (ibuf : Mem) : Mem :=
  memLoad ibuf 5
    [BitVec.ofBoolListBE (flags.take 8) |>.setWidth 8, BitVec.ofBoolListBE ((flags.drop 8).take 8) |>.setWidth 8, byte]

/-- A token placed where a running `DECOMPRESS` fetches its next one: `DECOMPRESS.BE` in progress with its first literal
copied, `RP` on flag word 0 (log 19, 20). -/
def placeToken (flags : List Bool) (byte : Byte) (s : State) : State :=
  { acceptCommand (commandWord 2 false) s with
    ilen := 8, rawlen := BitVec.ofNat 32 sizeMax, ibuf := placeStream flags byte s.ibuf,
    br := { racc := 0, rcnt := 0, rp := 5 }, dp := max 1 s.dp, pos := .tokens, turns := .token :: s.turns }

end Sys2Proof.Machine
end

