-- ==== Sys2Proof/Machine/Step.lean ====
section
/-! DEFINITION. One step of the machine. -/

namespace Sys2Proof.Machine

/-- One step: the next move (log 2), made in the state without it. -/
def step (s : State) : Host.Outcome State Fault Refusal := takeTurn (nextTurn s).1 (nextTurn s).2

/-- `s` with one instruction of the opcode table placed so that the very next step runs it (log 19, 20). -/
def State.withFetchWord (s : State) (nbits w : Nat) : State :=
  if nbits ≤ tokenRowBits then placeToken (tableFlags w) (tableByte w) s else placeCommand (BitVec.ofNat 32 w) s

end Sys2Proof.Machine
end

