-- ==== Sys2Proof/Machine/Pipeline.lean ====
section
/-! DEFINITION. The ContainerPipeline (45_pipeline): what a HOST does with the block's four commands and the external
primitives. It is no state and no command of the block (00_scope R4); it is modelled as functions over the block's state,
for any parameters (log 23). -/

namespace Sys2Proof.Machine

/-- The three container variants (45_pipeline R211). -/
inductive Variant where
  | plain
  | compressedA
  | compressedB
deriving DecidableEq, Repr

/-- Why the pipeline returns no markup. -/
inductive PipeFault where
  /-- The host's own rejection of a container of more than `IN_CAP` bytes (45_pipeline R210). -/
  | containerTooLong
  /-- A fault: its cause, with the variant the pipeline had selected, if any (45_pipeline R217). -/
  | raised (cause : Cause) (variant : Option Variant)
deriving DecidableEq, Repr

/-! ### The external cipher: ECB mode (00_scope R4, R6) -/

/-- The first 8 bytes of a byte string that has as many. -/
def blockOf (x : List Byte) : Vector Byte 8 := Vector.ofFn fun i => x.getD i.val 0

/-- A block function on each of the first `n` 8-byte blocks of a byte string, independently of the others. -/
def ecb (f : Vector Byte 8 → Vector Byte 8) : Nat → List Byte → List Byte
  | 0, _ => []
  | n + 1, x => (f (blockOf x)).toList ++ ecb f n (x.drop padBlock)

/-- `CIPHER_ENC(key, data)`, for data of a length that is a multiple of 8 (00_scope R6): its result has the same length. -/
def encrypt (p : Params) (key : Vector Byte 8) (x : List Byte) : List Byte :=
  ecb (p.encBlock key) (x.length / padBlock) x

/-- `CIPHER_DEC(key, data)`, for data of a length that is a multiple of 8 (00_scope R6): its result has the same length. -/
def decrypt (p : Params) (key : Vector Byte 8) (x : List Byte) : List Byte :=
  ecb (p.decBlock key) (x.length / padBlock) x

/-- The meaning of a command under parameters `p`; for the machine's own parameters it is `exec`. -/
def runCommand (p : Params) (i : Instr) (s : State) : State :=
  match i with
  | .compress le => compressWith p.hash le s
  | .decompress le => decompressWhole le s
  | .verify _ => verifyWith p.digest s
  | .resolve le => resolveWith le s
  | .reservedOp w => raise (reservedCause w) s
  | .lit _ => s
  | .matchTok _ _ => s

/-- What the host writes to `ILEN` for an input: its length, or the largest value of the register where it does not fit
(log 23). Any length above `IN_CAP` ends in `ILEN_RANGE` (10_state R44, 70_reset R271). -/
def lengthWord (input : List Byte) : Word := BitVec.ofNat 32 (min input.length 0xFFFFFFFF)

/-- What the host does for one command (70_reset R262): the input into `IBUF`, as much of it as there are addresses, and
its length into `ILEN`, then the `CMD` write, then waiting for the end. `RAWLEN` stays as it is. -/
def issue (p : Params) (input : List Byte) (i : Instr) (w : Word) (s : State) : State :=
  runCommand p i
    (acceptCommand w { s with ibuf := memLoad s.ibuf 0 (input.take inCap), ilen := lengthWord input })

/-- The cause that a value of `FAULT` records, among those the block writes (60_exceptions R231 to R236). -/
def causeOf (f : Word) : Option Cause :=
  [Cause.sizeBothOrders, .shortBuffer, .noMatch, .srcUnderrun, .outOverrun, .badDistance, .zeroLength, .outOverflow,
    .emptyInput, .inputTooLong, .illegalOp, .reservedBits, .ilenRange, .rawlenRange].find? (fun c => faultCode c = f)

/-- Go on with `next` when the command ended without a fault; otherwise report its fault (45_pipeline R217). -/
def onDone {α : Type} (v : Variant) (s : State) (next : Except PipeFault α) : Except PipeFault α :=
  if s.phase = .flt then
    match causeOf s.fault with
    | some c => .error (.raised c (some v))
    | none => next
  else next

/-- `MATCHES(X, o, m)` (45_pipeline R212): a buffer too short to hold a marker does not match it. -/
def markerAt (x : List Byte) (o : Nat) (m : List Byte) : Bool :=
  decide (o + m.length ≤ x.length) && decide ((x.drop o).take m.length = m)

/-- The variant of a decrypted container: offset 16, then 20, then 22, the first that matches (45_pipeline R213). -/
def variantOf (p : Params) (x : List Byte) : Option Variant :=
  if markerAt x 16 markPlain then some .plain
  else if markerAt x 20 p.markA then some .compressedA
  else if markerAt x 22 p.markB then some .compressedB
  else none

/-- `VERIFY(b)` by the host. -/
def hostVerify (p : Params) (b : List Byte) (s : State) : State := issue p b (.verify false) (commandWord 3 false) s

/-- `RESOLVE(b, le)` by the host. -/
def hostResolve (p : Params) (b : List Byte) (le : Bool) (s : State) : State :=
  issue p b (.resolve le) (commandWord 4 le) s

/-- `DECOMPRESS(c, n, le)` by the host, which leaves in `RAWLEN` what `RESOLVE` put there (70_reset R262). -/
def hostDecompress (p : Params) (c : List Byte) (le : Bool) (s : State) : State :=
  issue p c (.decompress le) (commandWord 2 le) s

/-- `COMPRESS(b, le)` by the host. -/
def hostCompress (p : Params) (b : List Byte) (le : Bool) (s : State) : State :=
  issue p b (.compress le) (commandWord 1 le) s

/-- The result bytes `OBUF[0:OPAD]` the host reads back. -/
def resultBytes (s : State) : List Byte := memBytes s.obuf 0 s.opad.toNat

/-- The decode order of the variant Plain (45_pipeline R215, R216). -/
def decodePlain (p : Params) (x : List Byte) (s : State) : Except PipeFault (List Byte) :=
  let v := hostVerify p x s
  onDone .plain v (.ok ((x.take (x.length - v.vk.toNat)).drop digestLen))

/-- The decode order of variant A: verify, strip the prefix, resolve, decompress (45_pipeline R215, R216). -/
def decodeA (p : Params) (le : Bool) (x : List Byte) (s : State) : Except PipeFault (List Byte) :=
  let v := hostVerify p x s
  onDone .compressedA v <|
    let c := x.drop digestLen
    let r := hostResolve p c le v
    onDone .compressedA r <|
      let d := hostDecompress p c r.rle r
      onDone .compressedA d (.ok (resultBytes d))

/-- The decode order of variant B: resolve, decompress, verify, strip the prefix (45_pipeline R215, R216). -/
def decodeB (p : Params) (le : Bool) (x : List Byte) (s : State) : Except PipeFault (List Byte) :=
  let r := hostResolve p x le s
  onDone .compressedB r <|
    let d := hostDecompress p x r.rle r
    onDone .compressedB d <|
      let raw := resultBytes d
      let v := hostVerify p raw d
      onDone .compressedB v (.ok ((raw.take (raw.length - v.vk.toNat)).drop digestLen))

/-- `DECODE_CONTAINER(container, key, le)` (45_pipeline R215), with the block in state `s`, behind the host's rejection of
a container of more than `IN_CAP` bytes (R210). -/
def decodeContainer (p : Params) (key : Vector Byte 8) (le : Bool) (container : List Byte) (s : State) :
    Except PipeFault (List Byte) :=
  if inCap < container.length then .error .containerTooLong
  else if container.length % 8 ≠ 0 then .error (.raised .lenNotMult8 none)
  else
    let x := decrypt p key container
    match variantOf p x with
    | some .plain => decodePlain p x s
    | some .compressedA => decodeA p le x s
    | some .compressedB => decodeB p le x s
    | none => .error (.raised .badMarker none)

/-- Filler up to a multiple of 8 (45_pipeline R218). -/
def padList (b : List Byte) : List Byte := b ++ List.replicate (padded b.length - b.length) fill

/-- `ENCODE_CONTAINER(markup, key, variant, le)` (45_pipeline R218), with the block in state `s`. -/
def encodeContainer (p : Params) (key : Vector Byte 8) (variant : Variant) (le : Bool) (markup : List Byte)
    (s : State) : Except PipeFault (List Byte) :=
  match variant with
  | .plain => .ok (encrypt p key (padList ((p.digest markup).toList ++ markup)))
  | .compressedA =>
    let c := hostCompress p markup le s
    onDone .compressedA c <|
      .ok (encrypt p key ((p.digest (memBytes c.obuf 0 c.olen.toNat)).toList ++ resultBytes c))
  | .compressedB =>
    let c := hostCompress p ((p.digest markup).toList ++ markup) le s
    onDone .compressedB c (.ok (encrypt p key (resultBytes c)))

end Sys2Proof.Machine
end

