-- ==== Sys2Proof/Safety.lean ====
section
/-! DEFINITION. The terms in which claims about runs are stated: the state invariant, what a host can see when a command
has ended, and what a token list stands for. -/

namespace Sys2Proof.Machine

/-! ### The invariant -/

/-- Every listed address is below `n`. -/
abbrev Below {β : Type} (n : Nat) (m : List (Nat × β)) : Prop := ∀ c ∈ m, c.1 < n

/-- The memories keep their canonical form and hold only addresses that exist (10_state R50 to R52). -/
structure MemoriesOk (s : State) : Prop where
  ibuf_wf : Mem.wf s.ibuf
  obuf_wf : Mem.wf s.obuf
  ht_sorted : Sorted s.ht
  ibuf_below : Below inCap s.ibuf
  obuf_below : Below outCap s.obuf
  ht_below : Below htSlots s.ht
  /-- `off` is an `IBUF` position 0 to 0x1FFFB (10_state R50). -/
  ht_off : ∀ c ∈ s.ht, c.2 ≤ 0x1FFFB

/-- Every cursor and count fits the register the spec gives it (10_state R22 to R25): the naturals never differ from
registers of 18 and 5 bits. -/
structure CursorsOk (s : State) : Prop where
  wcnt : s.bw.wcnt ≤ 16
  rsv : s.bw.rsv ≤ outCap
  wp : s.bw.wp ≤ outCap
  rcnt : s.br.rcnt ≤ 16
  rp : s.br.rp ≤ inCap
  sp : s.sp ≤ inCap
  hp : s.hp ≤ inCap
  dp : s.dp ≤ outCap
  olen : s.olen.toNat ≤ outCap
  opad : s.opad.toNat ≤ outCap

/-- The results a command start clears are clear (10_state R40). -/
structure Cleared (s : State) : Prop where
  fault : s.fault = 0
  olen : s.olen = 0
  opad : s.opad = 0
  vk : s.vk = 0
  vok : s.vok = false
  rle : s.rle = false
  flip : s.flip = false

/-- `PHASE` and the registers that go with it: a running command has produced no result yet, `FAULT` is non-zero exactly
in `FLT` (10_state R41, R42), and a position inside a command is held only while one runs. -/
structure ControlOk (s : State) : Prop where
  running : s.phase = .run → Cleared s
  faulted : s.phase = .flt ↔ s.fault ≠ 0
  at_start : s.phase ≠ .run → s.pos = .start

/-- A `DECOMPRESS` taken token by token stands inside its output and inside its input (20_memory R64, R66). -/
structure TokensOk (s : State) : Prop where
  command : fetchCommand s = .decompress s.le
  ilen : s.inLen ≤ inCap
  rawlen : s.rawLen ≤ sizeMax
  first : 1 ≤ s.dp
  inside : s.dp < s.rawLen
  reader : s.br.rp ≤ s.inLen

/-- The invariant of the machine. -/
structure Inv (s : State) : Prop where
  memories : MemoriesOk s
  cursors : CursorsOk s
  control : ControlOk s
  tokens : s.pos = .tokens → TokensOk s

/-! ### What a host can see when a command has ended -/

/-- The results of a command (70_reset R264): the host registers a command can write, and `OBUF[0:OPAD]` if `DONE`. -/
structure Results where
  phase : Phase
  fault : Word
  rawlen : Word
  olen : BitVec 18
  opad : BitVec 18
  vk : BitVec 3
  vok : Bool
  rle : Bool
  flip : Bool
  bytes : List Byte
deriving DecidableEq, Repr

/-- The results in a state. -/
def results (s : State) : Results where
  phase := s.phase
  fault := s.fault
  rawlen := s.rawlen
  olen := s.olen
  opad := s.opad
  vk := s.vk
  vok := s.vok
  rle := s.rle
  flip := s.flip
  bytes := if s.phase = .done then memBytes s.obuf 0 s.opad.toNat else []

/-- `o` is the state `s` ended by a fault: `FAULT` is `code`, `PHASE` is `FLT` (60_exceptions R240), `pos` is back at the start
(the model's own, log 1), and nothing else changes, but that nothing is said of `OBUF`, which is unspecified after a fault
(10_state R52, 60_exceptions R241). -/
def FaultsWith (code : Word) (s : State) (o : Host.Outcome State Fault Refusal) : Prop :=
  ∃ t, o = .next t ∧ t = { s with fault := code, phase := .flt, pos := .start, obuf := t.obuf }

/-! ### What a token list stands for -/

/-- `mlen` bytes, each the one `dist` back from the end of the list so far (20_memory R73). -/
def extendCopy : Nat → Nat → List Byte → List Byte
  | 0, _, out => out
  | mlen + 1, dist, out => extendCopy mlen dist (out ++ [out.getD (out.length - dist) 0])

/-- The raw bytes after one token. -/
def applyToken (out : List Byte) : Token → List Byte
  | .lit b => out ++ [b]
  | .copy mlen dist => extendCopy mlen dist out

/-- The raw bytes that a first literal and a token list stand for (30_encoding R98). -/
def expand (first : Byte) (tokens : List Token) : List Byte := tokens.foldl applyToken [first]

/-- How many raw bytes a token produces (30_encoding R98). -/
def Token.size : Token → Nat
  | .lit _ => 1
  | .copy mlen _ => mlen

/-- A token list that stands for raw bytes when `len` bytes precede it: every match has `mlen >= 4` and a distance from 1
to the bytes produced before it (42_compress R164 (c)). -/
def tokensOk : Nat → List Token → Bool
  | _, [] => true
  | len, .lit _ :: ts => tokensOk (len + 1) ts
  | len, .copy mlen dist :: ts =>
    decide (minMatch ≤ mlen) && decide (1 ≤ dist) && decide (dist ≤ len) && tokensOk (len + mlen) ts

/-- How many flag bits a token list has (42_compress R162). -/
def flagCount (tokens : List Token) : Nat := (tokens.map (fun t => t.flags.length)).sum

/-- CLEN of a token list (42_compress R162): 5 bytes of header, 2 for each flag word, 1 for each token. -/
def streamLen (tokens : List Token) : Nat :=
  5 + 2 * max 1 ((flagCount tokens + 15) / 16) + tokens.length

/-- `count` tokens read from a stream, and the reader after them. -/
def readTokens (src : Stream) : Nat → BitReader → Except Reject (List Token × BitReader)
  | 0, r => .ok ([], r)
  | count + 1, r => do
    let (t, r) ← fetchFrom src r
    let (ts, r) ← readTokens src count r
    .ok (t :: ts, r)

/-- Flag bit `i` (0 to 15, in stream order) of the flag word at address `a`, by the bytes (20_memory R62): big-endian, the
byte at `a` holds the first eight, the first of them in its bit 7, and the byte at `a + 1` the others; little-endian, the
two bytes are swapped. -/
def flagBitAt (le : Bool) (byte : Nat → Byte) (a i : Nat) : Bool :=
  (byte (if le then a + (1 - i / 8) else a + i / 8)).getLsbD (7 - i % 8)

/-- `count` flag bits read from a stream, and the reader after them. -/
def takeFlags (src : Stream) : Nat → BitReader → Except Reject (List Bool × BitReader)
  | 0, r => .ok ([], r)
  | count + 1, r => do
    let (b, r) ← getBit src r
    let (bits, r) ← takeFlags src count r
    .ok (b :: bits, r)

/-- A byte string as a stream. -/
def streamOf (le : Bool) (bytes : List Byte) : Stream := { byte := fun a => bytes.getD a 0, len := bytes.length, le := le }

/-- The reader once the first literal has been read (43_decompress R171). -/
def readerAtBody : BitReader := { racc := 0, rcnt := 0, rp := 5 }

/-- N of an input (42_compress R150): one more than its length where its last byte is not zero. -/
def normalisedLen (s : State) : Nat := if memRead s.ibuf (s.inLen - 1) ≠ 0 then s.inLen + 1 else s.inLen

/-- A byte of the normalised input (42_compress R150). -/
def normalisedByte (s : State) (a : Nat) : Byte := if a < s.inLen then memRead s.ibuf a else 0

/-! ### The token list the compressor's matcher chooses -/

/-- The greatest position below `k` whose window has the hash value of the window at `p`, if any: what the single slot
holds once every position below `k` has been indexed (41_dictionary R143, R145). -/
def lastSameHash (hash : Hash) (ibuf : Mem) (p : Nat) : Nat → Option Nat
  | 0 => none
  | k + 1 => if hashAt hash ibuf k = hashAt hash ibuf p then some k else lastSameHash hash ibuf p k

/-- The token at position `p` of a buffer of `n` bytes (42_compress R152, R154): the match with the one candidate where it
has at least 4 bytes, else the literal. Where fewer than 4 bytes remain it is the literal (R155). -/
def chosenToken (hash : Hash) (ibuf : Mem) (n p : Nat) : Token :=
  match lastSameHash hash ibuf p p with
  | none => .lit (memRead ibuf p)
  | some c => if minMatch ≤ matchLen ibuf n c p then .copy (matchLen ibuf n c p) (p - c) else .lit (memRead ibuf p)

/-- The tokens from position `p` on, at most `fuel` of them. -/
def chosenTokens (hash : Hash) (ibuf : Mem) (n : Nat) : Nat → Nat → List Token
  | 0, _ => []
  | fuel + 1, p =>
    if p < n then
      chosenToken hash ibuf n p :: chosenTokens hash ibuf n fuel (p + Token.size (chosenToken hash ibuf n p))
    else []

/-! ### The size field and the normalised bytes -/

/-- The size field of `IBUF` as a number (20_memory R61): `b0 + 256 b1 + 65536 b2 + 2^24 b3` little-endian, the bytes the
other way round big-endian. -/
def sizeValue (le : Bool) (s : State) : Nat :=
  if le then
    (memRead s.ibuf 0).toNat + 256 * (memRead s.ibuf 1).toNat + 65536 * (memRead s.ibuf 2).toNat
      + 16777216 * (memRead s.ibuf 3).toNat
  else
    (memRead s.ibuf 3).toNat + 256 * (memRead s.ibuf 2).toNat + 65536 * (memRead s.ibuf 1).toNat
      + 16777216 * (memRead s.ibuf 0).toNat

/-- The six size values that stay in range when their bytes are reversed (44_verify R197). -/
def ambiguousSizes : List Nat := [0, 0x100, 0x200, 0x10000, 0x10100, 0x20000]

/-- A byte string with the zero byte that `NORMALISE` appends where it does not end in one (42_compress R150). -/
def normalisedBytes (b : List Byte) : List Byte := if b.getLast? = some 0 then b else b ++ [0]

end Sys2Proof.Machine
end

