-- ==== Sys2Proof/Certificates/Slice0/Obligations.lean ====
section
/-! DEFINITION. The statements for the provers. Each docstring names the rule of spec/ it formalises.
Where one gives the state after a command as an equality of whole states, it so says that `HT` and the working registers
the command does not name stay: of the end of a command 70_reset R264 says nothing of them (log 11 and 31, the model's).
Of `OBUF` after a fault they say nothing (60_exceptions R241), but for `ReservedWordsOnlyFault`, where 30_encoding R94 says
that it is untouched. -/

open Sys2Proof Sys2Proof.Machine

/-! ### Encodings -/

/-- A few words and tokens written out bit by bit from 30_encoding R91, R98 and R99 (and the stream of 43_decompress R179)
decode to the instruction they stand for. -/
def Obligations.WrittenOutWordsDecode : Prop :=
  decode (.word 0b0001) = .ok (.compress false) ∧ decode (.word 0b1001) = .ok (.compress true) ∧
  decode (.word 0b1010) = .ok (.decompress true) ∧ decode (.word 0b0011) = .ok (.verify false) ∧
  decode (.word 0b1100) = .ok (.resolve true) ∧ decode (.word 0b0101) = .ok (.reservedOp 5) ∧
  decode (.word 0b10001) = .ok (.reservedOp 0x11) ∧ decode (.token [false] 0x62) = .ok (.lit 0x62) ∧
  decode (.token [true, false, true, false, false, false, false] 0x01) = .ok (.matchTok 6 2) ∧
  decode (.token [true, false, false, true, false] 0x2B) = .ok (.matchTok 4 300)

/-- 30_encoding R91: the command word by its fields `OP` (2:0), `LE` (3) and reserved (31:4), and the same by mask and
match. -/
def Obligations.CommandWordFields : Prop :=
  ∀ w : Word,
    decodeCommand w =
      (if w.extractLsb' 4 28 ≠ 0#28 then .reservedOp w
       else match (w.extractLsb' 0 3).toNat with
         | 1 => .compress (w.getLsbD 3)
         | 2 => .decompress (w.getLsbD 3)
         | 3 => .verify (w.getLsbD 3)
         | 4 => .resolve (w.getLsbD 3)
         | _ => .reservedOp w) ∧
    ∀ op : Word, op.toNat ≤ 7 →
      (w &&& 0xFFFFFFF7 = op ↔ w.extractLsb' 4 28 = 0#28 ∧ (w.extractLsb' 0 3).toNat = op.toNat)

/-- Decoding inverts encoding, for every well-formed instruction: no bit of an encoding is dropped (30_encoding R91, R98
to R100). -/
def Obligations.DecodeInvertsEncode : Prop :=
  ∀ i : Instr, i.wf = true → decode (encode i) = .ok i

/-- Encoding inverts decoding: an instruction has one encoding only (30_encoding R99: "every integer >= 2 has exactly one
code"), and what the decoder yields is well-formed. -/
def Obligations.EncodeInvertsDecode : Prop :=
  ∀ (c : Code) (i : Instr), decode c = .ok i → encode i = c ∧ i.wf = true

/-- 40_bitchannel R128 (a): reading VLC(v) gives v back and consumes exactly its bits, whatever follows. -/
def Obligations.VlcRoundTrip : Prop :=
  ∀ (v fuel : Nat) (hv : 2 ≤ v) (rest : List Bool) (bytes : List Byte), (vlcBits v hv).length ≤ fuel →
    readVlc listBit fuel 1 (vlcBits v hv ++ rest, bytes) = .ok (v, (rest, bytes))

/-- 30_encoding R99: VLC(v) has `2 * floor(log2 v)` bits, a digit of v and its continuation flag by turns, and the code
is prefix-free. -/
def Obligations.VlcDigitsAndPrefixFree : Prop :=
  (∀ (v : Nat) (hv : 2 ≤ v), (vlcBits v hv).length = 2 * Nat.log2 v ∧
    ∀ j, j < Nat.log2 v →
      (vlcBits v hv)[2 * j]? = some (v.testBit (Nat.log2 v - 1 - j)) ∧
      (vlcBits v hv)[2 * j + 1]? = some (decide (j + 1 < Nat.log2 v))) ∧
  (∀ (v w : Nat) (hv : 2 ≤ v) (hw : 2 ≤ w), vlcBits v hv <+: vlcBits w hw → v = w)

/-! ### The bit channel and the stream -/

/-- 20_memory R62, R63: a 2- or 4-byte access is its byte accesses in ascending order, in either byte order, and reading
back what was written gives the value; the bytes by arithmetic. -/
def Obligations.WideAccessesAreByteAccesses : Prop :=
  (∀ (m : Mem) (a : Nat) (v : Word),
    memRead4 true (memWrite4 true m a v) a = v ∧ memRead4 false (memWrite4 false m a v) a = v ∧
    (∀ i, i < 4 → (memRead (memWrite4 true m a v) (a + i)).toNat = v.toNat / 256 ^ i % 256) ∧
    (∀ i, i < 4 → (memRead (memWrite4 false m a v) (a + i)).toNat = v.toNat / 256 ^ (3 - i) % 256) ∧
    (∀ le b, b < a ∨ a + 4 ≤ b → memRead (memWrite4 le m a v) b = memRead m b)) ∧
  (∀ (le : Bool) (a : Nat) (h : Half) (o o' : Out), putHalfAt le a h o = .ok o' →
    (memRead o'.obuf a).toNat = (if le then h.toNat % 256 else h.toNat / 256) ∧
    (memRead o'.obuf (a + 1)).toNat = (if le then h.toNat / 256 else h.toNat % 256) ∧
    halfOf le (memRead o'.obuf a) (memRead o'.obuf (a + 1)) = h ∧
    (∀ b, b ≠ a → b ≠ a + 1 → memRead o'.obuf b = memRead o.obuf b))

/-- 30_encoding R96, 40_bitchannel R121, R123: sixteen bits fill a word first bit most significant and write nothing; the
word is written at its reserved place when the seventeenth arrives; a partial word is finalised into the high end. -/
def Obligations.FlagWordsHoldTheirBits : Prop :=
  (∀ (le b : Bool) (bits : List Bool) (o o₁ o₂ : Out), bits.length = 16 → o.bw.wcnt = 16 →
    putBits le bits o = .ok o₁ → putBit le b o₁ = .ok o₂ →
    o₁.obuf = o.obuf ∧ o₁.bw.wcnt = 0 ∧ o₁.bw.wp = o.bw.wp ∧ o₁.bw.rsv = o.bw.rsv ∧
    o₂.bw.wcnt = 15 ∧ o₂.bw.rsv = o.bw.wp ∧ o₂.bw.wp = o.bw.wp + 2 ∧
    ∀ i, i < 16 →
      bits[i]? = some (flagBitAt le (memRead o₂.obuf) o.bw.rsv i)) ∧
  (∀ (le : Bool) (bits : List Bool) (o o₁ o₂ : Out), bits.length ≤ 16 → o.bw.wcnt = 16 →
    putBits le bits o = .ok o₁ → finalize le o₁ = .ok o₂ →
    ∀ i, i < 16 →
      flagBitAt le (memRead o₂.obuf) o.bw.rsv i = bits.getD i false)

/-- 40_bitchannel R125, 43_decompress R172, 20_memory R62, R64: the read side, by the bytes of `IBUF`. `GETBIT` shifts out
bit 15 of `RACC` where a bit is left, and loads the two bytes at `RP` only where none is; sixteen bits from an empty `RACC`
are the sixteen flag bits of those two bytes in order; `READ_BYTE` is the byte at `RP`; past `ILEN` both underrun. -/
def Obligations.ReaderTakesFlagBitsFromTheBytes : Prop :=
  ∀ (le : Bool) (s : State) (r : BitReader),
    (r.rcnt ≠ 0 →
      getBit (s.stream le) r = .ok (r.racc.getLsbD 15, { racc := r.racc <<< 1, rcnt := r.rcnt - 1, rp := r.rp })) ∧
    (r.rcnt = 0 → s.inLen ≤ r.rp + 1 → getBit (s.stream le) r = .error .srcUnderrun) ∧
    (r.rcnt = 0 → r.rp + 1 < s.inLen →
      (∃ r₁, getBit (s.stream le) r = .ok (flagBitAt le (memRead s.ibuf) r.rp 0, r₁) ∧
        r₁.rcnt = 15 ∧ r₁.rp = r.rp + 2) ∧
      ∃ r₁, takeFlags (s.stream le) 16 r = .ok ((List.range 16).map (flagBitAt le (memRead s.ibuf) r.rp), r₁) ∧
        r₁.rcnt = 0 ∧ r₁.rp = r.rp + 2) ∧
    (r.rp < s.inLen → readByte (s.stream le) r = .ok (memRead s.ibuf r.rp, { r with rp := r.rp + 1 })) ∧
    (s.inLen ≤ r.rp → readByte (s.stream le) r = .error .srcUnderrun)

/-- 42_compress R162 and 20_memory R65: a token list fits the compressor's buffer exactly when its CLEN does, and CLEN is
5 + 2 * max(1, ceil(B/16)) + Y. (For a copy that is no token of R98 it holds whatever the free values of log 30 are.) -/
def Obligations.StreamLengthDecidesOverflow : Prop :=
  ∀ (le : Bool) (n : Nat) (first : Byte) (tokens : List Token) (obuf : Mem),
    ((∃ o, assembleInto le n first tokens obuf = .ok o) ↔ streamLen tokens ≤ 0x8000) ∧
    (∀ o, assembleInto le n first tokens obuf = .ok o → o.bw.wp = streamLen tokens)

/-- 30_encoding R101, 40_bitchannel R130: the assembled stream of a well-formed token list reads back as that list, and
after each token the reader's `RP` is the writer's `WP` after the same token. -/
def Obligations.AssembledStreamReadsBack : Prop :=
  ∀ (le : Bool) (n : Nat) (first : Byte) (tokens : List Token) (bytes : List Byte) (k : Nat),
    (∀ t ∈ tokens, t.toInstr.wf = true) → assemble le n first tokens = some bytes → k ≤ tokens.length →
    ∃ r, readTokens (streamOf le bytes) k readerAtBody = .ok (tokens.take k, r) ∧
      (0 < k → r.rp = streamLen (tokens.take k))

/-! ### The tokens -/

/-- 43_decompress R174: `LIT b` writes the byte at `DP` and advances it by 1; nothing else changes. -/
def Obligations.LiteralCompletes : Prop :=
  ∀ (b : Byte) (s : State), s.dp < outCap →
    ∃ t, exec (.lit b) s = .next t ∧ t = { s with obuf := t.obuf, dp := s.dp + 1 } ∧
      ∀ a, memRead t.obuf a = if a = s.dp then b else memRead s.obuf a

/-- 43_decompress R175, 20_memory R73: a match inside its bounds produces the last D bytes repeated cyclically for `mlen`
bytes, also where `D < mlen`; nothing else changes. -/
def Obligations.MatchRepeatsCyclically : Prop :=
  ∀ (mlen dist : Nat) (s : State), 1 ≤ dist → dist ≤ s.dp → mlen ≤ s.rawLen - s.dp → s.rawLen ≤ sizeMax →
    s.dp ≤ s.rawLen →
    ∃ t, exec (.matchTok mlen dist) s = .next t ∧ t = { s with obuf := t.obuf, dp := s.dp + mlen } ∧
      (∀ i, i < mlen → memRead t.obuf (s.dp + i) = memRead s.obuf (s.dp - dist + i % dist)) ∧
      (∀ a, a < s.dp ∨ s.dp + mlen ≤ a → memRead t.obuf a = memRead s.obuf a)

/-- 43_decompress R175, 60_exceptions R239: `BAD_DISTANCE` is tested before `OUT_OVERRUN`. (Nothing is said of `OBUF` after
the fault, R241. That every working register and `HT` stay is the model's choice, log 11, 31; `pos` is its own, log 1.) -/
def Obligations.MatchFaultsInOrder : Prop :=
  ∀ (mlen dist : Nat) (s : State),
    (s.dp < dist → FaultsWith 0x33 s (exec (.matchTok mlen dist) s)) ∧
    (dist ≤ s.dp → s.rawLen - s.dp < mlen → FaultsWith 0x23 s (exec (.matchTok mlen dist) s))

/-! ### COMPRESS -/

/-- 42_compress R150: `NORMALISE`, with its two faults. -/
def Obligations.NormaliseRule : Prop :=
  ∀ s : State, s.inLen ≤ inCap →
    (s.inLen = 0 → normalise s = .error .emptyInput) ∧
    (s.inLen = inCap → memRead s.ibuf (s.inLen - 1) ≠ 0 → normalise s = .error .inputTooLong) ∧
    (0 < s.inLen → (s.inLen = inCap → memRead s.ibuf (s.inLen - 1) = 0) →
      ∃ t, normalise s = .ok t ∧ t = { s with ibuf := t.ibuf, rawlen := t.rawlen } ∧
        t.rawLen = (if memRead s.ibuf (s.inLen - 1) ≠ 0 then s.inLen + 1 else s.inLen) ∧
        1 ≤ t.rawLen ∧ t.rawLen ≤ sizeMax ∧ memRead t.ibuf (t.rawLen - 1) = 0 ∧
        (∀ a, (a ≠ s.inLen ∨ memRead s.ibuf (s.inLen - 1) = 0) → memRead t.ibuf a = memRead s.ibuf a))

/-- 42_compress R153: `MATCHLEN` is the number of equal bytes from the two positions up to the first difference or the end
of the buffer; the rule's example. -/
def Obligations.MatchLengthIsMaximal : Prop :=
  (∀ (ibuf : Mem) (n c s : Nat), c < s → s < n →
    matchLen ibuf n c s ≤ n - s ∧
    (∀ i, i < matchLen ibuf n c s → memRead ibuf (c + i) = memRead ibuf (s + i)) ∧
    (s + matchLen ibuf n c s < n →
      memRead ibuf (c + matchLen ibuf n c s) ≠ memRead ibuf (s + matchLen ibuf n c s))) ∧
  (∀ ibuf : Mem, (∀ a, a < 1000 → memRead ibuf a = 0x41) → memRead ibuf 1000 = 0 → matchLen ibuf 1001 0 1 = 999)

/-- 41_dictionary R142 to R145: after `HT_CLEAR` and `INDEX_UPTO(s)`, however it was split over calls, a lookup finds the
greatest earlier position with the same hash value, or nothing where there is none. -/
def Obligations.LookupFindsMostRecent : Prop :=
  ∀ (hash : Hash) (ibuf : Mem) (s s' p : Nat) (c : Comp), c.hp = 0 → c.ht = htClear → s ≤ s' →
    indexUpto hash ibuf s' (indexUpto hash ibuf s c) = indexUpto hash ibuf s' c ∧
    (∀ q, htLookup hash ibuf p (indexUpto hash ibuf s c).ht = some q ↔
      q < s ∧ hashAt hash ibuf q = hashAt hash ibuf p ∧
      ∀ r, q < r → r < s → hashAt hash ibuf r ≠ hashAt hash ibuf p)

/-- 42_compress R162, R160, R161, 30_encoding R95: every input with `N <= 29122` compresses without a fault, for the
machine's own window hash; `RAWLEN` is N, the header holds N and the first byte, `OPAD` is `OLEN` rounded up to 8 and at most
0x8000, and the filler is zero. -/
def Obligations.CompressCompletes : Prop :=
  ∀ (le : Bool) (s : State), 0 < s.inLen → normalisedLen s ≤ 29122 →
    ∃ t, exec (.compress le) s = .next t ∧ t.phase = .done ∧ t.fault = s.fault ∧
      t.rawLen = normalisedLen s ∧ (memRead4 le t.obuf 0).toNat = normalisedLen s ∧
      memRead t.obuf 4 = memRead s.ibuf 0 ∧
      7 ≤ t.olen.toNat ∧ t.olen.toNat ≤ t.opad.toNat ∧ t.opad.toNat < t.olen.toNat + 8 ∧ t.opad.toNat % 8 = 0 ∧
      t.opad.toNat ≤ 0x8000 ∧ (∀ a, t.olen.toNat ≤ a → a < t.opad.toNat → memRead t.obuf a = 0)

/-- 30_encoding R106, 42_compress R152, R154, R164 (c), 20_memory R65: for every window hash, `COMPRESS` is `ASSEMBLE` of the
token list its matcher chooses, which stands for the normalised input; it completes exactly when CLEN <= 0x8000, and ends in
`OUT_OVERFLOW` otherwise. -/
def Obligations.CompressAssemblesChosenTokens : Prop :=
  ∀ (hash : Hash) (le : Bool) (s s' : State) (tokens : List Token), s.inLen ≤ inCap → normalise s = .ok s' →
    chosenTokens hash s'.ibuf s'.rawLen s'.rawLen 1 = tokens →
    tokensOk 1 tokens = true ∧
    expand (memRead s.ibuf 0) tokens = (List.range s'.rawLen).map (normalisedByte s) ∧
    (streamLen tokens ≤ 0x8000 →
      (compressWith hash le s).phase = .done ∧ (compressWith hash le s).olen.toNat = streamLen tokens ∧
      assemble le s'.rawLen (memRead s.ibuf 0) tokens =
        some (memBytes (compressWith hash le s).obuf 0 (compressWith hash le s).opad.toNat)) ∧
    (0x8000 < streamLen tokens →
      (compressWith hash le s).phase = .flt ∧ (compressWith hash le s).fault = 0x14 ∧
      (compressWith hash le s).rawlen = s'.rawlen)

/-- 42_compress R164 (a): if `COMPRESS` completes, `DECOMPRESS` of `OBUF[0:OPAD]`, or of `OBUF[0:OLEN]`, with `RAWLEN` = N and
the same byte order completes and produces the normalised input, for every window hash. -/
def Obligations.CompressThenDecompressRestoresInput : Prop :=
  ∀ (hash : Hash) (le : Bool) (s t u : State), compressWith hash le s = t → t.phase = .done →
    (u.inLen = t.opad.toNat ∨ u.inLen = t.olen.toNat) → u.rawlen = t.rawlen →
    (∀ a, a < u.inLen → memRead u.ibuf a = memRead t.obuf a) →
    ∃ v, exec (.decompress le) u = .next v ∧ v.phase = .done ∧ v.olen.toNat = normalisedLen s ∧
      v.opad = v.olen ∧ ∀ a, a < normalisedLen s → memRead v.obuf a = normalisedByte s a

/-- The frame of `COMPRESS` (42_compress R160, R161, R150): only its results and working registers change, of `IBUF` only
the byte at `ILEN` and, when it completes, of `OBUF` nothing at or above `OPAD`, which is at most 0x8000; a fault leaves
`OLEN` and `OPAD`, success leaves `FAULT`. Nothing is said of `OBUF` after a fault (60_exceptions R241). (The bytes from
`OPAD` on are as the model holds them, log 12: a host's read of one is free. That the other working registers stay is log
11; `pos` is log 1.) -/
def Obligations.CompressFrame : Prop :=
  ∀ (le : Bool) (s t : State), exec (.compress le) s = .next t →
    t = { s with
          phase := t.phase, pos := .start, fault := t.fault, rawlen := t.rawlen, olen := t.olen, opad := t.opad,
          bw := t.bw, sp := t.sp, hp := t.hp, ht := t.ht, ibuf := t.ibuf, obuf := t.obuf } ∧
    (∀ a, a ≠ s.inLen → memRead t.ibuf a = memRead s.ibuf a) ∧
    (t.phase = .done →
      t.fault = s.fault ∧ t.opad.toNat ≤ 0x8000 ∧ ∀ a, t.opad.toNat ≤ a → memRead t.obuf a = memRead s.obuf a) ∧
    (t.phase = .flt → t.olen = s.olen ∧ t.opad = s.opad ∧ t.fault ∈ [0x35, 0x24, 0x34, 0x14]) ∧
    (t.phase = .done ∨ t.phase = .flt)

/-- 42_compress R150, 60_exceptions R239, R44 of 10_state: the faults of `COMPRESS` before it writes anything, in order.
(Nothing is said of `OBUF`, R241. That every working register and `HT` stay is the model's choice, log 11, 31; `pos` is its
own, log 1.) -/
def Obligations.CompressInputFaults : Prop :=
  ∀ (le : Bool) (s : State),
    (inCap < s.inLen → FaultsWith 0x35 s (exec (.compress le) s)) ∧
    (s.inLen = 0 → FaultsWith 0x24 s (exec (.compress le) s)) ∧
    (s.inLen = inCap → memRead s.ibuf (s.inLen - 1) ≠ 0 → FaultsWith 0x34 s (exec (.compress le) s))

/-! ### DECOMPRESS -/

/-- 43_decompress R171 to R177: `DECOMPRESS` of any assembled stream, the compressor's or another's, completes and
produces the bytes its token list stands for; `OLEN` = `OPAD` = N and `RP` ends at CLEN (40_bitchannel R130). -/
def Obligations.DecompressRunsAssembledStream : Prop :=
  ∀ (le : Bool) (n : Nat) (first : Byte) (tokens : List Token) (bytes : List Byte) (s : State),
    tokensOk 1 tokens = true → 1 + (tokens.map Token.size).sum = s.rawLen → s.rawLen ≤ sizeMax →
    assemble le n first tokens = some bytes → bytes.length ≤ s.inLen → s.inLen ≤ inCap →
    (∀ a, a < bytes.length → memRead s.ibuf a = bytes.getD a 0) →
    ∃ t, exec (.decompress le) s = .next t ∧ t.phase = .done ∧ t.olen.toNat = s.rawLen ∧ t.opad = t.olen ∧
      memBytes t.obuf 0 s.rawLen = expand first tokens ∧
      t.br.rp = (if tokens = [] then 5 else streamLen tokens)

/-- 43_decompress R173 to R177, 60_exceptions R234: `DECOMPRESS` completes exactly when the input reads as a list of legal
tokens that stand for N bytes, whoever wrote it and whatever follows; the output is then those bytes. (The reader and `DP`
after the command, and that the other working registers and `HT` stay, are the model's choice, log 11, 31; `pos` is its own,
log 1.) -/
def Obligations.DecompressCompletesExactlyOnLegalStreams : Prop :=
  ∀ (le : Bool) (s : State), s.inLen ≤ inCap →
    ∃ t, exec (.decompress le) s = .next t ∧
      (t.phase = .done ↔
        s.rawLen ≤ sizeMax ∧ 4 < s.inLen ∧
        ∃ tokens r, readTokens (s.stream le) tokens.length readerAtBody = .ok (tokens, r) ∧
          tokensOk 1 tokens = true ∧ 1 + (tokens.map Token.size).sum = s.rawLen) ∧
      (∀ tokens r, s.rawLen ≤ sizeMax → 4 < s.inLen →
        readTokens (s.stream le) tokens.length readerAtBody = .ok (tokens, r) → tokensOk 1 tokens = true →
        1 + (tokens.map Token.size).sum = s.rawLen →
        t = { s with
              phase := .done, pos := .start, olen := BitVec.ofNat 18 s.rawLen, opad := BitVec.ofNat 18 s.rawLen,
              br := r, dp := s.rawLen, obuf := t.obuf } ∧
        memBytes t.obuf 0 s.rawLen = expand (memRead s.ibuf 4) tokens)

/-- The frame of `DECOMPRESS` (43_decompress R176): `RAWLEN`, `IBUF` and every other register but its results and working
registers stay; when it completes, of `OBUF` nothing at or above N changes; a fault is one of the six it can raise. Nothing is
said of `OBUF` after a fault (60_exceptions R241). (The bytes from N on are as the model holds them, log 12. `DP` after the
command, and that the other working registers and `HT` stay, are the model's choice, log 11, 31; `pos` is its own, log 1.) -/
def Obligations.DecompressFrame : Prop :=
  ∀ (le : Bool) (s t : State), exec (.decompress le) s = .next t →
    t = { s with
          phase := t.phase, pos := .start, fault := t.fault, olen := t.olen, opad := t.opad, br := t.br, dp := t.dp,
          obuf := t.obuf } ∧
    (t.phase = .done →
      t.fault = s.fault ∧ t.olen.toNat = s.rawLen ∧ t.opad = t.olen ∧ t.dp = s.rawLen ∧
      ∀ a, s.rawLen ≤ a → memRead t.obuf a = memRead s.obuf a) ∧
    (t.phase = .flt →
      t.olen = s.olen ∧ t.opad = s.opad ∧ t.fault ∈ [0x35, 0x45, 0x43, 0x13, 0x33, 0x23]) ∧
    (t.phase = .done ∨ t.phase = .flt)

/-- 43_decompress R171: the tests of N, in order, and the missing first literal. (Nothing is said of `OBUF` after the fault,
60_exceptions R241. That `RACC`, `RCNT`, `RP` and `DP` hold what `BR_INIT` and `DP <- 0` put there once the first literal is
missing, and that the other working registers and `HT` stay, is the model's choice, log 11, 31: 10_state R26 leaves them
unspecified. `pos` is its own, log 1.) -/
def Obligations.DecompressStartFaults : Prop :=
  ∀ (le : Bool) (s : State), s.inLen ≤ inCap →
    (sizeMax < s.rawLen → FaultsWith 0x45 s (exec (.decompress le) s)) ∧
    (s.rawLen = 0 → FaultsWith 0x43 s (exec (.decompress le) s)) ∧
    (0 < s.rawLen → s.rawLen ≤ sizeMax → s.inLen ≤ 4 →
      FaultsWith 0x13 { s with br := { racc := 0, rcnt := 0, rp := 4 }, dp := 0 } (exec (.decompress le) s))

/-- 43_decompress R172, 40_bitchannel R125: with fewer bytes than a stream needs, `DECOMPRESS` faults with `SRC_UNDERRUN`:
an assembled stream of at least one token cut before its CLEN. -/
def Obligations.TruncatedStreamUnderruns : Prop :=
  ∀ (le : Bool) (n : Nat) (first : Byte) (tokens : List Token) (bytes : List Byte) (s : State),
    tokensOk 1 tokens = true → tokens ≠ [] → 1 + (tokens.map Token.size).sum = s.rawLen → s.rawLen ≤ sizeMax →
    assemble le n first tokens = some bytes → s.inLen < streamLen tokens →
    (∀ a, a < s.inLen → memRead s.ibuf a = bytes.getD a 0) →
    ∃ t, exec (.decompress le) s = .next t ∧ t.phase = .flt ∧ t.fault = 0x13 ∧ t.olen = s.olen ∧ t.opad = s.opad

/-! ### VERIFY and RESOLVE -/

/-- 44_verify R191: the first candidate k from 0 to 7 with room for a digest that matches is reported in `VK` with `VOK`;
where none matches, `NO_MATCH`. Nothing else changes, but that nothing is said of `OBUF` after the fault (60_exceptions R241).
(That every working register and `HT` stay after the command is the model's choice, log 11 and 31: 10_state R26 leaves them
unspecified. `pos` is its own, log 1.) -/
def Obligations.VerifyRule : Prop :=
  ∀ (le : Bool) (s : State), s.inLen ≤ inCap →
    (∀ k, k ≤ 7 → 16 + k ≤ s.inLen →
      (Config.digest (memBytes s.ibuf 16 (s.inLen - k - 16))).toList = memBytes s.ibuf 0 16 →
      (∀ j, j < k → (Config.digest (memBytes s.ibuf 16 (s.inLen - j - 16))).toList ≠ memBytes s.ibuf 0 16) →
      exec (.verify le) s =
        .next { s with phase := .done, pos := .start, vok := true, vk := BitVec.ofNat 3 k }) ∧
    ((∀ k, k ≤ 7 → 16 + k ≤ s.inLen →
        (Config.digest (memBytes s.ibuf 16 (s.inLen - k - 16))).toList ≠ memBytes s.ibuf 0 16) →
      FaultsWith 0x12 s (exec (.verify le) s))

/-- 44_verify R192: a buffer `d ++ p ++ z` with `d = DIGEST(p)` and at most 7 bytes in `z` is accepted, whatever `z` holds.
(That every working register and `HT` stay is the model's choice, log 11, 31; `pos` is its own, log 1.) -/
def Obligations.VerifyAcceptsPaddedPayload : Prop :=
  ∀ (le : Bool) (payload z : List Byte) (s : State), z.length ≤ 7 → s.inLen ≤ inCap →
    memBytes s.ibuf 0 s.inLen = (Config.digest payload).toList ++ payload ++ z →
    ∃ t, exec (.verify le) s = .next t ∧ t.phase = .done ∧ t.vok = true ∧ t.vk.toNat ≤ z.length ∧
      t = { s with phase := .done, pos := .start, vok := true, vk := t.vk }

/-- 44_verify R196: the assumed order where its value is at most 0x20000, else the other where that one is, else
`SIZE_BOTH_ORDERS`; `SHORT_BUFFER` where `ILEN` < 4. Nothing else changes, but that nothing is said of `OBUF` after a fault
(60_exceptions R241). (That every working register and `HT` stay after the command is the model's choice, log 11 and 31:
10_state R26 leaves them unspecified. `pos` is its own, log 1.) -/
def Obligations.ResolveRule : Prop :=
  ∀ (le : Bool) (s : State), s.inLen ≤ inCap →
    (s.inLen < 4 → FaultsWith 0x41 s (exec (.resolve le) s)) ∧
    (4 ≤ s.inLen → sizeValue le s ≤ 0x20000 →
      exec (.resolve le) s =
        .next { s with phase := .done, pos := .start, rawlen := BitVec.ofNat 32 (sizeValue le s), rle := le,
                       flip := false }) ∧
    (4 ≤ s.inLen → 0x20000 < sizeValue le s → sizeValue (!le) s ≤ 0x20000 →
      exec (.resolve le) s =
        .next { s with phase := .done, pos := .start, rawlen := BitVec.ofNat 32 (sizeValue (!le) s), rle := !le,
                       flip := true }) ∧
    (4 ≤ s.inLen → 0x20000 < sizeValue le s → 0x20000 < sizeValue (!le) s →
      FaultsWith 0x11 s (exec (.resolve le) s))

/-- 44_verify R197: a size field written in the order opposite to the assumed one is resolved, flipped, for every legal
value but six; for those six the assumed reading is taken. -/
def Obligations.WrongAssumptionIsFlippedButForSixValues : Prop :=
  ∀ (le : Bool) (s : State) (v : Nat), 4 ≤ s.inLen → s.inLen ≤ inCap → v ≤ 0x20000 → sizeValue (!le) s = v →
    ∃ t, exec (.resolve le) s = .next t ∧ t.phase = .done ∧
      (v ∉ ambiguousSizes → t.rawLen = v ∧ t.rle = !le ∧ t.flip = true) ∧
      (v ∈ ambiguousSizes → t.rawLen = sizeValue le s ∧ t.rle = le ∧ t.flip = false)

/-! ### Command issue, faults, reset, and the host -/

/-- 30_encoding R92: a `CMD` write while `RUN` changes nothing; otherwise it is accepted, and the block then tests the
reserved bits, the operation and `ILEN` in this order before it runs the command, which ends in `DONE` or `FLT`. (Nothing is
said of `OBUF` after the fault, 60_exceptions R241. That every working register and `HT` stay after it is log 11 and 31, where
30_encoding R94 does not say it; `pos` and `turns`, and that the write and the run are two moves, are the model's, log 1 to
3.) -/
def Obligations.CommandDecodeOrder : Prop :=
  ∀ (w : Word) (s : State) (rest : List Turn), s.turns = .host (.writeReg 0 w) :: rest →
    (s.phase = .run → step s = .next { s with turns := rest }) ∧
    (s.phase ≠ .run →
      ∃ t u, step s = .next t ∧
        t = { s with
              turns := rest, cmd := w, fault := 0, olen := 0, opad := 0, vk := 0, vok := false, rle := false,
              flip := false, phase := .run, pos := .start } ∧
        blockMove t = .next u ∧ (u.phase = .done ∨ u.phase = .flt) ∧
        (w.extractLsb' 4 28 ≠ 0#28 → FaultsWith 0x25 t (blockMove t)) ∧
        (w.extractLsb' 4 28 = 0#28 → (w.extractLsb' 0 3).toNat ∈ [0, 5, 6, 7] →
          FaultsWith 0x15 t (blockMove t)) ∧
        (w.extractLsb' 4 28 = 0#28 → (w.extractLsb' 0 3).toNat ∈ [1, 2, 3, 4] → inCap < s.inLen →
          FaultsWith 0x35 t (blockMove t)) ∧
        (w.extractLsb' 4 28 = 0#28 → (w.extractLsb' 0 3).toNat = 1 → exec (.compress (w.getLsbD 3)) t = .next u) ∧
        (w.extractLsb' 4 28 = 0#28 → (w.extractLsb' 0 3).toNat = 2 → exec (.decompress (w.getLsbD 3)) t = .next u) ∧
        (w.extractLsb' 4 28 = 0#28 → (w.extractLsb' 0 3).toNat = 3 → exec (.verify (w.getLsbD 3)) t = .next u) ∧
        (w.extractLsb' 4 28 = 0#28 → (w.extractLsb' 0 3).toNat = 4 → exec (.resolve (w.getLsbD 3)) t = .next u))

/-- 30_encoding R94: a reserved command word raises its `CommandFault` and has no other effect (`OBUF` and `RAWLEN` untouched,
the rule says); `VERIFY` with `LE` = 1 is `VERIFY` with `LE` = 0. (`pos` is the model's own, log 1.) -/
def Obligations.ReservedWordsOnlyFault : Prop :=
  (∀ (w : Word) (s : State), (Instr.reservedOp w).wf = true →
    decodeCommand w = .reservedOp w ∧
    exec (.reservedOp w) s =
      .next { s with phase := .flt, pos := .start, fault := if w.extractLsb' 4 28 ≠ 0#28 then 0x25 else 0x15 }) ∧
  (∀ s : State, exec (.verify true) s = exec (.verify false) s ∧ decodeCommand 0xB = .verify true)

/-- 60_exceptions R231 to R236: the sixteen causes and the values of `FAULT` they give, as `CAUSE << 4 | KIND`. -/
def Obligations.FaultCodes : Prop :=
  [Cause.sizeBothOrders, .badMarker, .lenNotMult8, .shortBuffer, .noMatch, .srcUnderrun, .outOverrun, .badDistance,
    .zeroLength, .outOverflow, .emptyInput, .inputTooLong, .illegalOp, .reservedBits, .ilenRange, .rawlenRange].map
      faultCode =
  [0x11, 0x21, 0x31, 0x41, 0x12, 0x13, 0x23, 0x33, 0x43, 0x14, 0x24, 0x34, 0x15, 0x25, 0x35, 0x45]

/-- 60_exceptions R240, R241: a command that ends in a fault has produced no result: `OLEN`, `OPAD`, `VK` and the flags are 0,
whatever they were before it, `ILEN` and `IBUF[0:ILEN]` are unchanged, and so is `RAWLEN` but in `COMPRESS`. Of `OBUF` nothing
is said. -/
def Obligations.FaultedCommandHasNoResult : Prop :=
  ∀ (w : Word) (s t : State), blockMove (acceptCommand w s) = .next t → t.phase = .flt →
    t.fault ≠ 0 ∧ t.olen = 0 ∧ t.opad = 0 ∧ t.vk = 0 ∧ t.vok = false ∧ t.rle = false ∧ t.flip = false ∧
    t.ilen = s.ilen ∧ (∀ a, a < s.inLen → memRead t.ibuf a = memRead s.ibuf a) ∧
    (decodeCommand w ≠ .compress false → decodeCommand w ≠ .compress true → t.rawlen = s.rawlen)

/-- 10_state R41: the bits of `STATUS`. -/
def Obligations.StatusFields : Prop :=
  ∀ s : State,
    ((statusWord s).getLsbD 0 = true ↔ s.phase = .run) ∧
    ((statusWord s).getLsbD 1 = true ↔ s.phase = .done ∨ s.phase = .flt) ∧
    ((statusWord s).getLsbD 2 = true ↔ s.phase = .flt) ∧
    (statusWord s).getLsbD 3 = s.vok ∧ (statusWord s).getLsbD 4 = s.rle ∧ (statusWord s).getLsbD 5 = s.flip ∧
    ∀ i, 6 ≤ i → (statusWord s).getLsbD i = false

/-- 70_reset R260: reset in any phase clears the host registers, leaves `PHASE` = `IDLE`, and the bytes of both buffers are
free values; the state after reset itself has the host registers 0 and `PHASE` = `IDLE` (10_state R56). -/
def Obligations.ResetEffect : Prop :=
  (∀ (s : State) (rest : List Turn), s.turns = .host .reset :: rest →
    ∃ t, step s = .next t ∧ t.phase = .idle ∧ t.cmd = 0 ∧ t.fault = 0 ∧ t.ilen = 0 ∧ t.rawlen = 0 ∧ t.olen = 0 ∧
      t.opad = 0 ∧ t.vk = 0 ∧ statusWord t = 0 ∧ t.turns = rest ∧
      (∀ a, a < inCap → memRead t.ibuf a = Config.resetIbufByte s.draws a) ∧
      (∀ a, a < outCap → memRead t.obuf a = Config.resetObufByte s.draws a)) ∧
  (∀ r : Reg, regValue State.reset r = 0) ∧ State.reset.phase = .idle

/-- 70_reset R270, 30_encoding R92: while `RUN`, a `CMD` write is ignored, `STATUS` and `FAULT` may be read, reset may be
applied, and every other access is refused. -/
def Obligations.BusyBlockRefusesAccess : Prop :=
  ∀ (op : HostOp) (s : State), s.phase = .run →
    (hostMove op s = .refused .hostAccessWhileBusy ↔
      (∃ a, op = .readIbuf a) ∨ (∃ a b, op = .writeIbuf a b) ∨ (∃ a, op = .readObuf a) ∨
      (∃ a b, op = .writeObuf a b) ∨ (∃ o, op = .readReg o ∧ o ∈ [0, 0xC, 0x10, 0x14, 0x18, 0x1C]) ∨
      (∃ o v, op = .writeReg o v ∧ o ∈ [4, 8, 0xC, 0x10, 0x14, 0x18, 0x1C])) ∧
    (∀ w, hostMove (.writeReg 0 w) s = .next s) ∧
    hostMove (.readReg 4) s = .next { s with rdata := statusWord s } ∧
    hostMove (.readReg 8) s = .next { s with rdata := s.fault }

/-- 10_state R40, R46, 70_reset R263: outside `RUN` each register reads at its offset without a side effect; a write stores
`ILEN` and `RAWLEN` and is ignored by a read-only register. -/
def Obligations.IdleRegisterAccess : Prop :=
  ∀ s : State, s.phase ≠ .run →
    hostMove (.readReg 0) s = .next { s with rdata := s.cmd } ∧
    hostMove (.readReg 4) s = .next { s with rdata := statusWord s } ∧
    hostMove (.readReg 8) s = .next { s with rdata := s.fault } ∧
    hostMove (.readReg 0xC) s = .next { s with rdata := s.ilen } ∧
    hostMove (.readReg 0x10) s = .next { s with rdata := s.rawlen } ∧
    hostMove (.readReg 0x14) s = .next { s with rdata := BitVec.ofNat 32 s.olen.toNat } ∧
    hostMove (.readReg 0x18) s = .next { s with rdata := BitVec.ofNat 32 s.opad.toNat } ∧
    hostMove (.readReg 0x1C) s = .next { s with rdata := BitVec.ofNat 32 s.vk.toNat } ∧
    (∀ v, hostMove (.writeReg 0xC v) s = .next { s with ilen := v }) ∧
    (∀ v, hostMove (.writeReg 0x10 v) s = .next { s with rawlen := v }) ∧
    (∀ o v, o ∈ [4, 8, 0x14, 0x18, 0x1C] → hostMove (.writeReg o v) s = .next s) ∧
    (∀ o, o ∉ [0, 4, 8, 0xC, 0x10, 0x14, 0x18, 0x1C] → hostMove (.readReg o) s = .fault .noSuchRegister)

/-- 70_reset R263, 10_state R51, R52: outside `RUN` the buffers are read and written a byte at a time; a byte of `OBUF` at or
beyond `OPAD`, or read when the last command did not end in `DONE`, is a free value. (What a host's write leaves in `OBUF`
after a fault is as the model holds it, log 12: reading it back is free.) -/
def Obligations.IdleBufferAccess : Prop :=
  ∀ (a : Nat) (b : Byte) (s : State), s.phase ≠ .run →
    (a < inCap →
      hostMove (.readIbuf a) s = .next { s with rdata := (memRead s.ibuf a).zeroExtend 32 } ∧
      ∃ t, hostMove (.writeIbuf a b) s = .next t ∧ t = { s with ibuf := t.ibuf } ∧
        ∀ c, memRead t.ibuf c = if c = a then b else memRead s.ibuf c) ∧
    (a < outCap →
      (s.phase = .done → a < s.opad.toNat →
        hostMove (.readObuf a) s = .next { s with rdata := (memRead s.obuf a).zeroExtend 32 }) ∧
      ((s.phase ≠ .done ∨ s.opad.toNat ≤ a) →
        hostMove (.readObuf a) s =
          .next { s with rdata := (Config.drawnByte s.draws).zeroExtend 32, draws := s.draws + 1 }) ∧
      ∃ t, hostMove (.writeObuf a b) s = .next t ∧ t = { s with obuf := t.obuf } ∧
        ∀ c, memRead t.obuf c = if c = a then b else memRead s.obuf c)

/-! ### Steps -/

/-- A step runs the decoded command: with `PHASE` = `RUN` at the start of a command, the step is `exec` of what `CMD` decodes
to (30_encoding R92); where a turn is listed it is used up, and an empty list is the block's turn. -/
def Obligations.StepRunsTheCommand : Prop :=
  ∀ (s : State) (i : Instr), s.phase = .run → s.pos = .start → decode (.word s.cmd) = .ok i →
    (s.turns = [] → step s = exec i s) ∧
    (∀ rest, s.turns = .block :: rest → step s = exec i { s with turns := rest })

/-- A step runs the decoded token: with a `DECOMPRESS` taken token by token and `DP` < N, the step fetches the token at `RP`
(10_state R30) and is `exec` of it, ending the command when `DP` reaches N (43_decompress R173); a stream that ends inside
the token raises `SRC_UNDERRUN`. (`turns` and `pos` are the model's own, log 1, 2. That `RACC`, `RCNT` and `RP` then stand as
before the token is the model's choice, log 18, and that the other working registers and `HT` stay is log 11, 31: 10_state
R26 leaves them unspecified. Nothing is said of `OBUF` after the fault, 60_exceptions R241.) -/
def Obligations.StepRunsTheToken : Prop :=
  ∀ (s : State) (rest : List Turn), s.phase = .run → s.pos = .tokens → s.dp < s.rawLen → s.turns = .token :: rest →
    (∀ t r u, fetchFrom (s.stream (s.cmd.getLsbD 3)) s.br = .ok (t, r) →
      exec t.toInstr { s with turns := rest, br := r } = .next u →
      step s = .next (if u.phase = .run ∧ u.rawLen ≤ u.dp then
        { u with phase := .done, pos := .start, olen := BitVec.ofNat 18 u.rawLen, opad := BitVec.ofNat 18 u.rawLen }
        else u)) ∧
    (∀ e, fetchFrom (s.stream (s.cmd.getLsbD 3)) s.br = .error e →
      FaultsWith 0x13 { s with turns := rest } (step s))

/-- 70_reset R282: a `DECOMPRESS` taken token by token ends exactly as the whole command does. From any running state one
token's move leaves the block's move to the end unchanged, and a token's move that ends the command is that move. (It equates
the model's two accounts of one command, of `OBUF` after a fault too, of which it says no byte: log 12.) -/
def Obligations.TokenByTokenEqualsWhole : Prop :=
  ∀ s t : State, s.phase = .run → tokenMove s = .next t →
    (t.phase = .run → blockMove t = blockMove s) ∧ (t.phase ≠ .run → blockMove s = .next t)

/-- 10_state R21, 70_reset R261: the results of a command depend on `IBUF[0:ILEN]`, `ILEN`, `RAWLEN` and the written `CMD` value
only, whatever the working registers, `HT`, `OBUF` and the earlier results were. -/
def Obligations.ResultsDependOnlyOnInputs : Prop :=
  ∀ (w : Word) (s s' : State), s.ilen = s'.ilen → s.rawlen = s'.rawlen →
    (∀ a, a < s.inLen → memRead s.ibuf a = memRead s'.ibuf a) →
    ∃ t t', blockMove (acceptCommand w s) = .next t ∧ blockMove (acceptCommand w s') = .next t' ∧
      results t = results t'

/-- 60_exceptions R243, 70_reset R274: once a command has ended, only an accepted `CMD` write or reset changes `PHASE`,
`FAULT`, the result registers or the flags, and a `CMD` write clears them (but `RAWLEN`) and starts the new command. -/
def Obligations.EndedCommandIsLeftOnlyByCommandOrReset : Prop :=
  ∀ s t : State, s.phase = .done ∨ s.phase = .flt → step s = .next t →
    (t.phase = s.phase ∧ t.fault = s.fault ∧ t.olen = s.olen ∧ t.opad = s.opad ∧ t.vk = s.vk ∧ t.vok = s.vok ∧
      t.rle = s.rle ∧ t.flip = s.flip) ∨
    (∃ rest, s.turns = .host .reset :: rest) ∨
    (∃ w rest, s.turns = .host (.writeReg 0 w) :: rest ∧ t.phase = .run ∧ t.cmd = w ∧ t.fault = 0 ∧ t.olen = 0 ∧
      t.opad = 0 ∧ t.vk = 0 ∧ t.vok = false ∧ t.rle = false ∧ t.flip = false ∧ t.rawlen = s.rawlen)

/-- 10_state R31, R44, R51, 20_memory R76: the block itself never writes `CMD` or `ILEN`, writes `IBUF` only at `ILEN`, only a
zero and only in `COMPRESS`, writes `VOK` and `VK` only in `VERIFY`, `RLE` and `FLIP` only in `RESOLVE`, and `RAWLEN` only in
`RESOLVE` and `COMPRESS`. -/
def Obligations.BlockWritesOnlyItsOwn : Prop :=
  ∀ s t : State, s.phase = .run → blockMove s = .next t ∨ tokenMove s = .next t →
    t.cmd = s.cmd ∧ t.ilen = s.ilen ∧ t.turns = s.turns ∧
    (∀ a, memRead t.ibuf a ≠ memRead s.ibuf a →
      a = s.inLen ∧ memRead t.ibuf a = 0 ∧ fetchCommand s = .compress s.le) ∧
    (fetchCommand s ≠ .verify s.le ∨ s.pos = .tokens → t.vok = s.vok ∧ t.vk = s.vk) ∧
    (fetchCommand s ≠ .resolve s.le ∨ s.pos = .tokens → t.rle = s.rle ∧ t.flip = s.flip) ∧
    ((fetchCommand s ≠ .resolve s.le ∧ fetchCommand s ≠ .compress s.le) ∨ s.pos = .tokens → t.rawlen = s.rawlen)

/-! ### Invariants -/

/-- Every step keeps the memories canonical (the model's own form, log 8; 10_state R50 to R52). -/
def Obligations.StepKeepsMemoriesCanonical : Prop :=
  ∀ s t : State, Mem.wf s.ibuf → Mem.wf s.obuf → Sorted s.ht → step s = .next t →
    Mem.wf t.ibuf ∧ Mem.wf t.obuf ∧ Sorted t.ht

/-- 10_state R40 to R42: in every state a step gives, `FAULT` is non-zero exactly in `FLT`, and a running command's results
are still clear. -/
def Obligations.StepKeepsControl : Prop :=
  ∀ s t : State, ControlOk s → step s = .next t → ControlOk t

/-- Every step keeps the whole invariant: memories (10_state R50 to R52), the widths of the cursors (R22 to R25), control
(R40 to R42), and a running `DECOMPRESS` inside its input and output (20_memory R64, R66). -/
def Obligations.StepKeepsInvariant : Prop :=
  ∀ s t : State, Inv s → step s = .next t → Inv t

/-- The state after reset meets the invariant. -/
def Obligations.ResetMeetsInvariant : Prop := Inv State.reset

/-- 20_memory R66: in a state that meets the invariant no move of the block stops the model, at either granularity: every
`OBUF` access of a running command is inside the buffer. -/
def Obligations.RunningBlockNeverStops : Prop :=
  ∀ s : State, Inv s → (∃ t, blockMove s = .next t) ∧ (∃ t, tokenMove s = .next t)

/-! ### The pipeline -/

/-- 45_pipeline R220 (Scenario 2): a Plain container made by `ENCODE_CONTAINER` decodes to its markup, for any parameters
whose cipher is undone by its inverse and whose digest tells the markup from the markup with filler appended. -/
def Obligations.PlainContainerRoundTrip : Prop :=
  ∀ (p : Params) (key : Vector Byte 8) (le le' : Bool) (m container : List Byte) (s s' : State),
    (∀ b, p.decBlock key (p.encBlock key b) = b) →
    markPlain <+: m → m.length + 16 ≤ inCap →
    (∀ j, 1 ≤ j → j ≤ 7 → p.digest (m ++ List.replicate j fill) ≠ p.digest m) →
    encodeContainer p key .plain le m s = .ok container →
    decodeContainer p key le' container s' = .ok m

/-- 45_pipeline R220: a variant A container that carries its marker decodes to the normalised markup, under the written byte
order or, where the length is not one of the six ambiguous ones, under either. -/
def Obligations.CompressedAContainerRoundTrip : Prop :=
  ∀ (p : Params) (key : Vector Byte 8) (le le' : Bool) (m container : List Byte) (s s' : State),
    (∀ b, p.decBlock key (p.encBlock key b) = b) →
    m.length ≤ inCap → encodeContainer p key .compressedA le m s = .ok container →
    markerAt (decrypt p key container) 16 markPlain = false →
    markerAt (decrypt p key container) 20 p.markA = true →
    (le' = le ∨ (normalisedBytes m).length ∉ ambiguousSizes) →
    decodeContainer p key le' container s' = .ok (normalisedBytes m)

/-- 45_pipeline R220: a variant B container that carries its marker decodes to the markup itself, where the digest tells the
markup from the markup with a zero byte appended. -/
def Obligations.CompressedBContainerRoundTrip : Prop :=
  ∀ (p : Params) (key : Vector Byte 8) (le le' : Bool) (m container : List Byte) (s s' : State),
    (∀ b, p.decBlock key (p.encBlock key b) = b) →
    m.length + 16 ≤ inCap → p.digest (m ++ [0]) ≠ p.digest m →
    encodeContainer p key .compressedB le m s = .ok container →
    markerAt (decrypt p key container) 16 markPlain = false →
    markerAt (decrypt p key container) 20 p.markA = false →
    markerAt (decrypt p key container) 22 p.markB = true →
    (le' = le ∨ (normalisedBytes ((p.digest m).toList ++ m)).length ∉ ambiguousSizes) →
    decodeContainer p key le' container s' = .ok m

/-- 45_pipeline R210, R215, R220: `DECODE_CONTAINER` returns nothing unverified. A markup it returns carries the digest
that stands before it (Plain, variant B), or is what the payload that carries it decompresses to (variant A). -/
def Obligations.ReturnedMarkupIsVerified : Prop :=
  ∀ (p : Params) (key : Vector Byte 8) (le : Bool) (container m : List Byte) (s : State),
    decodeContainer p key le container s = .ok m →
    container.length ≤ inCap ∧ container.length % 8 = 0 ∧
    ((variantOf p (decrypt p key container) = some .plain ∧
        (p.digest m).toList = (decrypt p key container).take 16) ∨
     (variantOf p (decrypt p key container) = some .compressedA ∧
        (∃ k, k ≤ 7 ∧
          (p.digest (((decrypt p key container).take ((decrypt p key container).length - k)).drop 16)).toList =
            (decrypt p key container).take 16) ∧
        ∃ r d, m = resultBytes d ∧ d.phase = .done ∧
          r = hostResolve p ((decrypt p key container).drop 16) le (hostVerify p (decrypt p key container) s) ∧
          d = hostDecompress p ((decrypt p key container).drop 16) r.rle r) ∨
     (variantOf p (decrypt p key container) = some .compressedB ∧
        ∃ z, z.length ≤ 7 ∧ ∃ r d, resultBytes d = (p.digest m).toList ++ m ++ z ∧ d.phase = .done ∧
          r = hostResolve p (decrypt p key container) le s ∧
          d = hostDecompress p (decrypt p key container) r.rle r))

/-- 45_pipeline R210, R215, R217: the host rejects a container of more than `IN_CAP` bytes; a length that is no multiple of
8 faults before anything else, and a container without a marker faults with `BAD_MARKER`. -/
def Obligations.ContainerFormatFaults : Prop :=
  ∀ (p : Params) (key : Vector Byte 8) (le : Bool) (container : List Byte) (s : State),
    (inCap < container.length → decodeContainer p key le container s = .error .containerTooLong) ∧
    (container.length ≤ inCap → container.length % 8 ≠ 0 →
      decodeContainer p key le container s = .error (.raised .lenNotMult8 none)) ∧
    (container.length ≤ inCap → container.length % 8 = 0 → markerAt (decrypt p key container) 16 markPlain = false →
      markerAt (decrypt p key container) 20 p.markA = false →
      markerAt (decrypt p key container) 22 p.markB = false →
      decodeContainer p key le container s = .error (.raised .badMarker none))
end

