-- ==== Sys2Proof/Laws/Memory.lean ====
section
/-! SUPPORT. The laws of memory: what a read gives after a write, that every operation keeps the canonical form, and that
canonical memories are equal when they read alike. -/

namespace Sys2Proof.Machine

/-! ### Lists sorted by key -/

section Assoc
variable {β : Type} (k k' : Nat) (v : β) (m : List (Nat × β))

theorem assocGet_put_same : assocGet k (assocPut k v m) = some v := by
  induction m with
  | nil => simp [assocPut, assocGet]
  | cons c rest ih =>
    obtain ⟨k₁, v₁⟩ := c
    unfold assocPut
    split_ifs with h₁ h₂
    · simp [assocGet]
    · simp [assocGet]
    · simp [assocGet, Ne.symm h₂, ih]

theorem assocGet_put_other (h : k' ≠ k) : assocGet k' (assocPut k v m) = assocGet k' m := by
  induction m with
  | nil => simp [assocPut, assocGet, Ne.symm h]
  | cons c rest ih =>
    obtain ⟨k₁, v₁⟩ := c
    unfold assocPut
    split_ifs with h₁ h₂
    · simp [assocGet, Ne.symm h]
    · subst h₂; simp [assocGet, Ne.symm h]
    · simp [assocGet, ih]

theorem assocGet_erase_same : assocGet k (assocErase k m) = none := by
  induction m with
  | nil => rfl
  | cons c rest ih =>
    obtain ⟨k₁, v₁⟩ := c
    unfold assocErase
    split_ifs with h₁
    · exact ih
    · simp [assocGet, h₁, ih]

theorem assocGet_erase_other (h : k' ≠ k) : assocGet k' (assocErase k m) = assocGet k' m := by
  induction m with
  | nil => rfl
  | cons c rest ih =>
    obtain ⟨k₁, v₁⟩ := c
    unfold assocErase
    split_ifs with h₁
    · subst h₁; simp [assocGet, Ne.symm h, ih]
    · simp [assocGet, ih]

theorem mem_assocPut {c : Nat × β} (h : c ∈ assocPut k v m) : c = (k, v) ∨ c ∈ m := by
  induction m with
  | nil => simpa [assocPut] using h
  | cons c₁ rest ih =>
    obtain ⟨k₁, v₁⟩ := c₁
    unfold assocPut at h
    split_ifs at h with h₁ h₂
    · simpa using h
    · rcases List.mem_cons.1 h with h | h
      · exact .inl h
      · exact .inr (List.mem_cons_of_mem _ h)
    · rcases List.mem_cons.1 h with h | h
      · exact .inr (h ▸ List.mem_cons_self)
      · exact (ih h).imp id (List.mem_cons_of_mem _)

theorem mem_assocErase {c : Nat × β} (h : c ∈ assocErase k m) : c ∈ m ∧ c.1 ≠ k := by
  induction m with
  | nil => simp [assocErase] at h
  | cons c₁ rest ih =>
    obtain ⟨k₁, v₁⟩ := c₁
    unfold assocErase at h
    split_ifs at h with h₁
    · exact ⟨List.mem_cons_of_mem _ (ih h).1, (ih h).2⟩
    · rcases List.mem_cons.1 h with h | h
      · exact ⟨h ▸ List.mem_cons_self, by subst h; exact h₁⟩
      · exact ⟨List.mem_cons_of_mem _ (ih h).1, (ih h).2⟩

theorem assocPut_keys_above {k₀ : Nat} (hk : k₀ < k) (h : ∀ c ∈ m, k₀ < c.1) : ∀ c ∈ assocPut k v m, k₀ < c.1 := by
  intro c hc
  rcases mem_assocPut k v m hc with rfl | hc
  · exact hk
  · exact h c hc

theorem sorted_cons {c : Nat × β} : Sorted (c :: m) ↔ (∀ c' ∈ m, c.1 < c'.1) ∧ Sorted m := by
  simp [Sorted]

theorem sorted_assocPut (h : Sorted m) : Sorted (assocPut k v m) := by
  induction m with
  | nil => simp [assocPut, Sorted]
  | cons c rest ih =>
    obtain ⟨k₁, v₁⟩ := c
    obtain ⟨h₁, h₂⟩ := (sorted_cons rest).1 h
    unfold assocPut
    split_ifs with g₁ g₂
    · refine (sorted_cons _).2 ⟨fun c' hc' => ?_, h⟩
      rcases List.mem_cons.1 hc' with rfl | hc'
      · exact g₁
      · exact lt_trans g₁ (h₁ c' hc')
    · subst g₂; exact (sorted_cons _).2 ⟨h₁, h₂⟩
    · exact (sorted_cons _).2 ⟨assocPut_keys_above k v rest (by change k₁ < k; omega) h₁, ih h₂⟩

theorem sorted_assocErase (h : Sorted m) : Sorted (assocErase k m) := by
  induction m with
  | nil => exact h
  | cons c rest ih =>
    obtain ⟨k₁, v₁⟩ := c
    obtain ⟨h₁, h₂⟩ := (sorted_cons rest).1 h
    unfold assocErase
    split_ifs
    · exact ih h₂
    · exact (sorted_cons _).2 ⟨fun c' hc' => h₁ c' (mem_assocErase k rest hc').1, ih h₂⟩

theorem assocGet_mem {v : β} (h : assocGet k m = some v) : (k, v) ∈ m := by
  induction m with
  | nil => simp [assocGet] at h
  | cons c rest ih =>
    obtain ⟨k₁, v₁⟩ := c
    unfold assocGet at h
    split_ifs at h with h₁
    · obtain rfl := Option.some.inj h
      exact h₁ ▸ List.mem_cons_self
    · exact List.mem_cons_of_mem _ (ih h)

theorem mem_assocGet {v : β} (hs : Sorted m) (h : (k, v) ∈ m) : assocGet k m = some v := by
  induction m with
  | nil => simp at h
  | cons c rest ih =>
    obtain ⟨k₁, v₁⟩ := c
    obtain ⟨h₁, h₂⟩ := (sorted_cons rest).1 hs
    rcases List.mem_cons.1 h with h | h
    · obtain ⟨rfl, rfl⟩ := Prod.mk.inj h
      simp [assocGet]
    · have : k₁ < k := h₁ _ h
      simp [assocGet, this.ne, ih h₂ h]

/-- Sorted lists with the same entries by key are equal. -/
theorem sorted_ext {m m' : List (Nat × β)} (h : Sorted m) (h' : Sorted m')
    (heq : ∀ k, assocGet k m = assocGet k m') : m = m' := by
  have key : ∀ c, c ∈ m ↔ c ∈ m' := fun ⟨k, v⟩ =>
    ⟨fun hc => assocGet_mem k m' (heq k ▸ mem_assocGet k m h hc),
      fun hc => assocGet_mem k m ((heq k).symm ▸ mem_assocGet k m' h' hc)⟩
  have pw : ∀ {l : List (Nat × β)}, Sorted l → l.Pairwise (fun a b => a.1 < b.1) := fun hl => List.pairwise_map.1 hl
  have nd : ∀ {l : List (Nat × β)}, Sorted l → l.Nodup := fun hl => (pw hl).imp fun hab => by rintro rfl; omega
  refine List.Perm.eq_of_pairwise (le := fun a b => a.1 < b.1) (fun a b _ _ h₁ h₂ => by omega) (pw h) (pw h')
    ((List.perm_ext_iff_of_nodup (nd h) (nd h')).2 key)

end Assoc

/-! ### Byte memories -/

theorem memRead_memWrite (m : Mem) (a b : Nat) (v : Byte) :
    memRead (memWrite m a v) b = if b = a then v else memRead m b := by
  unfold memRead memWrite
  by_cases h : b = a
  · subst h
    by_cases hv : v = unlistedByte <;> simp [hv, assocGet_erase_same, assocGet_put_same]
  · by_cases hv : v = unlistedByte <;> simp [h, hv, assocGet_erase_other, assocGet_put_other]

/-- A read after a write to the same place gives the value written. -/
@[simp] theorem memRead_memWrite_same (m : Mem) (a : Nat) (v : Byte) : memRead (memWrite m a v) a = v := by
  simp [memRead_memWrite]

/-- A write leaves every other place alone. -/
theorem memRead_memWrite_other (m : Mem) {a b : Nat} (v : Byte) (h : b ≠ a) :
    memRead (memWrite m a v) b = memRead m b := by
  simp [memRead_memWrite, h]

@[simp] theorem memRead_nil (a : Nat) : memRead [] a = 0 := rfl

theorem memWrite_wf {m : Mem} (a : Nat) (v : Byte) (h : Mem.wf m) : Mem.wf (memWrite m a v) := by
  unfold memWrite
  split_ifs with hv
  · exact ⟨sorted_assocErase a m h.1, fun c hc => h.2 c (mem_assocErase a m hc).1⟩
  · refine ⟨sorted_assocPut a v m h.1, fun c hc => ?_⟩
    rcases mem_assocPut a v m hc with rfl | hc
    · exact hv
    · exact h.2 c hc

theorem memWrite_below {m : Mem} {n a : Nat} (v : Byte) (ha : a < n) (h : Below n m) : Below n (memWrite m a v) := by
  intro c hc
  unfold memWrite at hc
  split_ifs at hc
  · exact h c (mem_assocErase a m hc).1
  · rcases mem_assocPut a v m hc with rfl | hc
    · exact ha
    · exact h c hc

theorem mem_nil_wf : Mem.wf ([] : Mem) := by simp [Mem.wf, Sorted]

/-- Canonical memories that read alike are equal data. -/
theorem mem_ext {m m' : Mem} (h : Mem.wf m) (h' : Mem.wf m') (heq : ∀ a, memRead m a = memRead m' a) : m = m' := by
  refine sorted_ext h.1 h'.1 fun k => ?_
  have nz : ∀ {l : Mem}, Mem.wf l → assocGet k l ≠ some unlistedByte :=
    fun hl hc => hl.2 _ (assocGet_mem k _ hc) rfl
  have := heq k
  unfold memRead at this
  rcases hk : assocGet k m with _ | v <;> rcases hk' : assocGet k m' with _ | v' <;> simp [hk, hk'] at this ⊢
  · exact nz h' (this ▸ hk')
  · exact nz h (this ▸ hk)
  · exact this

/-! ### Byte strings and wider accesses -/

@[simp] theorem memBytes_length (m : Mem) (a n : Nat) : (memBytes m a n).length = n := by
  induction n generalizing a with
  | zero => rfl
  | succ n ih => simp [memBytes, ih]

theorem memBytes_getElem (m : Mem) (a n i : Nat) (h : i < n) :
    (memBytes m a n)[i]'(by simpa using h) = memRead m (a + i) := by
  induction n generalizing a i with
  | zero => omega
  | succ n ih =>
    cases i with
    | zero => simp [memBytes]
    | succ i =>
      simp only [memBytes, List.getElem_cons_succ]
      rw [ih (a + 1) i (by omega)]
      congr 1
      omega

theorem memBytes_congr {m m' : Mem} {a n : Nat} (h : ∀ i, i < n → memRead m (a + i) = memRead m' (a + i)) :
    memBytes m a n = memBytes m' a n := by
  refine List.ext_getElem (by simp) fun i h₁ h₂ => ?_
  rw [memBytes_length] at h₁
  rw [memBytes_getElem m a n i h₁, memBytes_getElem m' a n i h₁, h i h₁]

theorem memBytes_append (m : Mem) (a n k : Nat) : memBytes m a (n + k) = memBytes m a n ++ memBytes m (a + n) k := by
  induction n generalizing a with
  | zero => simp [memBytes]
  | succ n ih => simp [Nat.succ_add, memBytes, ih, Nat.add_assoc]

theorem memRead_memLoad (m : Mem) (a : Nat) (bytes : List Byte) (b : Nat) :
    memRead (memLoad m a bytes) b =
      if h : a ≤ b ∧ b < a + bytes.length then bytes[b - a]'(by omega) else memRead m b := by
  induction bytes generalizing m a with
  | nil => rw [dif_neg (by simp)]; rfl
  | cons v bytes ih =>
    rw [memLoad, ih]
    by_cases h₁ : a + 1 ≤ b ∧ b < a + 1 + bytes.length
    · have h₂ : a ≤ b ∧ b < a + (v :: bytes).length := by simp; omega
      rw [dif_pos h₁, dif_pos h₂]
      obtain ⟨d, rfl⟩ : ∃ d, b = a + 1 + d := ⟨b - (a + 1), by omega⟩
      have e₁ : a + 1 + d - (a + 1) = d := by omega
      have e₂ : a + 1 + d - a = d + 1 := by omega
      simp [e₁, e₂]
    · rw [dif_neg h₁, memRead_memWrite]
      by_cases hb : b = a
      · subst hb; simp
      · have h₂ : ¬(a ≤ b ∧ b < a + (v :: bytes).length) := by simp; omega
        rw [dif_neg h₂, if_neg hb]

theorem memLoad_wf {m : Mem} (a : Nat) (bytes : List Byte) (h : Mem.wf m) : Mem.wf (memLoad m a bytes) := by
  induction bytes generalizing m a with
  | nil => exact h
  | cons v bytes ih => exact ih (a + 1) (memWrite_wf a v h)

theorem memWrite4_wf {m : Mem} (le : Bool) (a : Nat) (v : Word) (h : Mem.wf m) : Mem.wf (memWrite4 le m a v) :=
  memWrite_wf _ _ (memWrite_wf _ _ (memWrite_wf _ _ (memWrite_wf _ _ h)))

theorem memRead_memWrite4_other (m : Mem) (le : Bool) {a b : Nat} (v : Word) (h : b < a ∨ a + 4 ≤ b) :
    memRead (memWrite4 le m a v) b = memRead m b := by
  unfold memWrite4
  rw [memRead_memWrite_other _ _ (by omega), memRead_memWrite_other _ _ (by omega),
    memRead_memWrite_other _ _ (by omega), memRead_memWrite_other _ _ (by omega)]

theorem memOf_mem {f : Nat → Byte} {n : Nat} {c : Host.Cell} (h : c ∈ memOf f n) :
    c.1 < n ∧ c.2 = f c.1 ∧ c.2 ≠ unlistedByte := by
  induction n with
  | zero => simp [memOf] at h
  | succ n ih =>
    rcases List.mem_append.1 h with h | h
    · exact ⟨by have := (ih h).1; omega, (ih h).2⟩
    · split_ifs at h with hf
      · simp at h
      · obtain rfl := List.mem_singleton.1 h
        exact ⟨by simp, rfl, hf⟩

theorem memOf_wf (f : Nat → Byte) (n : Nat) : Mem.wf (memOf f n) := by
  refine ⟨?_, fun c hc => (memOf_mem hc).2.2⟩
  induction n with
  | zero => simp [memOf, Sorted]
  | succ n ih =>
    unfold memOf Sorted
    rw [List.map_append, List.pairwise_append]
    refine ⟨ih, by split_ifs <;> simp, fun a ha b hb => ?_⟩
    split_ifs at hb with hf
    · simp at hb
    · obtain ⟨c, hc, rfl⟩ := List.mem_map.1 ha
      obtain rfl : b = n := by simpa using hb
      exact (memOf_mem hc).1

theorem memOf_below (f : Nat → Byte) (n : Nat) : Below n (memOf f n) := fun _ hc => (memOf_mem hc).1

theorem mem_memOf {f : Nat → Byte} {n a : Nat} (ha : a < n) (hf : f a ≠ unlistedByte) : (a, f a) ∈ memOf f n := by
  induction n with
  | zero => omega
  | succ n ih =>
    rcases Nat.lt_succ_iff_lt_or_eq.1 ha with h | rfl
    · exact List.mem_append_left _ (ih h)
    · exact List.mem_append_right _ (by simp [hf])

/-- What `memOf` holds: its function below the bound, and what an unlisted address reads as above. -/
theorem memRead_memOf (f : Nat → Byte) (n a : Nat) : memRead (memOf f n) a = if a < n then f a else unlistedByte := by
  unfold memRead
  cases hg : assocGet a (memOf f n) with
  | some v =>
    obtain ⟨h₁, h₂, -⟩ := memOf_mem (assocGet_mem a _ hg)
    have h₁ : a < n := h₁
    rw [if_pos h₁]
    exact h₂
  | none =>
    split_ifs with ha
    · by_contra hne
      have hf : f a ≠ unlistedByte := fun h => hne h.symm
      rw [mem_assocGet a _ (memOf_wf f n).1 (mem_memOf ha hf)] at hg
      cases hg
    · rfl

/-! ### The hash table -/

@[simp] theorem htSlot_htPut_same (t : HashTable) (h : Fin 8192) (p : Nat) : htSlot (htPut t h p) h = some p :=
  assocGet_put_same _ _ _

theorem htSlot_htPut_other (t : HashTable) {h h' : Fin 8192} (p : Nat) (hne : h' ≠ h) :
    htSlot (htPut t h p) h' = htSlot t h' :=
  assocGet_put_other _ _ _ _ (fun e => hne (Fin.ext e))

theorem htSlot_htPut (t : HashTable) (h h' : Fin 8192) (p : Nat) :
    htSlot (htPut t h p) h' = if h' = h then some p else htSlot t h' := by
  by_cases hh : h' = h
  · subst hh; simp
  · simp [hh, htSlot_htPut_other]

end Sys2Proof.Machine
end

