-- ==== Sys2Proof/Laws/BitChannel.lean ====
section
/-! SUPPORT. What the bit channel's operations can do, said once for each: byte order, the checked writes, `PUTBIT`,
`GETBIT`, and the reading of a token. -/

namespace Sys2Proof

/-! ### Sequencing -/

theorem bind_ok_iff {ε α β : Type} {x : Except ε α} {f : α → Except ε β} {b : β} :
    (x >>= f) = .ok b ↔ ∃ a, x = .ok a ∧ f a = .ok b := by
  cases x <;> simp [bind, Except.bind]

theorem bind_error_iff {ε α β : Type} {x : Except ε α} {f : α → Except ε β} {e : ε} :
    (x >>= f) = .error e ↔ x = .error e ∨ ∃ a, x = .ok a ∧ f a = .error e := by
  cases x <;> simp [bind, Except.bind]

/-! ### Byte order -/

@[simp] theorem halfOf_halfBytes (le : Bool) (h : Half) : halfOf le (halfBytes le h).1 (halfBytes le h).2 = h := by
  have key : h.extractLsb' 8 8 ++ h.extractLsb' 0 8 = h := by
    apply BitVec.eq_of_getLsbD_eq
    intro i hi
    rw [BitVec.getLsbD_append, BitVec.getLsbD_extractLsb', BitVec.getLsbD_extractLsb']
    by_cases h8 : i < 8
    · simp [h8]
    · rw [if_neg h8, show 8 + (i - 8) = i by omega]
      simp; omega
  cases le <;> exact key

@[simp] theorem wordOf_wordByte (le : Bool) (w : Word) :
    wordOf le (wordByte le w 0) (wordByte le w 1) (wordByte le w 2) (wordByte le w 3) = w := by
  have key : w.extractLsb' 24 8 ++ w.extractLsb' 16 8 ++ w.extractLsb' 8 8 ++ w.extractLsb' 0 8 = w := by
    apply BitVec.eq_of_getLsbD_eq
    intro i hi
    simp only [BitVec.getLsbD_append, BitVec.getLsbD_extractLsb']
    split_ifs with h₁ h₂ h₃
    · simp [h₁]
    · rw [show 8 + (i - 8) = i by omega]; simp; omega
    · rw [show 16 + (i - 8 - 8) = i by omega]; simp; omega
    · rw [show 24 + (i - 8 - 8 - 8) = i by omega]; simp; omega
  cases le <;> exact key
/-! ### The read side -/

theorem loadFlags_ok_iff {src : Stream} {r r' : BitReader} :
    loadFlags src r = .ok r' ↔ r.rp + 1 < src.len ∧
      r' = { racc := halfOf src.le (src.byte r.rp) (src.byte (r.rp + 1)), rcnt := 16, rp := r.rp + 2 } := by
  unfold loadFlags
  split <;> simp <;> [omega; constructor] <;> intros <;> simp_all

/-- `GETBIT` with a bit left: shift it out. -/
theorem getBit_of_left {src : Stream} {r : BitReader} (h : r.rcnt ≠ 0) : getBit src r = .ok (shiftFlag r) := by
  simp [getBit, h]

/-- `GETBIT` with no bit left: load a word, then shift. -/
theorem getBit_of_empty {src : Stream} {r : BitReader} (h : r.rcnt = 0) :
    getBit src r = (loadFlags src r >>= fun r => .ok (shiftFlag r)) := by
  simp [getBit, h]

theorem getBit_ok_iff {src : Stream} {r : BitReader} {x : Bool × BitReader} :
    getBit src r = .ok x ↔
      (r.rcnt ≠ 0 ∧ x = shiftFlag r) ∨ (r.rcnt = 0 ∧ ∃ r', loadFlags src r = .ok r' ∧ x = shiftFlag r') := by
  by_cases h : r.rcnt = 0
  · rw [getBit_of_empty h, bind_ok_iff]; simp [h, eq_comm]
  · rw [getBit_of_left h]; simp [h, eq_comm]

theorem readByte_ok_iff {src : Stream} {r : BitReader} {x : Byte × BitReader} :
    readByte src r = .ok x ↔ r.rp < src.len ∧ x = (src.byte r.rp, { r with rp := r.rp + 1 }) := by
  unfold readByte
  split <;> simp <;> [omega; constructor] <;> intros <;> simp_all

theorem shiftFlag_rp (r : BitReader) : (shiftFlag r).2.rp = r.rp := rfl

/-- What `GETBIT` does to the cursor: nothing, or two bytes forward inside the stream. -/
theorem getBit_rp {src : Stream} {r : BitReader} {x : Bool × BitReader} (h : getBit src r = .ok x) :
    x.2.rp = r.rp ∨ (x.2.rp = r.rp + 2 ∧ r.rp + 1 < src.len) := by
  rcases getBit_ok_iff.1 h with ⟨-, rfl⟩ | ⟨-, r', hl, rfl⟩
  · exact .inl rfl
  · obtain ⟨hlt, rfl⟩ := loadFlags_ok_iff.1 hl
    exact .inr ⟨rfl, hlt⟩

/-- What `GETBIT` does to the count: one less, or 15 after a load. -/
theorem getBit_rcnt {src : Stream} {r : BitReader} {x : Bool × BitReader} (h : getBit src r = .ok x) :
    x.2.rcnt + 1 = r.rcnt ∨ (r.rcnt = 0 ∧ x.2.rcnt = 15) := by
  rcases getBit_ok_iff.1 h with ⟨h0, rfl⟩ | ⟨h0, r', hl, rfl⟩
  · exact .inl (by simp [shiftFlag]; omega)
  · obtain ⟨-, rfl⟩ := loadFlags_ok_iff.1 hl
    exact .inr ⟨h0, rfl⟩

/-! ### Codes and tokens, over any source -/

section Source
variable {σ : Type} {bit : σ → Except Reject (Bool × σ)} {byte : σ → Except Reject (Byte × σ)}

/-- One round of `GETVLC`: a digit, a continuation flag, then the end or the next round. -/
theorem readVlc_ok_iff {fuel v : Nat} {s : σ} {x : Nat × σ} :
    readVlc bit (fuel + 1) v s = .ok x ↔
      ∃ d s₁ c s₂, bit s = .ok (d, s₁) ∧ bit s₁ = .ok (c, s₂) ∧
        ((c = false ∧ x = (2 * v + d.toNat, s₂)) ∨ (c = true ∧ readVlc bit fuel (2 * v + d.toNat) s₂ = .ok x)) := by
  rw [readVlc, bind_ok_iff]
  constructor
  · rintro ⟨⟨d, s₁⟩, h₁, h⟩
    obtain ⟨⟨c, s₂⟩, h₂, h⟩ := bind_ok_iff.1 h
    refine ⟨d, s₁, c, s₂, h₁, h₂, ?_⟩
    cases c
    · exact .inl ⟨rfl, by simpa [eq_comm] using h⟩
    · exact .inr ⟨rfl, by simpa using h⟩
  · rintro ⟨d, s₁, c, s₂, h₁, h₂, h⟩
    refine ⟨(d, s₁), h₁, bind_ok_iff.2 ⟨(c, s₂), h₂, ?_⟩⟩
    rcases h with ⟨rfl, rfl⟩ | ⟨rfl, h⟩
    · simp
    · simpa using h

/-- The value of a code is at least 2, whatever the source (40_bitchannel R127). -/
theorem readVlc_ge {fuel v : Nat} {s : σ} {x : Nat × σ} (hv : 1 ≤ v) (h : readVlc bit fuel v s = .ok x) : 2 ≤ x.1 := by
  induction fuel generalizing v s with
  | zero => simp [readVlc] at h
  | succ fuel ih =>
    obtain ⟨d, s₁, c, s₂, -, -, h⟩ := readVlc_ok_iff.1 h
    rcases h with ⟨-, rfl⟩ | ⟨-, h⟩
    · simp; omega
    · exact ih (by omega) h

/-- Reading a token: a literal, or a match with its two codes and its byte. -/
theorem readToken_ok_iff {fuel : Nat} {s : σ} {x : Token × σ} :
    readToken bit byte fuel s = .ok x ↔
      (∃ s₁ b s₂, bit s = .ok (false, s₁) ∧ byte s₁ = .ok (b, s₂) ∧ x = (.lit b, s₂)) ∨
      (∃ s₁ v₁ s₂ v₂ s₃ low s₄, bit s = .ok (true, s₁) ∧ readVlc bit fuel 1 s₁ = .ok (v₁, s₂) ∧
        readVlc bit fuel 1 s₂ = .ok (v₂, s₃) ∧ byte s₃ = .ok (low, s₄) ∧ x = (copyToken v₁ v₂ low, s₄)) := by
  rw [readToken, bind_ok_iff]
  constructor
  · rintro ⟨⟨f, s₁⟩, h₁, h⟩
    cases f
    · obtain ⟨⟨b, s₂⟩, h₂, h⟩ := bind_ok_iff.1 h
      exact .inl ⟨s₁, b, s₂, h₁, h₂, by simpa [eq_comm] using h⟩
    · obtain ⟨⟨v₁, s₂⟩, h₂, h⟩ := bind_ok_iff.1 h
      obtain ⟨⟨v₂, s₃⟩, h₃, h⟩ := bind_ok_iff.1 h
      obtain ⟨⟨low, s₄⟩, h₄, h⟩ := bind_ok_iff.1 h
      exact .inr ⟨s₁, v₁, s₂, v₂, s₃, low, s₄, h₁, h₂, h₃, h₄, by simpa [eq_comm] using h⟩
  · rintro (⟨s₁, b, s₂, h₁, h₂, rfl⟩ | ⟨s₁, v₁, s₂, v₂, s₃, low, s₄, h₁, h₂, h₃, h₄, rfl⟩)
    · exact ⟨(false, s₁), h₁, bind_ok_iff.2 ⟨(b, s₂), h₂, rfl⟩⟩
    · exact ⟨(true, s₁), h₁, bind_ok_iff.2 ⟨(v₁, s₂), h₂, bind_ok_iff.2 ⟨(v₂, s₃), h₃,
        bind_ok_iff.2 ⟨(low, s₄), h₄, rfl⟩⟩⟩⟩

/-- A token read from any source has `mlen >= 4` and `D >= 1` (43_decompress R175). -/
theorem readToken_wf {fuel : Nat} {s : σ} {x : Token × σ} (h : readToken bit byte fuel s = .ok x) :
    x.1.toInstr.wf = true := by
  rcases readToken_ok_iff.1 h with ⟨_, b, _, -, -, rfl⟩ | ⟨_, v₁, _, v₂, _, low, _, -, h₁, -, -, rfl⟩
  · rfl
  · have := readVlc_ge (le_refl 1) h₁
    simp [copyToken, Token.toInstr, Instr.wf, minMatch]
    omega

end Source

namespace Machine

/-! ### The write side -/

theorem putByteAt_ok_iff {a : Nat} {v : Byte} {o o' : Out} :
    putByteAt a v o = .ok o' ↔ a < compCap ∧ o' = { o with obuf := memWrite o.obuf a v } := by
  unfold putByteAt
  split <;> simp [*, eq_comm]

theorem putByteAt_error_iff {a : Nat} {v : Byte} {o o' : Out} :
    putByteAt a v o = .error o' ↔ compCap ≤ a ∧ o' = o := by
  unfold putByteAt
  split <;> simp [*, eq_comm]; omega

theorem putHalfAt_ok_iff {le : Bool} {a : Nat} {h : Half} {o o' : Out} :
    putHalfAt le a h o = .ok o' ↔ a + 1 < compCap ∧
      o' = { o with obuf := memWrite (memWrite o.obuf a (halfBytes le h).1) (a + 1) (halfBytes le h).2 } := by
  rw [putHalfAt, bind_ok_iff]
  constructor
  · rintro ⟨o₁, h₁, h₂⟩
    obtain ⟨-, rfl⟩ := putByteAt_ok_iff.1 h₁
    exact putByteAt_ok_iff.1 h₂
  · rintro ⟨h₁, rfl⟩
    exact ⟨_, putByteAt_ok_iff.2 ⟨by omega, rfl⟩, putByteAt_ok_iff.2 ⟨h₁, rfl⟩⟩

/-- A flag-word write that meets the end of the buffer leaves the registers alone. -/
theorem putHalfAt_error {le : Bool} {a : Nat} {h : Half} {o o' : Out} (he : putHalfAt le a h o = .error o') :
    compCap ≤ a + 1 ∧ o'.bw = o.bw := by
  rcases bind_error_iff.1 he with h₁ | ⟨o₁, h₁, h₂⟩
  · obtain ⟨h, rfl⟩ := putByteAt_error_iff.1 h₁
    exact ⟨by omega, rfl⟩
  · obtain ⟨-, rfl⟩ := putByteAt_ok_iff.1 h₁
    obtain ⟨h, rfl⟩ := putByteAt_error_iff.1 h₂
    exact ⟨h, rfl⟩

/-- `PUTBIT` with room in the word: only the accumulator and the count change. -/
theorem putBit_of_room {le b : Bool} {o : Out} (h : o.bw.wcnt ≠ 0) :
    putBit le b o = .ok { o with bw := shiftIn b o.bw } := by
  simp [putBit, h]

/-- `PUTBIT` with a full word: the word is written where it was reserved, and the next one reserved. -/
theorem putBit_of_full {le b : Bool} {o o' : Out} (h : o.bw.wcnt = 0) :
    putBit le b o = .ok o' ↔ o.bw.rsv + 1 < compCap ∧
      o' = { bw := shiftIn b (reserve o.bw),
             obuf := memWrite (memWrite o.obuf o.bw.rsv (halfBytes le o.bw.wacc).1) (o.bw.rsv + 1)
               (halfBytes le o.bw.wacc).2 } := by
  simp only [putBit, h, if_true]
  rw [bind_ok_iff]
  constructor
  · rintro ⟨o₁, h₁, h₂⟩
    obtain ⟨hlt, rfl⟩ := putHalfAt_ok_iff.1 h₁
    exact ⟨hlt, by simpa [eq_comm] using h₂⟩
  · rintro ⟨hlt, rfl⟩
    exact ⟨_, putHalfAt_ok_iff.2 ⟨hlt, rfl⟩, rfl⟩

theorem appendByte_ok_iff {b : Byte} {o o' : Out} :
    appendByte b o = .ok o' ↔ o.bw.wp < compCap ∧
      o' = { bw := { o.bw with wp := o.bw.wp + 1 }, obuf := memWrite o.obuf o.bw.wp b } := by
  rw [appendByte, bind_ok_iff]
  constructor
  · rintro ⟨o₁, h₁, h₂⟩
    obtain ⟨hlt, rfl⟩ := putByteAt_ok_iff.1 h₁
    exact ⟨hlt, by simpa [eq_comm] using h₂⟩
  · rintro ⟨hlt, rfl⟩
    exact ⟨_, putByteAt_ok_iff.2 ⟨hlt, rfl⟩, rfl⟩

theorem putBits_nil (le : Bool) (o : Out) : putBits le [] o = .ok o := rfl

theorem putBits_cons (le b : Bool) (bits : List Bool) (o : Out) :
    putBits le (b :: bits) o = (putBit le b o >>= putBits le bits) := rfl

theorem putBits_append (le : Bool) (x y : List Bool) (o : Out) :
    putBits le (x ++ y) o = (putBits le x o >>= putBits le y) := by
  induction x generalizing o with
  | nil => rfl
  | cons b x ih =>
    rw [List.cons_append, putBits_cons, putBits_cons]
    cases putBit le b o with
    | error e => rfl
    | ok o₁ => exact ih o₁

/-- A match's emission is its flag bits, then its byte (42_compress R157). -/
theorem emitMatch_eq (le : Bool) (mlen dist : Nat) (h : minMatch ≤ mlen ∧ 1 ≤ dist) (o : Out) :
    emitMatch le mlen dist h o = (putBits le (matchFlags mlen dist h) o >>= appendByte (matchByte dist)) := by
  rw [matchFlags, putBits_cons]
  change (putBit le true o >>= fun o => putVlc le (mlen - 2) _ o >>= fun o =>
    putVlc le ((dist - 1) / 256 + 2) _ o >>= appendByte _) = _
  cases putBit le true o with
  | error e => rfl
  | ok o₁ =>
    change (putBits le _ o₁ >>= fun o => putBits le _ o >>= appendByte _) = (putBits le _ o₁ >>= appendByte _)
    rw [putBits_append]
    cases putBits le (vlcBits (mlen - 2) (lenCode_ge h)) o₁ <;> rfl

/-- A token's emission is its flag bits, then its byte: the writer and the encoder agree (30_encoding R98). -/
theorem emitToken_eq (le : Bool) (t : Token) (o : Out) :
    emitToken le t o = (putBits le t.flags o >>= appendByte t.byte) := by
  cases t with
  | lit b =>
    change (putBit le false o >>= appendByte b) = _
    rw [Token.flags, putBits_cons]
    cases putBit le false o <;> rfl
  | copy mlen dist =>
    simp only [emitToken, Token.flags, Token.byte]
    split_ifs with h
    · exact emitMatch_eq le mlen dist h o
    · rfl

theorem emitTokens_append (le : Bool) (x y : List Token) (o : Out) :
    emitTokens le (x ++ y) o = (emitTokens le x o >>= emitTokens le y) := by
  induction x generalizing o with
  | nil => rfl
  | cons t x ih =>
    change (emitToken le t o >>= emitTokens le (x ++ y)) = ((emitToken le t o >>= emitTokens le x) >>= emitTokens le y)
    cases emitToken le t o with
    | error e => rfl
    | ok o₁ => exact ih o₁

end Machine

end Sys2Proof
end

