-- ==== Sys2Proof/Laws/State.lean ====
section
/-! SUPPORT. What each update of State leaves in each field: one lemma a field, true by unfolding, so that no later proof
unfolds a record update. -/

namespace Sys2Proof.Machine

/-! ### `raise`: fault entry (60_exceptions R240) -/

/-- Fault entry ends the command in a fault of its code. -/
theorem raise_faultsWith (c : Cause) (s : State) : FaultsWith (faultCode c) s (.next (raise c s)) := ⟨_, rfl, rfl⟩

@[simp] theorem raise_cmd (c : Cause) (s : State) : (raise c s).cmd = s.cmd := rfl
@[simp] theorem raise_fault (c : Cause) (s : State) : (raise c s).fault = faultCode c := rfl
@[simp] theorem raise_ilen (c : Cause) (s : State) : (raise c s).ilen = s.ilen := rfl
@[simp] theorem raise_rawlen (c : Cause) (s : State) : (raise c s).rawlen = s.rawlen := rfl
@[simp] theorem raise_olen (c : Cause) (s : State) : (raise c s).olen = s.olen := rfl
@[simp] theorem raise_opad (c : Cause) (s : State) : (raise c s).opad = s.opad := rfl
@[simp] theorem raise_vk (c : Cause) (s : State) : (raise c s).vk = s.vk := rfl
@[simp] theorem raise_phase (c : Cause) (s : State) : (raise c s).phase = .flt := rfl
@[simp] theorem raise_vok (c : Cause) (s : State) : (raise c s).vok = s.vok := rfl
@[simp] theorem raise_rle (c : Cause) (s : State) : (raise c s).rle = s.rle := rfl
@[simp] theorem raise_flip (c : Cause) (s : State) : (raise c s).flip = s.flip := rfl
@[simp] theorem raise_bw (c : Cause) (s : State) : (raise c s).bw = s.bw := rfl
@[simp] theorem raise_br (c : Cause) (s : State) : (raise c s).br = s.br := rfl
@[simp] theorem raise_sp (c : Cause) (s : State) : (raise c s).sp = s.sp := rfl
@[simp] theorem raise_hp (c : Cause) (s : State) : (raise c s).hp = s.hp := rfl
@[simp] theorem raise_dp (c : Cause) (s : State) : (raise c s).dp = s.dp := rfl
@[simp] theorem raise_ht (c : Cause) (s : State) : (raise c s).ht = s.ht := rfl
@[simp] theorem raise_ibuf (c : Cause) (s : State) : (raise c s).ibuf = s.ibuf := rfl
@[simp] theorem raise_obuf (c : Cause) (s : State) : (raise c s).obuf = s.obuf := rfl
@[simp] theorem raise_pos (c : Cause) (s : State) : (raise c s).pos = .start := rfl
@[simp] theorem raise_turns (c : Cause) (s : State) : (raise c s).turns = s.turns := rfl
@[simp] theorem raise_rdata (c : Cause) (s : State) : (raise c s).rdata = s.rdata := rfl
@[simp] theorem raise_draws (c : Cause) (s : State) : (raise c s).draws = s.draws := rfl

/-! ### `complete`: the end of a command -/

@[simp] theorem complete_cmd (s : State) : (complete s).cmd = s.cmd := rfl
@[simp] theorem complete_fault (s : State) : (complete s).fault = s.fault := rfl
@[simp] theorem complete_ilen (s : State) : (complete s).ilen = s.ilen := rfl
@[simp] theorem complete_rawlen (s : State) : (complete s).rawlen = s.rawlen := rfl
@[simp] theorem complete_olen (s : State) : (complete s).olen = s.olen := rfl
@[simp] theorem complete_opad (s : State) : (complete s).opad = s.opad := rfl
@[simp] theorem complete_vk (s : State) : (complete s).vk = s.vk := rfl
@[simp] theorem complete_phase (s : State) : (complete s).phase = .done := rfl
@[simp] theorem complete_vok (s : State) : (complete s).vok = s.vok := rfl
@[simp] theorem complete_rle (s : State) : (complete s).rle = s.rle := rfl
@[simp] theorem complete_flip (s : State) : (complete s).flip = s.flip := rfl
@[simp] theorem complete_bw (s : State) : (complete s).bw = s.bw := rfl
@[simp] theorem complete_br (s : State) : (complete s).br = s.br := rfl
@[simp] theorem complete_sp (s : State) : (complete s).sp = s.sp := rfl
@[simp] theorem complete_hp (s : State) : (complete s).hp = s.hp := rfl
@[simp] theorem complete_dp (s : State) : (complete s).dp = s.dp := rfl
@[simp] theorem complete_ht (s : State) : (complete s).ht = s.ht := rfl
@[simp] theorem complete_ibuf (s : State) : (complete s).ibuf = s.ibuf := rfl
@[simp] theorem complete_obuf (s : State) : (complete s).obuf = s.obuf := rfl
@[simp] theorem complete_pos (s : State) : (complete s).pos = .start := rfl
@[simp] theorem complete_turns (s : State) : (complete s).turns = s.turns := rfl
@[simp] theorem complete_rdata (s : State) : (complete s).rdata = s.rdata := rfl
@[simp] theorem complete_draws (s : State) : (complete s).draws = s.draws := rfl

/-! ### `acceptCommand`: an accepted `CMD` write (10_state R40) -/

@[simp] theorem acceptCommand_cmd (w : Word) (s : State) : (acceptCommand w s).cmd = w := rfl
@[simp] theorem acceptCommand_fault (w : Word) (s : State) : (acceptCommand w s).fault = 0 := rfl
@[simp] theorem acceptCommand_ilen (w : Word) (s : State) : (acceptCommand w s).ilen = s.ilen := rfl
@[simp] theorem acceptCommand_rawlen (w : Word) (s : State) : (acceptCommand w s).rawlen = s.rawlen := rfl
@[simp] theorem acceptCommand_olen (w : Word) (s : State) : (acceptCommand w s).olen = 0 := rfl
@[simp] theorem acceptCommand_opad (w : Word) (s : State) : (acceptCommand w s).opad = 0 := rfl
@[simp] theorem acceptCommand_vk (w : Word) (s : State) : (acceptCommand w s).vk = 0 := rfl
@[simp] theorem acceptCommand_phase (w : Word) (s : State) : (acceptCommand w s).phase = .run := rfl
@[simp] theorem acceptCommand_vok (w : Word) (s : State) : (acceptCommand w s).vok = false := rfl
@[simp] theorem acceptCommand_rle (w : Word) (s : State) : (acceptCommand w s).rle = false := rfl
@[simp] theorem acceptCommand_flip (w : Word) (s : State) : (acceptCommand w s).flip = false := rfl
@[simp] theorem acceptCommand_bw (w : Word) (s : State) : (acceptCommand w s).bw = s.bw := rfl
@[simp] theorem acceptCommand_br (w : Word) (s : State) : (acceptCommand w s).br = s.br := rfl
@[simp] theorem acceptCommand_sp (w : Word) (s : State) : (acceptCommand w s).sp = s.sp := rfl
@[simp] theorem acceptCommand_hp (w : Word) (s : State) : (acceptCommand w s).hp = s.hp := rfl
@[simp] theorem acceptCommand_dp (w : Word) (s : State) : (acceptCommand w s).dp = s.dp := rfl
@[simp] theorem acceptCommand_ht (w : Word) (s : State) : (acceptCommand w s).ht = s.ht := rfl
@[simp] theorem acceptCommand_ibuf (w : Word) (s : State) : (acceptCommand w s).ibuf = s.ibuf := rfl
@[simp] theorem acceptCommand_obuf (w : Word) (s : State) : (acceptCommand w s).obuf = s.obuf := rfl
@[simp] theorem acceptCommand_pos (w : Word) (s : State) : (acceptCommand w s).pos = .start := rfl
@[simp] theorem acceptCommand_turns (w : Word) (s : State) : (acceptCommand w s).turns = s.turns := rfl
@[simp] theorem acceptCommand_rdata (w : Word) (s : State) : (acceptCommand w s).rdata = s.rdata := rfl
@[simp] theorem acceptCommand_draws (w : Word) (s : State) : (acceptCommand w s).draws = s.draws := rfl

/-! ### `setComp`: the compressor's part -/

@[simp] theorem setComp_cmd (s : State) (c : Comp) : (s.setComp c).cmd = s.cmd := rfl
@[simp] theorem setComp_fault (s : State) (c : Comp) : (s.setComp c).fault = s.fault := rfl
@[simp] theorem setComp_ilen (s : State) (c : Comp) : (s.setComp c).ilen = s.ilen := rfl
@[simp] theorem setComp_rawlen (s : State) (c : Comp) : (s.setComp c).rawlen = s.rawlen := rfl
@[simp] theorem setComp_olen (s : State) (c : Comp) : (s.setComp c).olen = s.olen := rfl
@[simp] theorem setComp_opad (s : State) (c : Comp) : (s.setComp c).opad = s.opad := rfl
@[simp] theorem setComp_vk (s : State) (c : Comp) : (s.setComp c).vk = s.vk := rfl
@[simp] theorem setComp_phase (s : State) (c : Comp) : (s.setComp c).phase = s.phase := rfl
@[simp] theorem setComp_vok (s : State) (c : Comp) : (s.setComp c).vok = s.vok := rfl
@[simp] theorem setComp_rle (s : State) (c : Comp) : (s.setComp c).rle = s.rle := rfl
@[simp] theorem setComp_flip (s : State) (c : Comp) : (s.setComp c).flip = s.flip := rfl
@[simp] theorem setComp_bw (s : State) (c : Comp) : (s.setComp c).bw = c.out.bw := rfl
@[simp] theorem setComp_br (s : State) (c : Comp) : (s.setComp c).br = s.br := rfl
@[simp] theorem setComp_sp (s : State) (c : Comp) : (s.setComp c).sp = c.sp := rfl
@[simp] theorem setComp_hp (s : State) (c : Comp) : (s.setComp c).hp = c.hp := rfl
@[simp] theorem setComp_dp (s : State) (c : Comp) : (s.setComp c).dp = s.dp := rfl
@[simp] theorem setComp_ht (s : State) (c : Comp) : (s.setComp c).ht = c.ht := rfl
@[simp] theorem setComp_ibuf (s : State) (c : Comp) : (s.setComp c).ibuf = s.ibuf := rfl
@[simp] theorem setComp_obuf (s : State) (c : Comp) : (s.setComp c).obuf = c.out.obuf := rfl
@[simp] theorem setComp_pos (s : State) (c : Comp) : (s.setComp c).pos = s.pos := rfl
@[simp] theorem setComp_turns (s : State) (c : Comp) : (s.setComp c).turns = s.turns := rfl
@[simp] theorem setComp_rdata (s : State) (c : Comp) : (s.setComp c).rdata = s.rdata := rfl
@[simp] theorem setComp_draws (s : State) (c : Comp) : (s.setComp c).draws = s.draws := rfl

/-! ### `setDec`: the decompressor's part -/

@[simp] theorem setDec_cmd (s : State) (d : Dec) : (s.setDec d).cmd = s.cmd := rfl
@[simp] theorem setDec_fault (s : State) (d : Dec) : (s.setDec d).fault = s.fault := rfl
@[simp] theorem setDec_ilen (s : State) (d : Dec) : (s.setDec d).ilen = s.ilen := rfl
@[simp] theorem setDec_rawlen (s : State) (d : Dec) : (s.setDec d).rawlen = s.rawlen := rfl
@[simp] theorem setDec_olen (s : State) (d : Dec) : (s.setDec d).olen = s.olen := rfl
@[simp] theorem setDec_opad (s : State) (d : Dec) : (s.setDec d).opad = s.opad := rfl
@[simp] theorem setDec_vk (s : State) (d : Dec) : (s.setDec d).vk = s.vk := rfl
@[simp] theorem setDec_phase (s : State) (d : Dec) : (s.setDec d).phase = s.phase := rfl
@[simp] theorem setDec_vok (s : State) (d : Dec) : (s.setDec d).vok = s.vok := rfl
@[simp] theorem setDec_rle (s : State) (d : Dec) : (s.setDec d).rle = s.rle := rfl
@[simp] theorem setDec_flip (s : State) (d : Dec) : (s.setDec d).flip = s.flip := rfl
@[simp] theorem setDec_bw (s : State) (d : Dec) : (s.setDec d).bw = s.bw := rfl
@[simp] theorem setDec_br (s : State) (d : Dec) : (s.setDec d).br = d.br := rfl
@[simp] theorem setDec_sp (s : State) (d : Dec) : (s.setDec d).sp = s.sp := rfl
@[simp] theorem setDec_hp (s : State) (d : Dec) : (s.setDec d).hp = s.hp := rfl
@[simp] theorem setDec_dp (s : State) (d : Dec) : (s.setDec d).dp = d.dp := rfl
@[simp] theorem setDec_ht (s : State) (d : Dec) : (s.setDec d).ht = s.ht := rfl
@[simp] theorem setDec_ibuf (s : State) (d : Dec) : (s.setDec d).ibuf = s.ibuf := rfl
@[simp] theorem setDec_obuf (s : State) (d : Dec) : (s.setDec d).obuf = d.obuf := rfl
@[simp] theorem setDec_pos (s : State) (d : Dec) : (s.setDec d).pos = s.pos := rfl
@[simp] theorem setDec_turns (s : State) (d : Dec) : (s.setDec d).turns = s.turns := rfl
@[simp] theorem setDec_rdata (s : State) (d : Dec) : (s.setDec d).rdata = s.rdata := rfl
@[simp] theorem setDec_draws (s : State) (d : Dec) : (s.setDec d).draws = s.draws := rfl

/-! ### `setVerified`: the flags of `VERIFY` -/

@[simp] theorem setVerified_cmd (k : Nat) (s : State) : (setVerified k s).cmd = s.cmd := rfl
@[simp] theorem setVerified_fault (k : Nat) (s : State) : (setVerified k s).fault = s.fault := rfl
@[simp] theorem setVerified_ilen (k : Nat) (s : State) : (setVerified k s).ilen = s.ilen := rfl
@[simp] theorem setVerified_rawlen (k : Nat) (s : State) : (setVerified k s).rawlen = s.rawlen := rfl
@[simp] theorem setVerified_olen (k : Nat) (s : State) : (setVerified k s).olen = s.olen := rfl
@[simp] theorem setVerified_opad (k : Nat) (s : State) : (setVerified k s).opad = s.opad := rfl
@[simp] theorem setVerified_vk (k : Nat) (s : State) : (setVerified k s).vk = BitVec.ofNat 3 k := rfl
@[simp] theorem setVerified_phase (k : Nat) (s : State) : (setVerified k s).phase = s.phase := rfl
@[simp] theorem setVerified_vok (k : Nat) (s : State) : (setVerified k s).vok = true := rfl
@[simp] theorem setVerified_rle (k : Nat) (s : State) : (setVerified k s).rle = s.rle := rfl
@[simp] theorem setVerified_flip (k : Nat) (s : State) : (setVerified k s).flip = s.flip := rfl
@[simp] theorem setVerified_bw (k : Nat) (s : State) : (setVerified k s).bw = s.bw := rfl
@[simp] theorem setVerified_br (k : Nat) (s : State) : (setVerified k s).br = s.br := rfl
@[simp] theorem setVerified_sp (k : Nat) (s : State) : (setVerified k s).sp = s.sp := rfl
@[simp] theorem setVerified_hp (k : Nat) (s : State) : (setVerified k s).hp = s.hp := rfl
@[simp] theorem setVerified_dp (k : Nat) (s : State) : (setVerified k s).dp = s.dp := rfl
@[simp] theorem setVerified_ht (k : Nat) (s : State) : (setVerified k s).ht = s.ht := rfl
@[simp] theorem setVerified_ibuf (k : Nat) (s : State) : (setVerified k s).ibuf = s.ibuf := rfl
@[simp] theorem setVerified_obuf (k : Nat) (s : State) : (setVerified k s).obuf = s.obuf := rfl
@[simp] theorem setVerified_pos (k : Nat) (s : State) : (setVerified k s).pos = s.pos := rfl
@[simp] theorem setVerified_turns (k : Nat) (s : State) : (setVerified k s).turns = s.turns := rfl
@[simp] theorem setVerified_rdata (k : Nat) (s : State) : (setVerified k s).rdata = s.rdata := rfl
@[simp] theorem setVerified_draws (k : Nat) (s : State) : (setVerified k s).draws = s.draws := rfl

/-! ### `setResolved`: the flags of `RESOLVE` -/

@[simp] theorem setResolved_cmd (le flipped : Bool) (s : State) : (setResolved le flipped s).cmd = s.cmd := rfl
@[simp] theorem setResolved_fault (le flipped : Bool) (s : State) : (setResolved le flipped s).fault = s.fault := rfl
@[simp] theorem setResolved_ilen (le flipped : Bool) (s : State) : (setResolved le flipped s).ilen = s.ilen := rfl
@[simp] theorem setResolved_rawlen (le flipped : Bool) (s : State) : (setResolved le flipped s).rawlen = s.rawlen := rfl
@[simp] theorem setResolved_olen (le flipped : Bool) (s : State) : (setResolved le flipped s).olen = s.olen := rfl
@[simp] theorem setResolved_opad (le flipped : Bool) (s : State) : (setResolved le flipped s).opad = s.opad := rfl
@[simp] theorem setResolved_vk (le flipped : Bool) (s : State) : (setResolved le flipped s).vk = s.vk := rfl
@[simp] theorem setResolved_phase (le flipped : Bool) (s : State) : (setResolved le flipped s).phase = s.phase := rfl
@[simp] theorem setResolved_vok (le flipped : Bool) (s : State) : (setResolved le flipped s).vok = s.vok := rfl
@[simp] theorem setResolved_rle (le flipped : Bool) (s : State) : (setResolved le flipped s).rle = le := rfl
@[simp] theorem setResolved_flip (le flipped : Bool) (s : State) : (setResolved le flipped s).flip = flipped := rfl
@[simp] theorem setResolved_bw (le flipped : Bool) (s : State) : (setResolved le flipped s).bw = s.bw := rfl
@[simp] theorem setResolved_br (le flipped : Bool) (s : State) : (setResolved le flipped s).br = s.br := rfl
@[simp] theorem setResolved_sp (le flipped : Bool) (s : State) : (setResolved le flipped s).sp = s.sp := rfl
@[simp] theorem setResolved_hp (le flipped : Bool) (s : State) : (setResolved le flipped s).hp = s.hp := rfl
@[simp] theorem setResolved_dp (le flipped : Bool) (s : State) : (setResolved le flipped s).dp = s.dp := rfl
@[simp] theorem setResolved_ht (le flipped : Bool) (s : State) : (setResolved le flipped s).ht = s.ht := rfl
@[simp] theorem setResolved_ibuf (le flipped : Bool) (s : State) : (setResolved le flipped s).ibuf = s.ibuf := rfl
@[simp] theorem setResolved_obuf (le flipped : Bool) (s : State) : (setResolved le flipped s).obuf = s.obuf := rfl
@[simp] theorem setResolved_pos (le flipped : Bool) (s : State) : (setResolved le flipped s).pos = s.pos := rfl
@[simp] theorem setResolved_turns (le flipped : Bool) (s : State) : (setResolved le flipped s).turns = s.turns := rfl
@[simp] theorem setResolved_rdata (le flipped : Bool) (s : State) : (setResolved le flipped s).rdata = s.rdata := rfl
@[simp] theorem setResolved_draws (le flipped : Bool) (s : State) : (setResolved le flipped s).draws = s.draws := rfl

/-! ### `decompressDone`: the results of `DECOMPRESS` -/

@[simp] theorem decompressDone_cmd (s : State) : (decompressDone s).cmd = s.cmd := rfl
@[simp] theorem decompressDone_fault (s : State) : (decompressDone s).fault = s.fault := rfl
@[simp] theorem decompressDone_ilen (s : State) : (decompressDone s).ilen = s.ilen := rfl
@[simp] theorem decompressDone_rawlen (s : State) : (decompressDone s).rawlen = s.rawlen := rfl
@[simp] theorem decompressDone_olen (s : State) : (decompressDone s).olen = BitVec.ofNat 18 s.rawLen := rfl
@[simp] theorem decompressDone_opad (s : State) : (decompressDone s).opad = BitVec.ofNat 18 s.rawLen := rfl
@[simp] theorem decompressDone_vk (s : State) : (decompressDone s).vk = s.vk := rfl
@[simp] theorem decompressDone_phase (s : State) : (decompressDone s).phase = .done := rfl
@[simp] theorem decompressDone_vok (s : State) : (decompressDone s).vok = s.vok := rfl
@[simp] theorem decompressDone_rle (s : State) : (decompressDone s).rle = s.rle := rfl
@[simp] theorem decompressDone_flip (s : State) : (decompressDone s).flip = s.flip := rfl
@[simp] theorem decompressDone_bw (s : State) : (decompressDone s).bw = s.bw := rfl
@[simp] theorem decompressDone_br (s : State) : (decompressDone s).br = s.br := rfl
@[simp] theorem decompressDone_sp (s : State) : (decompressDone s).sp = s.sp := rfl
@[simp] theorem decompressDone_hp (s : State) : (decompressDone s).hp = s.hp := rfl
@[simp] theorem decompressDone_dp (s : State) : (decompressDone s).dp = s.dp := rfl
@[simp] theorem decompressDone_ht (s : State) : (decompressDone s).ht = s.ht := rfl
@[simp] theorem decompressDone_ibuf (s : State) : (decompressDone s).ibuf = s.ibuf := rfl
@[simp] theorem decompressDone_obuf (s : State) : (decompressDone s).obuf = s.obuf := rfl
@[simp] theorem decompressDone_pos (s : State) : (decompressDone s).pos = .start := rfl
@[simp] theorem decompressDone_turns (s : State) : (decompressDone s).turns = s.turns := rfl
@[simp] theorem decompressDone_rdata (s : State) : (decompressDone s).rdata = s.rdata := rfl
@[simp] theorem decompressDone_draws (s : State) : (decompressDone s).draws = s.draws := rfl

/-! ### `compressDone`: the results of `COMPRESS` -/

@[simp] theorem compressDone_cmd (c : Comp) (s : State) : (compressDone c s).cmd = s.cmd := rfl
@[simp] theorem compressDone_fault (c : Comp) (s : State) : (compressDone c s).fault = s.fault := rfl
@[simp] theorem compressDone_ilen (c : Comp) (s : State) : (compressDone c s).ilen = s.ilen := rfl
@[simp] theorem compressDone_rawlen (c : Comp) (s : State) : (compressDone c s).rawlen = s.rawlen := rfl
@[simp] theorem compressDone_olen (c : Comp) (s : State) : (compressDone c s).olen = BitVec.ofNat 18 c.out.bw.wp := rfl
@[simp] theorem compressDone_opad (c : Comp) (s : State) : (compressDone c s).opad = BitVec.ofNat 18 (padded c.out.bw.wp) := rfl
@[simp] theorem compressDone_vk (c : Comp) (s : State) : (compressDone c s).vk = s.vk := rfl
@[simp] theorem compressDone_phase (c : Comp) (s : State) : (compressDone c s).phase = .done := rfl
@[simp] theorem compressDone_vok (c : Comp) (s : State) : (compressDone c s).vok = s.vok := rfl
@[simp] theorem compressDone_rle (c : Comp) (s : State) : (compressDone c s).rle = s.rle := rfl
@[simp] theorem compressDone_flip (c : Comp) (s : State) : (compressDone c s).flip = s.flip := rfl
@[simp] theorem compressDone_bw (c : Comp) (s : State) : (compressDone c s).bw = c.out.bw := rfl
@[simp] theorem compressDone_br (c : Comp) (s : State) : (compressDone c s).br = s.br := rfl
@[simp] theorem compressDone_sp (c : Comp) (s : State) : (compressDone c s).sp = c.sp := rfl
@[simp] theorem compressDone_hp (c : Comp) (s : State) : (compressDone c s).hp = c.hp := rfl
@[simp] theorem compressDone_dp (c : Comp) (s : State) : (compressDone c s).dp = s.dp := rfl
@[simp] theorem compressDone_ht (c : Comp) (s : State) : (compressDone c s).ht = c.ht := rfl
@[simp] theorem compressDone_ibuf (c : Comp) (s : State) : (compressDone c s).ibuf = s.ibuf := rfl
@[simp] theorem compressDone_obuf (c : Comp) (s : State) : (compressDone c s).obuf = c.out.obuf := rfl
@[simp] theorem compressDone_pos (c : Comp) (s : State) : (compressDone c s).pos = .start := rfl
@[simp] theorem compressDone_turns (c : Comp) (s : State) : (compressDone c s).turns = s.turns := rfl
@[simp] theorem compressDone_rdata (c : Comp) (s : State) : (compressDone c s).rdata = s.rdata := rfl
@[simp] theorem compressDone_draws (c : Comp) (s : State) : (compressDone c s).draws = s.draws := rfl

/-! ### The lengths and the parts -/

@[simp] theorem raise_inLen (c : Cause) (s : State) : (raise c s).inLen = s.inLen := rfl
@[simp] theorem raise_rawLen (c : Cause) (s : State) : (raise c s).rawLen = s.rawLen := rfl
@[simp] theorem raise_le (c : Cause) (s : State) : (raise c s).le = s.le := rfl
@[simp] theorem complete_inLen (s : State) : (complete s).inLen = s.inLen := rfl
@[simp] theorem complete_rawLen (s : State) : (complete s).rawLen = s.rawLen := rfl
@[simp] theorem complete_le (s : State) : (complete s).le = s.le := rfl
@[simp] theorem acceptCommand_inLen (w : Word) (s : State) : (acceptCommand w s).inLen = s.inLen := rfl
@[simp] theorem acceptCommand_rawLen (w : Word) (s : State) : (acceptCommand w s).rawLen = s.rawLen := rfl
@[simp] theorem setComp_inLen (s : State) (c : Comp) : (s.setComp c).inLen = s.inLen := rfl
@[simp] theorem setComp_rawLen (s : State) (c : Comp) : (s.setComp c).rawLen = s.rawLen := rfl
@[simp] theorem setComp_le (s : State) (c : Comp) : (s.setComp c).le = s.le := rfl
@[simp] theorem setDec_inLen (s : State) (d : Dec) : (s.setDec d).inLen = s.inLen := rfl
@[simp] theorem setDec_rawLen (s : State) (d : Dec) : (s.setDec d).rawLen = s.rawLen := rfl
@[simp] theorem setDec_le (s : State) (d : Dec) : (s.setDec d).le = s.le := rfl
@[simp] theorem setVerified_inLen (k : Nat) (s : State) : (setVerified k s).inLen = s.inLen := rfl
@[simp] theorem setVerified_rawLen (k : Nat) (s : State) : (setVerified k s).rawLen = s.rawLen := rfl
@[simp] theorem setVerified_le (k : Nat) (s : State) : (setVerified k s).le = s.le := rfl
@[simp] theorem setResolved_inLen (le flipped : Bool) (s : State) : (setResolved le flipped s).inLen = s.inLen := rfl
@[simp] theorem setResolved_rawLen (le flipped : Bool) (s : State) : (setResolved le flipped s).rawLen = s.rawLen := rfl
@[simp] theorem setResolved_le (le flipped : Bool) (s : State) : (setResolved le flipped s).le = s.le := rfl
@[simp] theorem decompressDone_inLen (s : State) : (decompressDone s).inLen = s.inLen := rfl
@[simp] theorem decompressDone_rawLen (s : State) : (decompressDone s).rawLen = s.rawLen := rfl
@[simp] theorem decompressDone_le (s : State) : (decompressDone s).le = s.le := rfl
@[simp] theorem compressDone_inLen (c : Comp) (s : State) : (compressDone c s).inLen = s.inLen := rfl
@[simp] theorem compressDone_rawLen (c : Comp) (s : State) : (compressDone c s).rawLen = s.rawLen := rfl
@[simp] theorem compressDone_le (c : Comp) (s : State) : (compressDone c s).le = s.le := rfl

@[simp] theorem setDec_dec (s : State) (d : Dec) : (s.setDec d).dec = d := rfl
@[simp] theorem setDec_self (s : State) : s.setDec s.dec = s := rfl
@[simp] theorem setDec_setDec (s : State) (d d' : Dec) : (s.setDec d).setDec d' = s.setDec d' := rfl
@[simp] theorem dec_br (s : State) : s.dec.br = s.br := rfl
@[simp] theorem dec_dp (s : State) : s.dec.dp = s.dp := rfl
@[simp] theorem dec_obuf (s : State) : s.dec.obuf = s.obuf := rfl

end Sys2Proof.Machine
end

