-- ==== Sys2Proof/Laws/Commands.lean ====
section
/-! SUPPORT. What `VERIFY`, `RESOLVE`, a reserved word and the host's accesses can do, said once for each. -/

namespace Sys2Proof.Machine

/-- The three ways `VERIFY` can end (44_verify R191). -/
theorem verifyWith_cases (digest : List Byte → Vector Byte 16) (s : State) :
    (inCap < s.inLen ∧ verifyWith digest s = raise .ilenRange s) ∨
    (s.inLen ≤ inCap ∧ verifyLoop digest s.ibuf s.inLen (padTol + 1) 0 = none ∧
      verifyWith digest s = raise .noMatch s) ∨
    (s.inLen ≤ inCap ∧ ∃ k, verifyLoop digest s.ibuf s.inLen (padTol + 1) 0 = some k ∧
      verifyWith digest s = complete (setVerified k s)) := by
  unfold verifyWith
  by_cases h : inCap < s.inLen
  · exact .inl ⟨h, if_pos h⟩
  · rw [if_neg h]
    rcases hv : verifyLoop digest s.ibuf s.inLen (padTol + 1) 0 with _ | k
    · exact .inr (.inl ⟨by omega, rfl, rfl⟩)
    · exact .inr (.inr ⟨by omega, k, rfl, rfl⟩)

theorem verifyWith_phase (digest : List Byte → Vector Byte 16) (s : State) :
    (verifyWith digest s).phase = .done ∨ (verifyWith digest s).phase = .flt := by
  rcases verifyWith_cases digest s with ⟨-, h⟩ | ⟨-, -, h⟩ | ⟨-, _, -, h⟩ <;> simp [h]

/-- The five ways `RESOLVE` can end (44_verify R196). -/
theorem resolveWith_cases (le : Bool) (s : State) :
    (inCap < s.inLen ∧ resolveWith le s = raise .ilenRange s) ∨
    (s.inLen < 4 ∧ resolveWith le s = raise .shortBuffer s) ∨
    (4 ≤ s.inLen ∧ s.inLen ≤ inCap ∧ (sizeField le s).toNat ≤ sizeMax ∧
      resolveWith le s = resolveDone le false s) ∨
    (4 ≤ s.inLen ∧ s.inLen ≤ inCap ∧ sizeMax < (sizeField le s).toNat ∧ (sizeField (!le) s).toNat ≤ sizeMax ∧
      resolveWith le s = resolveDone (!le) true s) ∨
    (4 ≤ s.inLen ∧ s.inLen ≤ inCap ∧ sizeMax < (sizeField le s).toNat ∧ sizeMax < (sizeField (!le) s).toNat ∧
      resolveWith le s = raise .sizeBothOrders s) := by
  unfold resolveWith
  by_cases h₁ : inCap < s.inLen
  · exact .inl ⟨h₁, if_pos h₁⟩
  · rw [if_neg h₁]
    by_cases h₂ : s.inLen < sizeFieldLen
    · exact .inr (.inl ⟨h₂, if_pos h₂⟩)
    · have h₂' : 4 ≤ s.inLen := by unfold sizeFieldLen at h₂; omega
      rw [if_neg h₂]
      by_cases h₃ : (sizeField le s).toNat ≤ sizeMax
      · exact .inr (.inr (.inl ⟨h₂', by omega, h₃, if_pos h₃⟩))
      · rw [if_neg h₃]
        by_cases h₄ : (sizeField (!le) s).toNat ≤ sizeMax
        · exact .inr (.inr (.inr (.inl ⟨h₂', by omega, by omega, h₄, if_pos h₄⟩)))
        · exact .inr (.inr (.inr (.inr ⟨h₂', by omega, by omega, by omega, if_neg h₄⟩)))

theorem resolveWith_phase (le : Bool) (s : State) :
    (resolveWith le s).phase = .done ∨ (resolveWith le s).phase = .flt := by
  rcases resolveWith_cases le s with ⟨-, h⟩ | ⟨-, h⟩ | ⟨-, -, -, h⟩ | ⟨-, -, -, -, h⟩ | ⟨-, -, -, -, h⟩ <;>
    simp [h, resolveDone]

/-- A forbidden or impossible buffer access changes nothing; any other gives the state asked for. -/
theorem bufferMove_next_iff {a cap : Nat} {s s' t : State} :
    bufferMove a cap s s' = .next t ↔ s.phase ≠ .run ∧ a < cap ∧ t = s' := by
  unfold bufferMove
  by_cases h : s.phase = .run
  · simp [h]
  · by_cases hc : cap ≤ a
    · simp [h, hc]
    · have : a < cap := by omega
      simp [h, this, Nat.not_le.2 this, eq_comm]

/-- `FAULT` is never zero after a fault. -/
theorem faultCode_ne_zero (c : Cause) : faultCode c ≠ 0 := by cases c <;> decide

/-- Every cause has its own code (60_exceptions R231 to R236). -/
theorem faultCode_injective {c c' : Cause} (h : faultCode c = faultCode c') : c = c' := by
  revert h; cases c <;> cases c' <;> decide

end Sys2Proof.Machine
end

