-- ==== Sys2Proof/Laws/Compress.lean ====
section
/-! SUPPORT. What the dictionary's and the compressor's operations can do, said once for each. -/

namespace Sys2Proof.Machine

/-! ### The dictionary -/

theorem htLookup_htInsert (hash : Hash) (ibuf : Mem) (p q : Nat) (t : HashTable) :
    htLookup hash ibuf q (htInsert hash ibuf p t) =
      if hashAt hash ibuf q = hashAt hash ibuf p then some p else htLookup hash ibuf q t :=
  htSlot_htPut _ _ _ _

@[simp] theorem htLookup_htClear (hash : Hash) (ibuf : Mem) (p : Nat) : htLookup hash ibuf p htClear = none := rfl

theorem indexLoop_succ (hash : Hash) (ibuf : Mem) (fuel hp : Nat) (t : HashTable) :
    indexLoop hash ibuf (fuel + 1) hp t = indexLoop hash ibuf fuel (hp + 1) (htInsert hash ibuf hp t) := rfl

theorem indexLoop_add (hash : Hash) (ibuf : Mem) (k n hp : Nat) (t : HashTable) :
    indexLoop hash ibuf (k + n) hp t = indexLoop hash ibuf n (hp + k) (indexLoop hash ibuf k hp t) := by
  induction k generalizing hp t with
  | zero => simp [indexLoop]
  | succ k ih => rw [Nat.succ_add, indexLoop_succ, indexLoop_succ, ih, show hp + 1 + k = hp + (k + 1) by omega]

@[simp] theorem indexUpto_out (hash : Hash) (ibuf : Mem) (s : Nat) (c : Comp) :
    (indexUpto hash ibuf s c).out = c.out := rfl
@[simp] theorem indexUpto_sp (hash : Hash) (ibuf : Mem) (s : Nat) (c : Comp) :
    (indexUpto hash ibuf s c).sp = c.sp := rfl
@[simp] theorem indexUpto_hp (hash : Hash) (ibuf : Mem) (s : Nat) (c : Comp) :
    (indexUpto hash ibuf s c).hp = max c.hp s := rfl
@[simp] theorem indexUpto_ht (hash : Hash) (ibuf : Mem) (s : Nat) (c : Comp) :
    (indexUpto hash ibuf s c).ht = indexLoop hash ibuf (s - c.hp) c.hp c.ht := rfl

/-! ### The compressor -/

/-- The four things `NORMALISE` can do (42_compress R150). -/
theorem normalise_cases (s : State) :
    (s.inLen = 0 ∧ normalise s = .error .emptyInput) ∨
    (s.inLen ≠ 0 ∧ memRead s.ibuf (s.inLen - 1) ≠ 0 ∧ s.inLen = inCap ∧ normalise s = .error .inputTooLong) ∨
    (s.inLen ≠ 0 ∧ memRead s.ibuf (s.inLen - 1) ≠ 0 ∧ s.inLen ≠ inCap ∧
      normalise s =
        .ok { s with ibuf := memWrite s.ibuf s.inLen 0, rawlen := BitVec.ofNat 32 (s.inLen + 1) }) ∨
    (s.inLen ≠ 0 ∧ memRead s.ibuf (s.inLen - 1) = 0 ∧
      normalise s = .ok { s with rawlen := BitVec.ofNat 32 s.inLen }) := by
  unfold normalise
  by_cases h0 : s.inLen = 0
  · exact .inl ⟨h0, by simp [h0]⟩
  · by_cases hz : memRead s.ibuf (s.inLen - 1) = 0
    · exact .inr (.inr (.inr ⟨h0, hz, by simp [h0, hz]⟩))
    · by_cases hc : s.inLen = inCap
      · exact .inr (.inl ⟨h0, hz, hc, by rw [if_neg h0, if_pos hz, if_pos hc]⟩)
      · exact .inr (.inr (.inl ⟨h0, hz, hc, by rw [if_neg h0, if_pos hz, if_neg hc]⟩))

/-- A match is taken only where the dictionary has a candidate, at the candidate's full match length (42_compress R154). -/
theorem findMatch_eq_some_iff {hash : Hash} {ibuf : Mem} {rawLen mlen dist : Nat} {c : Comp} :
    findMatch hash ibuf rawLen c = some (mlen, dist) ↔
      ∃ cand, htLookup hash ibuf c.sp c.ht = some cand ∧ minMatch ≤ mlen ∧
        mlen = matchLen ibuf rawLen cand c.sp ∧ dist = c.sp - cand := by
  unfold findMatch
  rcases htLookup hash ibuf c.sp c.ht with _ | cand
  · simp
  · by_cases h : minMatch ≤ matchLen ibuf rawLen cand c.sp
    · simp only [h, if_true, Option.some.injEq, Prod.mk.injEq]
      constructor
      · rintro ⟨rfl, rfl⟩; exact ⟨cand, rfl, h, rfl, rfl⟩
      · rintro ⟨_, rfl, -, rfl, rfl⟩; exact ⟨rfl, rfl⟩
    · simp only [h, if_false, Option.some.injEq, reduceCtorEq, false_iff]
      rintro ⟨_, rfl, h₁, rfl, -⟩
      exact h h₁

theorem literalStep_ok_iff {le : Bool} {ibuf : Mem} {c c' : Comp} :
    literalStep le ibuf c = .ok c' ↔
      ∃ o, emitLit le (memRead ibuf c.sp) c.out = .ok o ∧ c' = { c with out := o, sp := c.sp + 1 } := by
  unfold literalStep
  cases emitLit le (memRead ibuf c.sp) c.out <;> simp [eq_comm]

theorem matchStep_ok_iff {le : Bool} {mlen dist : Nat} {c c' : Comp} :
    matchStep le mlen dist c = .ok c' ↔
      ∃ o, emitToken le (.copy mlen dist) c.out = .ok o ∧ c' = { c with out := o, sp := c.sp + mlen } := by
  unfold matchStep
  cases emitToken le (.copy mlen dist) c.out <;> simp [eq_comm]

/-- An iteration of `C_MAIN` emits one token, a match or a literal (42_compress R152). -/
theorem mainStep_ok_cases {hash : Hash} {le : Bool} {ibuf : Mem} {rawLen : Nat} {c c' : Comp}
    (h : mainStep hash le ibuf rawLen c = .ok c') :
    (∃ mlen dist, findMatch hash ibuf rawLen (indexUpto hash ibuf c.sp c) = some (mlen, dist) ∧
      matchStep le mlen dist (indexUpto hash ibuf c.sp c) = .ok c') ∨
    (findMatch hash ibuf rawLen (indexUpto hash ibuf c.sp c) = none ∧
      literalStep le ibuf (indexUpto hash ibuf c.sp c) = .ok c') := by
  unfold mainStep at h
  rcases hf : findMatch hash ibuf rawLen (indexUpto hash ibuf c.sp c) with _ | ⟨mlen, dist⟩
  · exact .inr ⟨rfl, by simpa [hf] using h⟩
  · exact .inl ⟨mlen, dist, rfl, by simpa [hf] using h⟩

theorem cMain_succ (hash : Hash) (le : Bool) (ibuf : Mem) (rawLen fuel : Nat) (c : Comp) :
    cMain hash le ibuf rawLen (fuel + 1) c =
      if 4 ≤ rawLen - c.sp then mainStep hash le ibuf rawLen c >>= cMain hash le ibuf rawLen fuel else .ok c := rfl

theorem cTail_succ (le : Bool) (ibuf : Mem) (rawLen fuel : Nat) (c : Comp) :
    cTail le ibuf rawLen (fuel + 1) c =
      if c.sp < rawLen then literalStep le ibuf c >>= cTail le ibuf rawLen fuel else .ok c := rfl

theorem cFinish_ok_iff {le : Bool} {c c' : Comp} :
    cFinish le c = .ok c' ↔ ∃ o, finishOut le c.out = .ok o ∧ c' = { c with out := o } := by
  unfold cFinish
  cases finishOut le c.out <;> simp [eq_comm]

/-- The ways `COMPRESS` can end (42_compress R160). -/
theorem compressWith_cases (hash : Hash) (le : Bool) (s : State) :
    (inCap < s.inLen ∧ compressWith hash le s = raise .ilenRange s) ∨
    (s.inLen ≤ inCap ∧ ∃ cause, normalise s = .error cause ∧ compressWith hash le s = raise cause s) ∨
    (s.inLen ≤ inCap ∧ ∃ s' c, normalise s = .ok s' ∧
      compressBody hash le s'.ibuf s'.rawLen s'.obuf = .error c ∧
      compressWith hash le s = raise .outOverflow (s'.setComp c)) ∨
    (s.inLen ≤ inCap ∧ ∃ s' c, normalise s = .ok s' ∧
      compressBody hash le s'.ibuf s'.rawLen s'.obuf = .ok c ∧ compressWith hash le s = compressDone c s') := by
  unfold compressWith
  by_cases h : inCap < s.inLen
  · exact .inl ⟨h, by simp [h]⟩
  · refine .inr ?_
    rw [if_neg h]
    rcases hn : normalise s with cause | s'
    · exact .inl ⟨by omega, cause, rfl, rfl⟩
    · rcases hb : compressBody hash le s'.ibuf s'.rawLen s'.obuf with c | c
      · exact .inr (.inl ⟨by omega, s', c, rfl, hb, by simp [hb]⟩)
      · exact .inr (.inr ⟨by omega, s', c, rfl, hb, by simp [hb]⟩)

/-- `COMPRESS` ends in `DONE` or in `FLT`. -/
theorem compressWith_phase (hash : Hash) (le : Bool) (s : State) :
    (compressWith hash le s).phase = .done ∨ (compressWith hash le s).phase = .flt := by
  rcases compressWith_cases hash le s with ⟨-, h⟩ | ⟨-, _, -, h⟩ | ⟨-, _, _, -, -, h⟩ | ⟨-, _, _, -, -, h⟩ <;>
    simp [h]

end Sys2Proof.Machine
end

