-- ==== Sys2Proof/Laws/Decompress.lean ====
section
/-! SUPPORT. What the decompressor's operations can do, said once for each. -/

namespace Sys2Proof.Machine

/-- The four things `D_INIT` can do (43_decompress R171). -/
theorem dInit_cases (le : Bool) (s : State) :
    (sizeMax < s.rawLen ∧ dInit le s = .error (.rawlenRange, s.dec)) ∨
    (s.rawLen = 0 ∧ dInit le s = .error (.zeroLength, s.dec)) ∨
    (0 < s.rawLen ∧ s.rawLen ≤ sizeMax ∧ s.inLen ≤ 4 ∧ dInit le s = .error (.srcUnderrun, dStart s)) ∨
    (0 < s.rawLen ∧ s.rawLen ≤ sizeMax ∧ 4 < s.inLen ∧
      dInit le s = .ok { br := { racc := 0, rcnt := 0, rp := 5 }, dp := 1,
                         obuf := memWrite s.obuf 0 (memRead s.ibuf 4) }) := by
  unfold dInit
  by_cases h₁ : sizeMax < s.rawLen
  · exact .inl ⟨h₁, if_pos h₁⟩
  · rw [if_neg h₁]
    by_cases h₂ : s.rawLen = 0
    · exact .inr (.inl ⟨h₂, if_pos h₂⟩)
    · rw [if_neg h₂]
      by_cases h₃ : s.inLen ≤ 4
      · refine .inr (.inr (.inl ⟨by omega, by omega, h₃, ?_⟩))
        have : readByte (s.stream le) (dStart s).br = .error .srcUnderrun := by
          simp [readByte, dStart, brInit, State.stream, h₃]
        rw [this]
      · refine .inr (.inr (.inr ⟨by omega, by omega, by omega, ?_⟩))
        have : readByte (s.stream le) (dStart s).br = .ok (memRead s.ibuf 4, { racc := 0, rcnt := 0, rp := 5 }) := by
          simp [readByte, dStart, brInit, State.stream, h₃]
        rw [this]

/-- The three things a match can do (43_decompress R175). -/
theorem tokMatch_cases (rawLen mlen dist : Nat) (d : Dec) :
    (d.dp < dist ∧ tokMatch rawLen mlen dist d = .error .badDistance) ∨
    (dist ≤ d.dp ∧ rawLen - d.dp < mlen ∧ tokMatch rawLen mlen dist d = .error .outOverrun) ∨
    (dist ≤ d.dp ∧ mlen ≤ rawLen - d.dp ∧
      tokMatch rawLen mlen dist d =
        .ok { d with obuf := copyBytes mlen (d.dp - dist) d.dp d.obuf, dp := d.dp + mlen }) := by
  unfold tokMatch
  by_cases h₁ : d.dp < dist
  · exact .inl ⟨h₁, if_pos h₁⟩
  · rw [if_neg h₁]
    by_cases h₂ : rawLen - d.dp < mlen
    · exact .inr (.inl ⟨by omega, h₂, if_pos h₂⟩)
    · exact .inr (.inr ⟨by omega, by omega, if_neg h₂⟩)

/-- The copy writes nothing outside the bytes it produces. -/
theorem memRead_copyBytes_outside {count off dp a : Nat} {m : Mem} (h : a < dp ∨ dp + count ≤ a) :
    memRead (copyBytes count off dp m) a = memRead m a := by
  induction count generalizing off dp m with
  | zero => rfl
  | succ count ih => rw [copyBytes, ih (by omega), memRead_memWrite_other _ _ (by omega)]

theorem copyBytes_wf {m : Mem} (count off dp : Nat) (h : Mem.wf m) : Mem.wf (copyBytes count off dp m) := by
  induction count generalizing off dp m with
  | zero => exact h
  | succ count ih => exact ih _ _ (memWrite_wf _ _ h)

/-- What one iteration of `D_MAIN` can do (43_decompress R173). -/
theorem dStep_cases (src : Stream) (rawLen : Nat) (d : Dec) :
    (∃ e, fetchFrom src d.br = .error e ∧ dStep src rawLen d = .error (.srcUnderrun, d)) ∨
    (∃ t r cause, fetchFrom src d.br = .ok (t, r) ∧ tokenEffect rawLen t { d with br := r } = .error cause ∧
      dStep src rawLen d = .error (cause, { d with br := r })) ∨
    (∃ t r d', fetchFrom src d.br = .ok (t, r) ∧ tokenEffect rawLen t { d with br := r } = .ok d' ∧
      dStep src rawLen d = .ok d') := by
  unfold dStep
  rcases hf : fetchFrom src d.br with e | ⟨t, r⟩
  · exact .inl ⟨e, rfl, rfl⟩
  · rcases ht : tokenEffect rawLen t { d with br := r } with cause | d'
    · exact .inr (.inl ⟨t, r, cause, rfl, ht, by simp [ht]⟩)
    · exact .inr (.inr ⟨t, r, d', rfl, ht, by simp [ht]⟩)

theorem dMain_succ (src : Stream) (rawLen fuel : Nat) (d : Dec) :
    dMain src rawLen (fuel + 1) d =
      if d.dp < rawLen then dStep src rawLen d >>= dMain src rawLen fuel else .ok d := rfl

theorem dMain_of_done {src : Stream} {rawLen : Nat} (fuel : Nat) {d : Dec} (h : rawLen ≤ d.dp) :
    dMain src rawLen fuel d = .ok d := by
  cases fuel with
  | zero => rfl
  | succ fuel => rw [dMain_succ, if_neg (by omega)]

/-- The two ways `D_MAIN` and the results can end. -/
theorem decompressRest_cases (le : Bool) (s : State) :
    (∃ cause d, dMain (s.stream le) s.rawLen (s.rawLen - s.dp) s.dec = .error (cause, d) ∧
      decompressRest le s = raise cause (s.setDec d)) ∨
    (∃ d, dMain (s.stream le) s.rawLen (s.rawLen - s.dp) s.dec = .ok d ∧
      decompressRest le s = decompressDone (s.setDec d)) := by
  unfold decompressRest
  rcases dMain (s.stream le) s.rawLen (s.rawLen - s.dp) s.dec with ⟨cause, d⟩ | d
  · exact .inl ⟨cause, d, rfl, rfl⟩
  · exact .inr ⟨d, rfl, rfl⟩

/-- The ways `DECOMPRESS` can end (43_decompress R176). -/
theorem decompressWhole_cases (le : Bool) (s : State) :
    (inCap < s.inLen ∧ decompressWhole le s = raise .ilenRange s) ∨
    (s.inLen ≤ inCap ∧ ∃ cause d, dInit le s = .error (cause, d) ∧ decompressWhole le s = raise cause (s.setDec d)) ∨
    (s.inLen ≤ inCap ∧ ∃ d, dInit le s = .ok d ∧ decompressWhole le s = decompressRest le (s.setDec d)) := by
  unfold decompressWhole
  by_cases h : inCap < s.inLen
  · exact .inl ⟨h, if_pos h⟩
  · rw [if_neg h]
    rcases dInit le s with ⟨cause, d⟩ | d
    · exact .inr (.inl ⟨by omega, cause, d, rfl, rfl⟩)
    · exact .inr (.inr ⟨by omega, d, rfl, rfl⟩)

theorem decompressRest_phase (le : Bool) (s : State) :
    (decompressRest le s).phase = .done ∨ (decompressRest le s).phase = .flt := by
  rcases decompressRest_cases le s with ⟨_, _, -, h⟩ | ⟨_, -, h⟩ <;> simp [h]

/-- `DECOMPRESS` ends in `DONE` or in `FLT`. -/
theorem decompressWhole_phase (le : Bool) (s : State) :
    (decompressWhole le s).phase = .done ∨ (decompressWhole le s).phase = .flt := by
  rcases decompressWhole_cases le s with ⟨-, h⟩ | ⟨-, _, _, -, h⟩ | ⟨-, _, -, h⟩
  · simp [h]
  · simp [h]
  · rw [h]; exact decompressRest_phase _ _

/-- What `LIT b` can do. -/
theorem execLit_cases (b : Byte) (s : State) :
    (outCap ≤ s.dp ∧ execLit b s = .fault .noSuchAddress) ∨
    (s.dp < outCap ∧ execLit b s = .next { s with obuf := memWrite s.obuf s.dp b, dp := s.dp + 1 }) := by
  unfold execLit
  by_cases h : outCap ≤ s.dp
  · exact .inl ⟨h, if_pos h⟩
  · exact .inr ⟨by omega, if_neg h⟩

/-- What `MATCH mlen, D` can do. -/
theorem execMatch_cases (mlen dist : Nat) (s : State) :
    (s.dp < dist ∧ execMatch mlen dist s = .next (raise .badDistance s)) ∨
    (dist ≤ s.dp ∧ s.rawLen - s.dp < mlen ∧ execMatch mlen dist s = .next (raise .outOverrun s)) ∨
    (dist ≤ s.dp ∧ mlen ≤ s.rawLen - s.dp ∧ outCap < s.dp + mlen ∧
      execMatch mlen dist s = .fault .noSuchAddress) ∨
    (dist ≤ s.dp ∧ mlen ≤ s.rawLen - s.dp ∧ s.dp + mlen ≤ outCap ∧
      execMatch mlen dist s =
        .next { s with obuf := copyBytes mlen (s.dp - dist) s.dp s.obuf, dp := s.dp + mlen }) := by
  unfold execMatch
  rcases tokMatch_cases s.rawLen mlen dist s.dec with ⟨h₁, h⟩ | ⟨h₁, h₂, h⟩ | ⟨h₁, h₂, h⟩
  · exact .inl ⟨h₁, by rw [h]⟩
  · exact .inr (.inl ⟨h₁, h₂, by rw [h]⟩)
  · rw [h]
    by_cases hc : outCap < s.dp + mlen
    · exact .inr (.inr (.inl ⟨h₁, h₂, hc, if_pos hc⟩))
    · exact .inr (.inr (.inr ⟨h₁, h₂, by omega, if_neg hc⟩))

end Sys2Proof.Machine
end

