-- ==== Sys2Proof/Laws/PerInstr.lean ====
section
/-! SUPPORT. What the encoding of each instruction looks like: one lemma per constructor of `Instr`. -/

namespace Sys2Proof

theorem vlcDigits_length (v n : Nat) : (vlcDigits v n).length = 2 * n := by
  induction n with
  | zero => rfl
  | succ n ih => simp [vlcDigits, ih]; omega

/-- VLC(v) has `2 * floor(log2 v)` bits (30_encoding R99). -/
theorem vlcBits_length (v : Nat) (h : 2 ≤ v) : (vlcBits v h).length = 2 * Nat.log2 v := vlcDigits_length v _

/-- The flag bits of a match token. -/
theorem Token.flags_of_wf {mlen dist : Nat} (h : minMatch ≤ mlen ∧ 1 ≤ dist) :
    (Token.copy mlen dist).flags = matchFlags mlen dist h := dif_pos h

/-- The byte of a match token. -/
theorem Token.byte_of_wf {mlen dist : Nat} (h : minMatch ≤ mlen ∧ 1 ≤ dist) :
    (Token.copy mlen dist).byte = matchByte dist := if_pos h

end Sys2Proof

namespace Sys2Proof.Laws.EncodedFields

open Sys2Proof

/-- A command word has its operation in bits 2:0 and its byte order in bit 3 (30_encoding R91); a reserved word is itself
(R94); a well-formed token has its flag bits, as many as 42_compress R162 counts, and its byte (30_encoding R98). -/
def Statement : Instr → Prop
  | .compress le => ∃ w, encode (.compress le) = .word w ∧ w &&& cmdMask = 1 ∧ leOf w = le
  | .decompress le => ∃ w, encode (.decompress le) = .word w ∧ w &&& cmdMask = 2 ∧ leOf w = le
  | .verify le => ∃ w, encode (.verify le) = .word w ∧ w &&& cmdMask = 3 ∧ leOf w = le
  | .resolve le => ∃ w, encode (.resolve le) = .word w ∧ w &&& cmdMask = 4 ∧ leOf w = le
  | .reservedOp w => encode (.reservedOp w) = .word w
  | .lit b => encode (.lit b) = .token [false] b
  | .matchTok mlen dist => (Instr.matchTok mlen dist).wf = true → ∃ flags byte, encode (.matchTok mlen dist) = .token (true :: flags) byte ∧
      flags.length = 2 * Nat.log2 (mlen - 2) + 2 * Nat.log2 ((dist - 1) / 256 + 2) ∧ byte.toNat = (dist - 1) % 256

theorem compress (le : Bool) : Statement (.compress le) := ⟨_, rfl, by cases le <;> decide, by cases le <;> decide⟩

theorem decompress (le : Bool) : Statement (.decompress le) := ⟨_, rfl, by cases le <;> decide, by cases le <;> decide⟩

theorem verify (le : Bool) : Statement (.verify le) := ⟨_, rfl, by cases le <;> decide, by cases le <;> decide⟩

theorem resolve (le : Bool) : Statement (.resolve le) := ⟨_, rfl, by cases le <;> decide, by cases le <;> decide⟩

theorem reservedOp (w : Word) : Statement (.reservedOp w) := rfl

theorem lit (b : Byte) : Statement (.lit b) := rfl

theorem matchTok (mlen dist : Nat) : Statement (.matchTok mlen dist) := by
  intro hwf
  have h : minMatch ≤ mlen ∧ 1 ≤ dist := by simpa [Instr.wf] using hwf
  refine ⟨_, matchByte dist, by rw [encode, Token.flags_of_wf h, Token.byte_of_wf h]; rfl, ?_, ?_⟩
  · simp [vlcBits_length]
  · simp [matchByte]

end Sys2Proof.Laws.EncodedFields
end

