-- ==== Sys2Proof/Laws/Pipeline.lean ====
section
/-! SUPPORT. Laws of the pipeline's cipher and of what the host writes to `ILEN`. -/

namespace Sys2Proof.Machine

/-! ### The cipher in ECB mode (00_scope R6) -/

@[simp] theorem ecb_length (f : Vector Byte 8 → Vector Byte 8) (n : Nat) (x : List Byte) :
    (ecb f n x).length = 8 * n := by
  induction n generalizing x with
  | zero => rfl
  | succ n ih => simp [ecb, ih]; omega

/-- `CIPHER_ENC` gives a byte string of the same length (00_scope R6). -/
theorem encrypt_length (p : Params) (key : Vector Byte 8) {x : List Byte} (h : x.length % 8 = 0) :
    (encrypt p key x).length = x.length := by
  rw [encrypt, ecb_length, padBlock]; omega

/-- `CIPHER_DEC` gives a byte string of the same length (00_scope R6). -/
theorem decrypt_length (p : Params) (key : Vector Byte 8) {x : List Byte} (h : x.length % 8 = 0) :
    (decrypt p key x).length = x.length := by
  rw [decrypt, ecb_length, padBlock]; omega

theorem blockOf_append (b : Vector Byte 8) (x : List Byte) : blockOf (b.toList ++ x) = b := by
  ext i hi
  simp [blockOf, List.getElem?_append]

theorem blockOf_toList {x : List Byte} (h : 8 ≤ x.length) : (blockOf x).toList = x.take 8 := by
  refine List.ext_getElem (by simp; omega) fun i h₁ h₂ => ?_
  have hi : i < 8 := by simpa using h₁
  have hx : i < x.length := by omega
  simp [blockOf, hx]

/-- Block functions that undo each other undo each other on byte strings. -/
theorem ecb_ecb {f g : Vector Byte 8 → Vector Byte 8} (h : ∀ b, g (f b) = b) :
    ∀ (n : Nat) (x : List Byte), 8 * n ≤ x.length → ecb g n (ecb f n x) = x.take (8 * n) := by
  intro n
  induction n with
  | zero => simp [ecb]
  | succ n ih =>
    intro x hx
    have hd : ((f (blockOf x)).toList ++ ecb f n (x.drop padBlock)).drop padBlock = ecb f n (x.drop padBlock) := by
      rw [List.drop_append_of_le_length (by simp [padBlock]), List.drop_eq_nil_of_le (by simp [padBlock]), List.nil_append]
    rw [ecb, ecb, blockOf_append, h, hd, ih _ (by simp [padBlock]; omega), blockOf_toList (by omega),
      show 8 * (n + 1) = 8 + 8 * n by omega, List.take_add, padBlock]

/-- Decrypting what was encrypted gives it back, where the block functions undo each other. -/
theorem decrypt_encrypt {p : Params} {key : Vector Byte 8} (h : ∀ b, p.decBlock key (p.encBlock key b) = b)
    {x : List Byte} (hx : x.length % 8 = 0) : decrypt p key (encrypt p key x) = x := by
  rw [decrypt, encrypt_length p key hx, encrypt, ecb_ecb h _ _ (by rw [padBlock]; omega), List.take_of_length_le]
  rw [padBlock]; omega

/-! ### `ILEN` -/

theorem lengthWord_of_le {input : List Byte} (h : input.length ≤ inCap) : (lengthWord input).toNat = input.length := by
  have : input.length ≤ 0x20000 := h
  rw [lengthWord, BitVec.toNat_ofNat, Nat.mod_eq_of_lt] <;> omega

/-- An input too long for `IBUF` is never taken for a shorter one. -/
theorem lengthWord_of_gt {input : List Byte} (h : inCap < input.length) : inCap < (lengthWord input).toNat := by
  have : 0x20000 < input.length := h
  rw [lengthWord, BitVec.toNat_ofNat, Nat.mod_eq_of_lt, inCap] <;> omega

end Sys2Proof.Machine
end

