-- ==== Sys2Proof/Laws/Step.lean ====
section
/-! SUPPORT. What a step can do, said once: the moves of the host and of the block. -/

namespace Sys2Proof.Machine

@[simp] theorem exec_compress (le : Bool) (s : State) :
    exec (.compress le) s = .next (compressWith Config.params.hash le s) := rfl
@[simp] theorem exec_decompress (le : Bool) (s : State) : exec (.decompress le) s = .next (decompressWhole le s) := rfl
@[simp] theorem exec_verify (le : Bool) (s : State) :
    exec (.verify le) s = .next (verifyWith Config.params.digest s) := rfl
@[simp] theorem exec_resolve (le : Bool) (s : State) : exec (.resolve le) s = .next (resolveWith le s) := rfl
@[simp] theorem exec_reservedOp (w : Word) (s : State) :
    exec (.reservedOp w) s = .next (raise (reservedCause w) s) := rfl
@[simp] theorem exec_lit (b : Byte) (s : State) : exec (.lit b) s = execLit b s := rfl
@[simp] theorem exec_matchTok (mlen dist : Nat) (s : State) : exec (.matchTok mlen dist) s = execMatch mlen dist s := rfl

/-- The instruction of a word written to `CMD` is a command, never a token. -/
theorem decodeCommand_cases (w : Word) :
    decodeCommand w = .compress (leOf w) ∨ decodeCommand w = .decompress (leOf w) ∨
    decodeCommand w = .verify (leOf w) ∨ decodeCommand w = .resolve (leOf w) ∨ decodeCommand w = .reservedOp w := by
  unfold decodeCommand
  split_ifs <;> simp

/-- A whole command always runs to `DONE` or `FLT`, in any state. -/
theorem exec_command_phase (w : Word) (s : State) :
    ∃ t, exec (decodeCommand w) s = .next t ∧ (t.phase = .done ∨ t.phase = .flt) := by
  rcases decodeCommand_cases w with h | h | h | h | h <;> rw [h]
  · exact ⟨_, rfl, compressWith_phase _ _ _⟩
  · exact ⟨_, rfl, decompressWhole_phase _ _⟩
  · exact ⟨_, rfl, verifyWith_phase _ _⟩
  · exact ⟨_, rfl, resolveWith_phase _ _⟩
  · exact ⟨_, rfl, .inr rfl⟩

theorem nextTurn_nil {s : State} (h : s.turns = []) : nextTurn s = (.block, s) := by
  simp [nextTurn, h]

theorem nextTurn_cons {s : State} {t : Turn} {rest : List Turn} (h : s.turns = t :: rest) :
    nextTurn s = (t, { s with turns := rest }) := by
  simp [nextTurn, h]

/-- The block does nothing outside `RUN` (70_reset R260). -/
theorem blockMove_of_not_running {s : State} (h : s.phase ≠ .run) : blockMove s = .next s := by
  unfold blockMove
  cases hp : s.phase <;> simp_all

theorem tokenMove_of_not_running {s : State} (h : s.phase ≠ .run) : tokenMove s = .next s := by
  unfold tokenMove
  cases hp : s.phase <;> simp_all

theorem blockMove_of_start {s : State} (h : s.phase = .run) (hp : s.pos = .start) :
    blockMove s = exec (fetchCommand s) s := by
  unfold blockMove; rw [h, hp]

theorem blockMove_of_tokens {s : State} (h : s.phase = .run) (hp : s.pos = .tokens) :
    blockMove s = .next (decompressRest s.le s) := by
  unfold blockMove; rw [h, hp]

theorem tokenMove_of_start {s : State} (h : s.phase = .run) (hp : s.pos = .start) :
    tokenMove s = startStep (fetchCommand s) s := by
  unfold tokenMove; rw [h, hp]

theorem tokenMove_of_tokens {s : State} (h : s.phase = .run) (hp : s.pos = .tokens) : tokenMove s = tokenStep s := by
  unfold tokenMove; rw [h, hp]

/-- The block's move to the end never stops the model: it gives a next state in every state. -/
theorem blockMove_next (s : State) : ∃ t, blockMove s = .next t := by
  by_cases h : s.phase = .run
  · cases hp : s.pos
    · obtain ⟨t, ht, -⟩ := exec_command_phase s.cmd s
      exact ⟨t, (blockMove_of_start h hp).trans ht⟩
    · exact ⟨_, blockMove_of_tokens h hp⟩
  · exact ⟨s, blockMove_of_not_running h⟩

/-- The first step of a command taken token by token is `D_INIT`, or the whole of any other command. -/
theorem startStep_cases (w : Word) (s : State) :
    startStep (decodeCommand w) s = .next (startTokens (leOf w) s) ∨
    startStep (decodeCommand w) s = exec (decodeCommand w) s := by
  rcases decodeCommand_cases w with h | h | h | h | h <;> rw [h] <;> simp [startStep]

/-- Everything a token's step can do (43_decompress R173). -/
theorem tokenStep_cases (s : State) :
    (s.rawLen ≤ s.dp ∧ tokenStep s = .next (decompressDone s)) ∨
    (s.dp < s.rawLen ∧ (∃ cause, fetchToken s = .error cause ∧ tokenStep s = .next (raise cause s))) ∨
    (s.dp < s.rawLen ∧ ∃ t r, fetchToken s = .ok (t, r) ∧
      tokenStep s = closeMove (exec t.toInstr { s with br := r })) := by
  unfold tokenStep
  by_cases h : s.dp < s.rawLen
  · rw [if_pos h]
    rcases hf : fetchToken s with cause | ⟨t, r⟩
    · exact .inr (.inl ⟨h, cause, rfl, rfl⟩)
    · exact .inr (.inr ⟨h, t, r, rfl, rfl⟩)
  · exact .inl ⟨by omega, if_neg h⟩

/-- Everything a step can do: the host's access, the block's move to the end, or its move by one token; where no turn is
listed, the block's move to the end. -/
theorem step_cases (s : State) :
    (s.turns = [] ∧ step s = blockMove s) ∨
    (∃ op rest, s.turns = .host op :: rest ∧ step s = hostMove op { s with turns := rest }) ∨
    (∃ rest, s.turns = .block :: rest ∧ step s = blockMove { s with turns := rest }) ∨
    (∃ rest, s.turns = .token :: rest ∧ step s = tokenMove { s with turns := rest }) := by
  rcases ht : s.turns with _ | ⟨t, rest⟩
  · exact .inl ⟨rfl, by unfold step; rw [nextTurn_nil ht]; rfl⟩
  · have hs : step s = takeTurn t { s with turns := rest } := by unfold step; rw [nextTurn_cons ht]
    cases t with
    | host op => exact .inr (.inl ⟨op, rest, rfl, hs⟩)
    | block => exact .inr (.inr (.inl ⟨rest, rfl, hs⟩))
    | token => exact .inr (.inr (.inr ⟨rest, rfl, hs⟩))

end Sys2Proof.Machine
end

