-- ==== Sys2Proof/Laws/Tokens.lean ====
section
/-! SUPPORT. Laws of what token lists stand for and of the list the matcher chooses. -/

namespace Sys2Proof.Machine

/-! ### Raw bytes of a token list -/

@[simp] theorem extendCopy_length (mlen dist : Nat) (out : List Byte) :
    (extendCopy mlen dist out).length = out.length + mlen := by
  induction mlen generalizing out with
  | zero => rfl
  | succ mlen ih => rw [extendCopy, ih, List.length_append, List.length_singleton]; omega

@[simp] theorem applyToken_length (out : List Byte) (t : Token) :
    (applyToken out t).length = out.length + Token.size t := by
  cases t <;> simp [applyToken, Token.size]

@[simp] theorem foldl_applyToken_length (out : List Byte) (tokens : List Token) :
    (tokens.foldl applyToken out).length = out.length + (tokens.map Token.size).sum := by
  induction tokens generalizing out with
  | nil => simp
  | cons t ts ih => rw [List.foldl_cons, ih, applyToken_length, List.map_cons, List.sum_cons]; omega

/-- A list stands for one byte more than its tokens' sizes. -/
theorem expand_length (first : Byte) (tokens : List Token) :
    (expand first tokens).length = 1 + (tokens.map Token.size).sum := by
  simp [expand]

theorem expand_append (first : Byte) (ts us : List Token) :
    expand first (ts ++ us) = us.foldl applyToken (expand first ts) := List.foldl_append

/-- What a copy leaves of the bytes before it. -/
theorem extendCopy_prefix (mlen dist : Nat) (out : List Byte) : out <+: extendCopy mlen dist out := by
  induction mlen generalizing out with
  | zero => exact List.prefix_rfl
  | succ mlen ih => exact (List.prefix_append _ _).trans (ih _)

/-! ### Lengths -/

@[simp] theorem flagCount_nil : flagCount [] = 0 := rfl
@[simp] theorem flagCount_cons (t : Token) (ts : List Token) : flagCount (t :: ts) = t.flags.length + flagCount ts := by
  simp [flagCount]
theorem flagCount_append (ts us : List Token) : flagCount (ts ++ us) = flagCount ts + flagCount us := by
  simp [flagCount]

/-- Every well-formed token has a flag bit. -/
theorem token_flags_pos {t : Token} (h : t.toInstr.wf = true) : 0 < t.flags.length := by
  cases t with
  | lit b => simp [Token.flags]
  | copy mlen dist =>
    have h : minMatch ≤ mlen ∧ 1 ≤ dist := by simpa [Token.toInstr, Instr.wf] using h
    rw [show (Token.copy mlen dist).flags = matchFlags mlen dist h from dif_pos h]
    simp [matchFlags]

/-! ### Reading and choosing -/

theorem readTokens_succ_ok_iff {src : Stream} {count : Nat} {r : BitReader} {x : List Token × BitReader} :
    readTokens src (count + 1) r = .ok x ↔
      ∃ t r₁ ts r₂, fetchFrom src r = .ok (t, r₁) ∧ readTokens src count r₁ = .ok (ts, r₂) ∧ x = (t :: ts, r₂) := by
  rw [readTokens, bind_ok_iff]
  constructor
  · rintro ⟨⟨t, r₁⟩, h₁, h⟩
    obtain ⟨⟨ts, r₂⟩, h₂, h⟩ := bind_ok_iff.1 h
    exact ⟨t, r₁, ts, r₂, h₁, h₂, (Except.ok.inj h).symm⟩
  · rintro ⟨t, r₁, ts, r₂, h₁, h₂, rfl⟩
    exact ⟨_, h₁, bind_ok_iff.2 ⟨_, h₂, rfl⟩⟩

/-- `lastSameHash` finds the greatest position below `k` of the same hash value. -/
theorem lastSameHash_eq_some_iff {hash : Hash} {ibuf : Mem} {p k q : Nat} :
    lastSameHash hash ibuf p k = some q ↔
      q < k ∧ hashAt hash ibuf q = hashAt hash ibuf p ∧
        ∀ r, q < r → r < k → hashAt hash ibuf r ≠ hashAt hash ibuf p := by
  induction k with
  | zero => simp [lastSameHash]
  | succ k ih =>
    unfold lastSameHash
    split_ifs with h
    · constructor
      · rintro ⟨⟩
        exact ⟨by omega, h, fun r h₁ h₂ => by omega⟩
      · rintro ⟨h₁, -, h₃⟩
        rcases Nat.lt_succ_iff_lt_or_eq.1 h₁ with hlt | rfl
        · exact absurd h (h₃ k hlt (by omega))
        · rfl
    · rw [ih]
      constructor
      · rintro ⟨h₁, h₂, h₃⟩
        refine ⟨by omega, h₂, fun r hr hk => ?_⟩
        rcases Nat.lt_succ_iff_lt_or_eq.1 hk with hlt | rfl
        · exact h₃ r hr hlt
        · exact h
      · rintro ⟨h₁, h₂, h₃⟩
        refine ⟨?_, h₂, fun r hr hk => h₃ r hr (by omega)⟩
        rcases Nat.lt_succ_iff_lt_or_eq.1 h₁ with hlt | rfl
        · exact hlt
        · exact absurd h₂ h

theorem chosenTokens_of_done (hash : Hash) (ibuf : Mem) {n p : Nat} (fuel : Nat) (h : n ≤ p) :
    chosenTokens hash ibuf n fuel p = [] := by
  cases fuel with
  | zero => rfl
  | succ fuel => rw [chosenTokens, if_neg (by omega)]

theorem chosenTokens_succ (hash : Hash) (ibuf : Mem) {n p : Nat} (fuel : Nat) (h : p < n) :
    chosenTokens hash ibuf n (fuel + 1) p =
      chosenToken hash ibuf n p :: chosenTokens hash ibuf n fuel (p + Token.size (chosenToken hash ibuf n p)) := by
  rw [chosenTokens, if_pos h]

/-- A chosen token is a literal, or a match with the most recent position of the same hash value. -/
theorem chosenToken_cases (hash : Hash) (ibuf : Mem) (n p : Nat) :
    chosenToken hash ibuf n p = .lit (memRead ibuf p) ∨
    ∃ c, lastSameHash hash ibuf p p = some c ∧ minMatch ≤ matchLen ibuf n c p ∧
      chosenToken hash ibuf n p = .copy (matchLen ibuf n c p) (p - c) := by
  unfold chosenToken
  cases lastSameHash hash ibuf p p with
  | none => exact .inl rfl
  | some c =>
    by_cases h : minMatch ≤ matchLen ibuf n c p
    · exact .inr ⟨c, rfl, h, if_pos h⟩
    · exact .inl (if_neg h)

end Sys2Proof.Machine
end

