-- ==== Sys2Proof/Tests/Slice0.lean ====
section
/-! SUPPORT. The model's own tests: ill-formed terms, words written out from the encodings of 30_encoding, single steps
whose expected results are the vectors of 95_test_vectors, and a witness for the hypotheses of every obligation. -/

namespace Sys2Proof.Tests

open Sys2Proof Sys2Proof.Machine

/-! ### Well-formedness: what the check refuses -/

theorem test_wf_refuses_legal_word_as_reserved : (Instr.reservedOp 1).wf = false := by decide
theorem test_wf_refuses_legal_word_with_le : (Instr.reservedOp 0xC).wf = false := by decide
theorem test_wf_refuses_short_match : (Instr.matchTok 3 1).wf = false := by decide
theorem test_wf_refuses_distance_zero : (Instr.matchTok 4 0).wf = false := by decide
theorem test_wf_accepts_least_match : (Instr.matchTok 4 1).wf = true := by decide

/-! ### Decoding words written out bit by bit (30_encoding R91, R98 to R100) -/

theorem test_decode_compress : decodeCommand 0b00000000000000000000000000001001 = .compress true := by decide
theorem test_decode_decompress : decodeCommand 0b00000000000000000000000000000010 = .decompress false := by decide
theorem test_decode_verify : decodeCommand 0b00000000000000000000000000001011 = .verify true := by decide
theorem test_decode_resolve : decodeCommand 0b00000000000000000000000000000100 = .resolve false := by decide
theorem test_decode_reserved_op : decodeCommand 0b00000000000000000000000000000111 = .reservedOp 7 := by decide
theorem test_decode_reserved_bit : decodeCommand 0x80000001 = .reservedOp 0x80000001 := by decide

/-- `LIT 'b'`: the flag bit 0, the byte. -/
theorem test_decode_lit : decode (.token [false] 0x62) = .ok (.lit 0x62) := by decide

/-- `MATCH 4, 300` (42_compress R157's example): 1, VLC(2) = 00, VLC(3) = 10, the byte 0x2B. -/
theorem test_decode_match : decode (.token [true, false, false, true, false] 0x2B) = .ok (.matchTok 4 300) := by decide

/-- The match of 43_decompress R179: 1, 0100, 00, the byte 1 is `MATCH 6, 2`. -/
theorem test_decode_match_worked :
    decode (.token [true, false, true, false, false, false, false] 1) = .ok (.matchTok 6 2) := by decide

/-- The table of 30_encoding R99: VLC(997). -/
theorem test_vlc_997 :
    vlcBits 997 (by decide) =
      [true, true, true, true, true, true, true, true, false, true, false, true, true, true, false, true, true, false] := by
  decide

/-- The host's numbering of a row's bits (log 20). -/
theorem test_table_words :
    decodeTableWord 32 0xA = some (.decompress true) ∧ decodeTableWord 8 0 = some (.lit 0) ∧
    decodeTableWord 8 1 = some (.matchTok 4 1) := by decide

/-! ### Single commands (95_test_vectors) -/

/-- The machine with an input in `IBUF` and a value in `RAWLEN`, after an accepted `CMD` write of `w`. -/
def given (input : List Byte) (rawlen : Word) (w : Word) : State :=
  acceptCommand w
    { State.reset with ibuf := memLoad [] 0 input, ilen := BitVec.ofNat 32 input.length, rawlen := rawlen }

/-- The default window hash of 41_dictionary R141, which the vectors name. -/
def defaultHash : Hash := rollingHash 0x13D

/-- V-C8: "aaaaa" big-endian is `00 00 00 06 | 61 | 80 00 | 00 | 00` and 7 bytes of filler, CLEN 9. -/
theorem test_compress_run :
    (compressWith defaultHash false (given [0x61, 0x61, 0x61, 0x61, 0x61] 0 1)).olen = 9 ∧
    memBytes (compressWith defaultHash false (given [0x61, 0x61, 0x61, 0x61, 0x61] 0 1)).obuf 0 16 =
      [0, 0, 0, 6, 0x61, 0x80, 0, 0, 0, 0, 0, 0, 0, 0, 0, 0] := by decide

/-- V-C19: the empty input faults with `EMPTY_INPUT`, and `RAWLEN` stays. -/
theorem test_compress_empty :
    statusWord (compressWith defaultHash true (given [] 5 9)) = 6 ∧
    (compressWith defaultHash true (given [] 5 9)).fault = 0x24 ∧
    (compressWith defaultHash true (given [] 5 9)).rawlen = 5 := by decide

/-- The stream of 43_decompress R179. -/
def workedStream : List Byte := [0, 0, 0, 8, 0x61, 0x50, 0, 0x62, 1, 0, 0, 0, 0, 0, 0, 0]

/-- V-D2: the stream of 43_decompress R179 gives "abababab", `OLEN` 8, and the reader ends at 9. -/
theorem test_decompress_worked :
    memBytes (decompressWhole false (given workedStream 8 2)).obuf 0 8 =
      [0x61, 0x62, 0x61, 0x62, 0x61, 0x62, 0x61, 0x62] ∧
    (decompressWhole false (given workedStream 8 2)).olen = 8 ∧
    (decompressWhole false (given workedStream 8 2)).br.rp = 9 := by decide

/-- V-D7: one byte short of what the match produces, it faults with `OUT_OVERRUN`. -/
theorem test_decompress_overrun :
    (decompressWhole false (given [0, 0, 0, 4, 0x61, 0x80, 0, 0] 4 2)).fault = 0x23 := by decide

/-- V-F5: 15 bytes leave no room for a digest. -/
theorem test_verify_short : (verifyWith Config.params.digest (given (List.replicate 15 7) 0 3)).fault = 0x12 := by decide

/-- The digest `DT` of the vectors (95_test_vectors part 5): byte i is (length + sum of the bytes + i) mod 256. -/
def vectorDigest (p : List Byte) : Vector Byte 16 :=
  Vector.ofFn fun i => BitVec.ofNat 8 (p.length + (p.map BitVec.toNat).sum + i.val)

/-- V-F8: `DT("")` and three zero bytes: the first candidate that matches is k = 3. -/
theorem test_verify_trims :
    (verifyWith vectorDigest
      (given [0, 1, 2, 3, 4, 5, 6, 7, 8, 9, 10, 11, 12, 13, 14, 15, 0, 0, 0] 0 3)).vk = 3 := by decide

/-- V-R1: `E9 03 00 00` assumed big-endian is 1001, little-endian, flipped. -/
theorem test_resolve_flips :
    (resolveWith false (given [0xE9, 3, 0, 0] 0 4)).rawlen = 1001 ∧
    statusWord (resolveWith false (given [0xE9, 3, 0, 0] 0 4)) = 0x32 := by decide

/-- V-R6: 0x20001 is out of range in both orders. -/
theorem test_resolve_neither : (resolveWith true (given [0, 2, 0, 1] 77 12)).fault = 0x11 := by decide

/-- V-K: `OP` 5 is illegal; a reserved bit is tested first. -/
theorem test_reserved : (raise (reservedCause 5) (given [] 0 5)).fault = 0x15 ∧
    (raise (reservedCause 0x15) (given [] 0 0x15)).fault = 0x25 := by decide

/-- The state before the first token of the worked stream. -/
def beforeTokens : State := startTokens false (given workedStream 8 2)

/-- 43_decompress R174's example: `DP` = 1, byte 0x62. -/
theorem test_lit_worked :
    ∃ t, exec (.lit 0x62) beforeTokens = .next t ∧ memRead t.obuf 1 = 0x62 ∧ t.dp = 2 := ⟨_, rfl, by decide, by decide⟩

/-- 43_decompress R175's example: `DP` = 2, `MATCH 6, 2` writes "ababab" to `OBUF[2:8]`. -/
theorem test_match_worked :
    ∃ t, exec (.matchTok 6 2) { beforeTokens with obuf := [(0, 0x61), (1, 0x62)], dp := 2 } = .next t ∧
      memBytes t.obuf 2 6 = [0x61, 0x62, 0x61, 0x62, 0x61, 0x62] ∧ t.dp = 8 := ⟨_, rfl, by decide, by decide⟩

/-- V-D6: a match from 2 back at `DP` = 1 faults with `BAD_DISTANCE`. -/
theorem test_match_bad_distance :
    ∃ t, exec (.matchTok 4 2) beforeTokens = .next t ∧ t.fault = 0x33 := ⟨_, rfl, by decide⟩

/-- One `CMD` write and one step of the block: `RESOLVE.LE` of `E9 03 00 00`. -/
theorem test_placed_command_runs :
    ∃ t, step (State.withFetchWord { given [0xE9, 3, 0, 0] 0 0 with phase := .idle } 32 0xC) = .next t ∧
      t.rawlen = 1001 := ⟨_, rfl, by decide⟩

/-- The very next step after reset runs a placed `LIT 0`. -/
theorem test_placed_token_runs :
    ∃ t, step (State.reset.withFetchWord 8 0) = .next t ∧ t.dp = 2 ∧ t.phase = .run := ⟨_, rfl, by decide, by decide⟩

/-! ### Witnesses: a concrete input that meets the hypotheses of each obligation

Each theorem is named after its obligation. Where a statement has several clauses, the witness meets each of them, at a
boundary value of its range. -/

theorem witness_CommandWordFields : (4 : Word).toNat ≤ 7 ∧ (0xC : Word) &&& 0xFFFFFFF7 = 4 := by decide

theorem witness_DecodeInvertsEncode :
    (Instr.matchTok 4 1).wf = true ∧ (Instr.matchTok 131072 131072).wf = true ∧ (Instr.reservedOp 0).wf = true ∧
    (Instr.reservedOp 0xFFFFFFFF).wf = true := by decide

theorem witness_EncodeInvertsDecode :
    decode (.token [true, false, false, false, false] 0) = .ok (.matchTok 4 1) ∧
    decode (.word 0x10) = .ok (.reservedOp 0x10) := by decide

theorem witness_VlcRoundTrip : (vlcBits 2 (by decide)).length ≤ 2 := by decide

theorem witness_VlcDigitsAndPrefixFree : 0 < Nat.log2 2 ∧ vlcBits 2 (by decide) <+: vlcBits 2 (by decide) := by decide

/-- The last flag word of the buffer. -/
theorem witness_WideAccessesAreByteAccesses :
    ∃ o', putHalfAt true 0x7FFE 0xFFAE { bw := bwInit, obuf := [] } = .ok o' := ⟨_, rfl⟩

/-- Sixteen bits, then a seventeenth; and the six bits of 40_bitchannel R123's example. -/
theorem witness_FlagWordsHoldTheirBits :
    (∃ o₁ o₂, (List.replicate 16 true).length = 16 ∧ bwInit.wcnt = 16 ∧
      putBits false (List.replicate 16 true) { bw := bwInit, obuf := [] } = .ok o₁ ∧ putBit false false o₁ = .ok o₂) ∧
    (∃ o₁ o₂, putBits false [true, true, false, false, false, false] { bw := bwInit, obuf := [] } = .ok o₁ ∧
      finalize false o₁ = .ok o₂) := ⟨⟨_, _, rfl, rfl, rfl, rfl⟩, _, _, rfl, rfl⟩

/-- The example of 40_bitchannel R125, with a bit left and with none, and a stream one byte short. -/
theorem witness_ReaderTakesFlagBitsFromTheBytes :
    (∃ r : BitReader, r.rcnt ≠ 0 ∧ r.rcnt = 1) ∧
    (∃ (s : State) (r : BitReader), r.rcnt = 0 ∧ s.inLen ≤ r.rp + 1 ∧ s.inLen = 6 ∧ r.rp = 5) ∧
    (∃ (s : State) (r : BitReader), r.rcnt = 0 ∧ r.rp + 1 < s.inLen ∧ r.rp < s.inLen ∧ s.inLen = 7 ∧ r.rp = 5) ∧
    (∃ (s : State) (r : BitReader), s.inLen ≤ r.rp ∧ s.inLen = 5 ∧ r.rp = 5) :=
  ⟨⟨{ racc := 0, rcnt := 1, rp := 5 }, by decide⟩,
    ⟨{ State.reset with ilen := 6 }, { racc := 0, rcnt := 0, rp := 5 }, by decide⟩,
    ⟨{ State.reset with ilen := 7 }, { racc := 0, rcnt := 0, rp := 5 }, by decide⟩,
    { State.reset with ilen := 5 }, { racc := 0, rcnt := 0, rp := 5 }, by decide⟩

theorem witness_StreamLengthDecidesOverflow :
    ∃ o, assembleInto false 8 0x61 [.lit 0x62, .copy 6 2] [] = .ok o := ⟨_, rfl⟩

theorem witness_AssembledStreamReadsBack :
    (∀ t ∈ [Token.lit 0x62, .copy 6 2], t.toInstr.wf = true) ∧
    assemble false 8 0x61 [.lit 0x62, .copy 6 2] = some workedStream ∧
    2 ≤ [Token.lit 0x62, .copy 6 2].length := by decide

theorem witness_LiteralCompletes : ({ State.reset with dp := 0x1FFFF } : State).dp < outCap := by decide

/-- A copy from the very first byte, and one that ends the buffer. -/
theorem witness_MatchRepeatsCyclically :
    ∃ s : State, 1 ≤ 2 ∧ 2 ≤ s.dp ∧ 6 ≤ s.rawLen - s.dp ∧ s.rawLen ≤ sizeMax ∧ s.dp ≤ s.rawLen ∧ s.dp = 2 ∧ s.rawLen = 8 :=
  ⟨{ State.reset with dp := 2, rawlen := 8 }, by decide⟩

theorem witness_MatchFaultsInOrder :
    ∃ s : State, s.dp < 3 ∧ 2 ≤ s.dp ∧ s.rawLen - s.dp < 7 := ⟨{ State.reset with dp := 2, rawlen := 8 }, by decide⟩

/-- A full buffer, with and without a final zero, and the empty one. -/
theorem witness_NormaliseRule :
    (State.reset.inLen ≤ inCap ∧ State.reset.inLen = 0) ∧
    (∃ s : State, s.inLen ≤ inCap ∧ s.inLen = inCap ∧ memRead s.ibuf (s.inLen - 1) ≠ 0) ∧
    (∃ s : State, s.inLen ≤ inCap ∧ 0 < s.inLen ∧ s.inLen = inCap ∧ memRead s.ibuf (s.inLen - 1) = 0) :=
  ⟨by decide, ⟨{ State.reset with ilen := 0x20000, ibuf := [(0x1FFFF, 1)] }, by decide⟩,
    { State.reset with ilen := 0x20000 }, by decide⟩

theorem replicate_bytes (n : Nat) (v : Byte) :
    (∀ a, a < n → memRead (memLoad [] 0 (List.replicate n v)) a = v) ∧
    memRead (memLoad [] 0 (List.replicate n v)) n = 0 := by
  refine ⟨fun a ha => ?_, ?_⟩
  · rw [memRead_memLoad, dif_pos (by simp; omega), List.getElem_replicate]
  · rw [memRead_memLoad, dif_neg (by simp)]; rfl

theorem witness_MatchLengthIsMaximal :
    (0 < 1 ∧ 1 < 2) ∧
    ∃ ibuf : Mem, (∀ a, a < 1000 → memRead ibuf a = 0x41) ∧ memRead ibuf 1000 = 0 :=
  ⟨by decide, _, replicate_bytes 1000 0x41⟩

theorem witness_LookupFindsMostRecent :
    ∃ c : Comp, c.hp = 0 ∧ c.ht = htClear ∧ 1 ≤ 2 ∧
      htLookup defaultHash [] 1 (indexUpto defaultHash [] 1 c).ht = some 0 :=
  ⟨cInit false [] 8 [], by decide⟩

/-- The longest input that is sure to fit. -/
theorem witness_CompressCompletes :
    ∃ s : State, 0 < s.inLen ∧ normalisedLen s ≤ 29122 ∧ normalisedLen s = 29122 :=
  ⟨{ State.reset with ilen := 29121, ibuf := [(29120, 1)] }, by decide⟩

/-- An input with no match at all under the window hash that puts every window in one slot. -/
def alternating : State :=
  { State.reset with
    ilen := 29122, ibuf := memOf (fun a => if a % 2 = 0 then 1 else 2) 29122 }

/-- The hash that is always 0. -/
def oneSlot : Hash := fun _ _ _ _ => 0

theorem lastSameHash_oneSlot (ibuf : Mem) (p k : Nat) : lastSameHash oneSlot ibuf p (k + 1) = some k := by
  simp [lastSameHash, hashAt, oneSlot]

theorem chosenToken_oneSlot {ibuf : Mem} {n p : Nat} (hp : p < n) (h : memRead ibuf p ≠ memRead ibuf (p + 1)) :
    chosenToken oneSlot ibuf (n + 1) (p + 1) = .lit (memRead ibuf (p + 1)) := by
  unfold chosenToken
  rw [lastSameHash_oneSlot]
  have : matchLen ibuf (n + 1) p (p + 1) = 0 := by
    unfold matchLen
    obtain ⟨f, hf⟩ : ∃ f, n + 1 - (p + 1) = f + 1 := ⟨n - p - 1, by omega⟩
    rw [hf, matchLoop, Nat.add_zero, Nat.add_zero, if_neg h]
  simp [this, minMatch]

theorem chosenTokens_oneSlot {ibuf : Mem} {n : Nat} (h : ∀ p, p < n → memRead ibuf p ≠ memRead ibuf (p + 1)) :
    ∀ fuel p, n - p ≤ fuel →
      flagCount (chosenTokens oneSlot ibuf (n + 1) fuel (p + 1)) = n - p ∧
      (chosenTokens oneSlot ibuf (n + 1) fuel (p + 1)).length = n - p := by
  intro fuel
  induction fuel with
  | zero => intro p hp; simp [chosenTokens, flagCount]; omega
  | succ fuel ih =>
    intro p hp
    unfold chosenTokens
    by_cases hlt : p < n
    · rw [if_pos (by omega), chosenToken_oneSlot hlt (h p hlt)]
      obtain ⟨h₁, h₂⟩ := ih (p + 1) (by omega)
      simp only [flagCount, List.map_cons, List.sum_cons, List.length_cons, Machine.Token.size, Token.flags,
        List.length_nil] at h₁ h₂ ⊢
      omega
    · rw [if_neg (by omega)]
      simp [flagCount]; omega

theorem alternating_reads (a : Nat) :
    memRead alternating.ibuf a = if a < 29122 then (if a % 2 = 0 then 1 else 2) else 0 := memRead_memOf _ _ _

/-- `NORMALISE` of it: one zero byte, N = 29123. -/
def alternatingNormalised : State := { alternating with ibuf := memWrite alternating.ibuf 29122 0, rawlen := 29123 }

theorem alternating_normalise : normalise alternating = .ok alternatingNormalised := by
  have hl : alternating.inLen = 29122 := rfl
  have hb : memRead alternating.ibuf (alternating.inLen - 1) ≠ 0 := by rw [hl, alternating_reads]; decide
  unfold normalise
  rw [if_neg (by rw [hl]; decide), if_pos hb, if_neg (by rw [hl]; decide)]
  rfl

theorem alternating_differs {ibuf : Mem}
    (hr : ∀ a, memRead ibuf a = if a < 29122 then (if a % 2 = 0 then 1 else 2) else 0) (p : Nat) (hp : p < 29122) :
    memRead ibuf p ≠ memRead ibuf (p + 1) := by
  rw [hr, hr, if_pos hp]
  split_ifs <;> first | omega | decide

theorem alternating_overflows {ibuf : Mem}
    (hr : ∀ a, memRead ibuf a = if a < 29122 then (if a % 2 = 0 then 1 else 2) else 0) :
    0x8000 < streamLen (chosenTokens oneSlot ibuf 29123 29123 1) := by
  obtain ⟨h₁, h₂⟩ := chosenTokens_oneSlot (n := 29122) (alternating_differs hr) 29123 0 (Nat.le_succ _)
  simp only [Nat.zero_add, Nat.sub_zero, Nat.reduceAdd] at h₁ h₂
  unfold streamLen
  omega

theorem alternatingNormalised_reads (a : Nat) :
    memRead alternatingNormalised.ibuf a = if a < 29122 then (if a % 2 = 0 then 1 else 2) else 0 := by
  simp only [alternatingNormalised, memRead_memWrite, alternating_reads]
  split_ifs <;> first | omega | rfl

theorem witness_CompressAssemblesChosenTokens :
    (∃ (s s' : State) (tokens : List Token), s.inLen ≤ inCap ∧ normalise s = .ok s' ∧
      chosenTokens defaultHash s'.ibuf s'.rawLen s'.rawLen 1 = tokens ∧ streamLen tokens ≤ 0x8000) ∧
    (∃ (s s' : State) (tokens : List Token), s.inLen ≤ inCap ∧ normalise s = .ok s' ∧
      chosenTokens oneSlot s'.ibuf s'.rawLen s'.rawLen 1 = tokens ∧ 0x8000 < streamLen tokens) :=
  ⟨⟨given [0x61, 0x61, 0x61, 0x61, 0x61] 0 1, _, [.copy 4 1, .lit 0], by decide, rfl, by decide, by decide⟩,
    alternating, alternatingNormalised, _, show 29122 ≤ 0x20000 by decide, alternating_normalise, rfl,
    alternating_overflows alternatingNormalised_reads⟩

theorem witness_CompressThenDecompressRestoresInput :
    ∃ s t u₁ u₂ : State, compressWith defaultHash false s = t ∧ t.phase = .done ∧
      u₁.inLen = t.opad.toNat ∧ u₁.rawlen = t.rawlen ∧ (∀ a, a < u₁.inLen → memRead u₁.ibuf a = memRead t.obuf a) ∧
      u₂.inLen = t.olen.toNat ∧ u₂.rawlen = t.rawlen ∧ (∀ a, a < u₂.inLen → memRead u₂.ibuf a = memRead t.obuf a) :=
  ⟨given [0x61, 0x61, 0x61, 0x61, 0x61] 0 1, _,
    { compressWith defaultHash false (given [0x61, 0x61, 0x61, 0x61, 0x61] 0 1) with
      ibuf := (compressWith defaultHash false (given [0x61, 0x61, 0x61, 0x61, 0x61] 0 1)).obuf, ilen := 16 },
    { compressWith defaultHash false (given [0x61, 0x61, 0x61, 0x61, 0x61] 0 1) with
      ibuf := (compressWith defaultHash false (given [0x61, 0x61, 0x61, 0x61, 0x61] 0 1)).obuf, ilen := 9 },
    rfl, by decide, by decide, rfl, fun _ _ => rfl, by decide, rfl, fun _ _ => rfl⟩

/-- One byte that completes, and an empty input that faults. -/
theorem witness_CompressFrame :
    (∃ t, exec (.compress true) (given [0] 0 1) = .next t ∧ t.phase = .done) ∧
    (∃ t, exec (.compress true) State.reset = .next t ∧ t.phase = .flt) :=
  ⟨⟨_, rfl, by decide⟩, ⟨_, rfl, by decide⟩⟩

theorem witness_CompressInputFaults :
    (∃ s : State, inCap < s.inLen ∧ s.inLen = inCap + 1) ∧ State.reset.inLen = 0 ∧
    (∃ s : State, s.inLen = inCap ∧ memRead s.ibuf (s.inLen - 1) ≠ 0) :=
  ⟨⟨{ State.reset with ilen := 0x20001 }, by decide⟩, by decide,
    { State.reset with ilen := 0x20000, ibuf := [(0x1FFFF, 1)] }, by decide⟩

/-- The worked stream as the machine holds it, with `ILEN` = `len`. -/
def worked (len : Nat) : State := { given workedStream 8 2 with ilen := BitVec.ofNat 32 len }

theorem worked_bytes (len : Nat) : ∀ a, a < 16 → memRead (worked len).ibuf a = workedStream.getD a 0 := by
  simp only [worked]; decide

theorem witness_DecompressRunsAssembledStream :
    tokensOk 1 [.lit 0x62, .copy 6 2] = true ∧
    1 + ([Token.lit 0x62, .copy 6 2].map Token.size).sum = (worked 16).rawLen ∧ (worked 16).rawLen ≤ sizeMax ∧
    assemble false 8 0x61 [.lit 0x62, .copy 6 2] = some workedStream ∧ workedStream.length ≤ (worked 16).inLen ∧
    (worked 16).inLen ≤ inCap ∧
    (∀ a, a < workedStream.length → memRead (worked 16).ibuf a = workedStream.getD a 0) :=
  ⟨by decide, by decide, by decide, by decide, by decide, by decide, worked_bytes 16⟩

theorem witness_DecompressCompletesExactlyOnLegalStreams :
    ∃ r, (worked 16).inLen ≤ inCap ∧ (worked 16).rawLen ≤ sizeMax ∧ 4 < (worked 16).inLen ∧
      readTokens ((worked 16).stream false) [Token.lit 0x62, .copy 6 2].length readerAtBody =
        .ok ([.lit 0x62, .copy 6 2], r) ∧
      tokensOk 1 [.lit 0x62, .copy 6 2] = true ∧
      1 + ([Token.lit 0x62, .copy 6 2].map Token.size).sum = (worked 16).rawLen :=
  ⟨_, by decide, by decide, by decide, rfl, by decide, by decide⟩

/-- The worked stream, and one byte too few of it. -/
theorem witness_DecompressFrame :
    (∃ t, exec (.decompress false) (worked 16) = .next t ∧ t.phase = .done) ∧
    (∃ t, exec (.decompress false) (worked 8) = .next t ∧ t.phase = .flt) :=
  ⟨⟨_, rfl, by decide⟩, ⟨_, rfl, by decide⟩⟩

theorem witness_DecompressStartFaults :
    (∃ s : State, s.inLen ≤ inCap ∧ sizeMax < s.rawLen ∧ s.rawLen = sizeMax + 1) ∧
    (State.reset.inLen ≤ inCap ∧ State.reset.rawLen = 0) ∧
    ((worked 4).inLen ≤ inCap ∧ 0 < (worked 4).rawLen ∧ (worked 4).rawLen ≤ sizeMax ∧ (worked 4).inLen ≤ 4) :=
  ⟨⟨{ State.reset with rawlen := 0x20001 }, by decide⟩, by decide, by decide⟩

/-- One byte short. -/
theorem witness_TruncatedStreamUnderruns :
    tokensOk 1 [.lit 0x62, .copy 6 2] = true ∧ [Token.lit 0x62, .copy 6 2] ≠ [] ∧
    1 + ([Token.lit 0x62, .copy 6 2].map Token.size).sum = (worked 8).rawLen ∧ (worked 8).rawLen ≤ sizeMax ∧
    assemble false 8 0x61 [.lit 0x62, .copy 6 2] = some workedStream ∧
    (worked 8).inLen < streamLen [.lit 0x62, .copy 6 2] ∧ streamLen [.lit 0x62, .copy 6 2] = 9 ∧
    (∀ a, a < (worked 8).inLen → memRead (worked 8).ibuf a = workedStream.getD a 0) :=
  ⟨by decide, by decide, by decide, by decide, by decide, by decide, by decide,
    fun a ha => worked_bytes 8 a (Nat.lt_of_lt_of_le ha (by decide))⟩

/-- A buffer of the digest of nothing and `z`, whatever the digest is. -/
def signed (z : List Byte) : State :=
  { State.reset with
    ibuf := memLoad [] 0 ((Config.digest []).toList ++ z), ilen := BitVec.ofNat 32 (16 + z.length) }

theorem signed_bytes (z : List Byte) : memBytes (signed z).ibuf 0 (16 + z.length) = (Config.digest []).toList ++ z := by
  refine List.ext_getElem (by simp) fun i h₁ h₂ => ?_
  rw [memBytes_length] at h₁
  rw [memBytes_getElem _ _ _ _ h₁, signed, memRead_memLoad, dif_pos (by simp; omega)]
  simp

/-- The first clause with k = 0, the second with too short a buffer. (Which k matches beyond the first depends on the
digest, of which nothing is known.) -/
theorem witness_VerifyRule :
    ((signed []).inLen ≤ inCap ∧ 0 ≤ 7 ∧ 16 + 0 ≤ (signed []).inLen ∧
      (Config.digest (memBytes (signed []).ibuf 16 ((signed []).inLen - 0 - 16))).toList = memBytes (signed []).ibuf 0 16 ∧
      ∀ j, j < 0 → (Config.digest (memBytes (signed []).ibuf 16 ((signed []).inLen - j - 16))).toList ≠
        memBytes (signed []).ibuf 0 16) ∧
    (∃ s : State, s.inLen ≤ inCap ∧ s.inLen = 15 ∧ ∀ k, k ≤ 7 → 16 + k ≤ s.inLen →
      (Config.digest (memBytes s.ibuf 16 (s.inLen - k - 16))).toList ≠ memBytes s.ibuf 0 16) := by
  refine ⟨⟨by decide, by decide, by decide, ?_, fun j hj => by omega⟩, { State.reset with ilen := 15 }, by decide, rfl,
    fun k _ hk => absurd (show 16 + k ≤ 15 from hk) (by omega)⟩
  have := signed_bytes []
  simp only [List.append_nil, List.length_nil, Nat.add_zero] at this
  rw [this]; rfl

theorem witness_VerifyAcceptsPaddedPayload :
    (List.replicate 7 (9 : Byte)).length ≤ 7 ∧ (signed (List.replicate 7 9)).inLen ≤ inCap ∧
    memBytes (signed (List.replicate 7 9)).ibuf 0 (signed (List.replicate 7 9)).inLen =
      (Config.digest []).toList ++ [] ++ List.replicate 7 9 :=
  ⟨by decide, by decide, by rw [List.append_nil]; exact signed_bytes (List.replicate 7 9)⟩

/-- 0x20000 and 0x20001 in the assumed order, 0x20000 in the other one, and 3 bytes. -/
theorem witness_ResolveRule :
    ((given [0, 0, 0] 0 4).inLen ≤ inCap ∧ (given [0, 0, 0] 0 4).inLen < 4) ∧
    (4 ≤ (given [0, 2, 0, 0] 0 4).inLen ∧ sizeValue false (given [0, 2, 0, 0] 0 4) = 0x20000) ∧
    (0x20000 < sizeValue false (given [1, 0, 2, 0] 0 4) ∧ sizeValue true (given [1, 0, 2, 0] 0 4) = 0x20001) ∧
    (0x20000 < sizeValue false (given [0xFF, 0xFF, 1, 0] 0 4) ∧
      sizeValue (!false) (given [0xFF, 0xFF, 1, 0] 0 4) = 0x1FFFF) := by decide

theorem witness_WrongAssumptionIsFlippedButForSixValues :
    (4 ≤ (given [0, 0, 2, 0] 0 4).inLen ∧ (given [0, 0, 2, 0] 0 4).inLen ≤ inCap ∧ 0x20000 ≤ 0x20000 ∧
      sizeValue (!false) (given [0, 0, 2, 0] 0 4) = 0x20000 ∧ 0x20000 ∈ ambiguousSizes) ∧
    (4 ≤ (given [1, 0, 0, 0] 0 4).inLen ∧ (given [1, 0, 0, 0] 0 4).inLen ≤ inCap ∧ 1 ≤ 0x20000 ∧
      sizeValue (!false) (given [1, 0, 0, 0] 0 4) = 1 ∧ 1 ∉ ambiguousSizes) := by decide

/-- A word for each clause, with the block running and not, and `ILEN` one too long. -/
theorem witness_CommandDecodeOrder :
    (∃ s : State, s.turns = .host (.writeReg 0 1) :: [] ∧ s.phase = .run) ∧
    (∃ s : State, s.turns = .host (.writeReg 0 1) :: [] ∧ s.phase ≠ .run ∧ inCap < s.inLen) ∧
    (0x10 : Word).extractLsb' 4 28 ≠ 0#28 ∧
    ((7 : Word).extractLsb' 4 28 = 0#28 ∧ ((7 : Word).extractLsb' 0 3).toNat ∈ [0, 5, 6, 7]) ∧
    ((0xC : Word).extractLsb' 4 28 = 0#28 ∧ ((0xC : Word).extractLsb' 0 3).toNat ∈ [1, 2, 3, 4]) :=
  ⟨⟨{ State.reset with phase := .run, turns := [.host (.writeReg 0 1)] }, rfl, rfl⟩,
    ⟨{ State.reset with ilen := 0x20001, turns := [.host (.writeReg 0 1)] }, by decide⟩, by decide, by decide, by decide⟩

theorem witness_ReservedWordsOnlyFault :
    (Instr.reservedOp 0).wf = true ∧ (Instr.reservedOp 0xF).wf = true ∧ (Instr.reservedOp 0x11).wf = true := by decide

/-- A `RESOLVE` of 3 bytes, in a state that holds results of an earlier command. -/
theorem witness_FaultedCommandHasNoResult :
    ∃ t, blockMove (acceptCommand 4 { State.reset with olen := 7, opad := 8, vok := true, ilen := 3 }) = .next t ∧
      t.phase = .flt ∧ decodeCommand 4 = .resolve false := ⟨_, rfl, by decide, by decide⟩

theorem witness_ResetEffect :
    ∃ s : State, s.turns = .host .reset :: [] ∧ s.phase = .run ∧ 0x1FFFF < inCap ∧ 0x1FFFF < outCap :=
  ⟨{ worked 16 with turns := [.host .reset] }, by decide⟩

theorem witness_BusyBlockRefusesAccess : (worked 16).phase = .run := by decide

theorem witness_IdleRegisterAccess : State.reset.phase ≠ .run ∧ 0x20 ∉ [0, 4, 8, 0xC, 0x10, 0x14, 0x18, 0x1C] := by decide

/-- The last address of each buffer, the last byte below `OPAD` and the first beyond it. -/
theorem witness_IdleBufferAccess :
    ∃ s : State, s.phase ≠ .run ∧ s.phase = .done ∧ 0x1FFFF < inCap ∧ 0x1FFFF < outCap ∧ 15 < s.opad.toNat ∧
      s.opad.toNat ≤ 16 := ⟨{ State.reset with phase := .done, opad := 16 }, by decide⟩

theorem witness_StepRunsTheCommand :
    (worked 16).phase = .run ∧ (worked 16).pos = .start ∧ decode (.word (worked 16).cmd) = .ok (.decompress false) ∧
    (worked 16).turns = [] ∧ ({ worked 16 with turns := [.block] } : State).turns = .block :: [] := by decide

/-- The state before the first token, with `ILEN` = `len` and a token's turn to come. -/
def atToken (len : Nat) : State := { beforeTokens with turns := [.token], ilen := BitVec.ofNat 32 len }

theorem atToken_runs (len : Nat) :
    (atToken len).phase = .run ∧ (atToken len).pos = .tokens ∧ (atToken len).dp < (atToken len).rawLen ∧
    (atToken len).turns = .token :: [] :=
  ⟨show beforeTokens.phase = .run by decide, show beforeTokens.pos = .tokens by decide,
    show beforeTokens.dp < beforeTokens.rawLen by decide, rfl⟩

/-- With the whole stream, and with one cut inside the token. -/
theorem atToken_fetch :
    fetchFrom ((atToken 16).stream false) (atToken 16).br = .ok (.lit 0x62, { racc := 0xA000, rcnt := 15, rp := 8 }) ∧
    fetchFrom ((atToken 7).stream false) (atToken 7).br = .error .srcUnderrun ∧
    (atToken 16).cmd.getLsbD 3 = false ∧ (atToken 16).dp = 1 := by decide

theorem atToken_exec (r : BitReader) :
    ∃ u, exec (Token.lit 0x62).toInstr { atToken 16 with turns := [], br := r } = .next u := by
  rcases execLit_cases 0x62 { atToken 16 with turns := [], br := r } with ⟨h, -⟩ | ⟨-, h⟩
  · exact absurd (show outCap ≤ (atToken 16).dp from h) (by rw [atToken_fetch.2.2.2]; decide)
  · exact ⟨_, h⟩

theorem witness_StepRunsTheToken :
    (∃ r u, fetchFrom ((atToken 16).stream false) (atToken 16).br = .ok (.lit 0x62, r) ∧
      exec (Token.lit 0x62).toInstr { atToken 16 with turns := [], br := r } = .next u) ∧
    (atToken 16).cmd.getLsbD 3 = false ∧
    (∃ e, fetchFrom ((atToken 7).stream false) (atToken 7).br = .error e) ∧ (atToken 7).cmd.getLsbD 3 = false := by
  obtain ⟨u, hu⟩ := atToken_exec { racc := 0xA000, rcnt := 15, rp := 8 }
  exact ⟨⟨_, u, atToken_fetch.1, hu⟩, atToken_fetch.2.2.1, ⟨_, atToken_fetch.2.1⟩, atToken_fetch.2.2.1⟩

/-- The state an outcome gives, or the state after reset. -/
def stateOf (o : Host.Outcome State Fault Refusal) : State :=
  match o with
  | .next s => s
  | .fault _ => State.reset
  | .refused _ => State.reset

/-- The outcome is a next state. -/
def runs (o : Host.Outcome State Fault Refusal) : Bool :=
  match o with
  | .next _ => true
  | .fault _ => false
  | .refused _ => false

theorem runs_next {o : Host.Outcome State Fault Refusal} (h : runs o = true) : o = .next (stateOf o) := by
  cases o <;> simp_all [runs, stateOf]

/-- The first token of the worked stream leaves the block running; the second ends the command. -/
theorem witness_TokenByTokenEqualsWhole :
    ∃ t u, beforeTokens.phase = .run ∧ tokenMove beforeTokens = .next t ∧ t.phase = .run ∧
      tokenMove t = .next u ∧ u.phase ≠ .run :=
  ⟨stateOf (tokenMove beforeTokens), stateOf (tokenMove (stateOf (tokenMove beforeTokens))), by decide,
    runs_next (by decide), by decide, runs_next (by decide), by decide⟩

theorem witness_ResultsDependOnlyOnInputs :
    ∃ s s' : State, s ≠ s' ∧ s.ilen = s'.ilen ∧ s.rawlen = s'.rawlen ∧
      ∀ a, a < s.inLen → memRead s.ibuf a = memRead s'.ibuf a :=
  ⟨worked 16, { worked 16 with obuf := [(0, 1)], dp := 3, ht := [(5, 7)] }, by decide, rfl, rfl, fun _ _ => rfl⟩

theorem witness_EndedCommandIsLeftOnlyByCommandOrReset :
    ∃ s t : State, s.phase = .flt ∧ s.fault ≠ 0 ∧ step s = .next t ∧ t.phase = .run :=
  ⟨{ State.reset with phase := .flt, fault := 0x12, turns := [.host (.writeReg 0 2)] }, _, by decide, by decide, rfl, rfl⟩

/-- `COMPRESS` of one non-zero byte writes `IBUF[1]`, which held something else. -/
theorem witness_BlockWritesOnlyItsOwn :
    ∃ s t : State, s.phase = .run ∧ blockMove s = .next t ∧ memRead t.ibuf 1 ≠ memRead s.ibuf 1 :=
  ⟨{ given [0x41, 5] 0 1 with ilen := 1 }, _, by decide, rfl, by decide⟩

theorem witness_StepKeepsMemoriesCanonical :
    ∃ s t : State, Mem.wf s.ibuf ∧ Mem.wf s.obuf ∧ Sorted s.ht ∧ step s = .next t ∧ t.obuf ≠ s.obuf :=
  ⟨worked 16, _, by decide, by decide, by decide, rfl, by decide⟩

theorem witness_StepKeepsControl : ∃ s t : State, s.phase = .run ∧ ControlOk s ∧ step s = .next t :=
  ⟨worked 16, _, by decide, ⟨fun _ => ⟨rfl, rfl, rfl, rfl, rfl, rfl, rfl⟩, by decide, by decide⟩, rfl⟩

theorem worked_inv : Inv (worked 16) where
  memories := ⟨by decide, by decide, by decide, by decide, by decide, by decide, by decide⟩
  cursors := ⟨by decide, by decide, by decide, by decide, by decide, by decide, by decide, by decide, by decide, by decide⟩
  control := ⟨fun _ => ⟨rfl, rfl, rfl, rfl, rfl, rfl, rfl⟩, by decide, by decide⟩
  tokens := fun h => absurd h (by decide)

theorem beforeTokens_inv : Inv beforeTokens where
  memories := ⟨by decide, by decide, by decide, by decide, by decide, by decide, by decide⟩
  cursors := ⟨by decide, by decide, by decide, by decide, by decide, by decide, by decide, by decide, by decide, by decide⟩
  control := ⟨fun _ => ⟨rfl, rfl, rfl, rfl, rfl, rfl, rfl⟩, by decide, by decide⟩
  tokens := fun _ => ⟨by decide, by decide, by decide, by decide, by decide, by decide⟩

theorem witness_StepKeepsInvariant :
    (∃ t, Inv (worked 16) ∧ step (worked 16) = .next t) ∧ (∃ t, Inv beforeTokens ∧ step beforeTokens = .next t) :=
  ⟨⟨_, worked_inv, rfl⟩, _, beforeTokens_inv, rfl⟩

theorem witness_RunningBlockNeverStops : Inv (worked 16) ∧ Inv beforeTokens := ⟨worked_inv, beforeTokens_inv⟩

/-! The pipeline, with a cipher that complements each byte, the vectors' digest and markers of one byte. -/

/-- A block with each byte complemented. -/
def complemented (b : Vector Byte 8) : Vector Byte 8 := Vector.ofFn fun i => ~~~b[i]

theorem complemented_complemented (b : Vector Byte 8) : complemented (complemented b) = b := by
  ext i hi
  simp [complemented]

/-- Parameters for the witnesses. -/
def toyParams : Params where
  hash := defaultHash
  digest := vectorDigest
  encBlock := fun _ b => complemented b
  decBlock := fun _ b => complemented b
  markA := [0x3C]
  markB := [0x3C]

/-- A key for the witnesses. -/
def toyKey : Vector Byte 8 := Vector.replicate 8 0

/-- What an encoder of the pipeline gives, or nothing. -/
def encoded (v : Variant) (m : List Byte) : List Byte :=
  match encodeContainer toyParams toyKey v false m State.reset with
  | .ok c => c
  | .error _ => []

theorem witness_PlainContainerRoundTrip :
    (∀ b, toyParams.decBlock toyKey (toyParams.encBlock toyKey b) = b) ∧
    markPlain <+: markPlain ∧ markPlain.length + 16 ≤ inCap ∧
    (∀ j, 1 ≤ j → j ≤ 7 → toyParams.digest (markPlain ++ List.replicate j fill) ≠ toyParams.digest markPlain) ∧
    encodeContainer toyParams toyKey .plain false markPlain State.reset = .ok (encoded .plain markPlain) := by
  refine ⟨complemented_complemented, by decide, by decide, fun j h₁ h₇ => ?_, rfl⟩
  interval_cases j <;> decide

theorem witness_CompressedAContainerRoundTrip :
    encodeContainer toyParams toyKey .compressedA false [0x3C] State.reset = .ok (encoded .compressedA [0x3C]) ∧
    markerAt (decrypt toyParams toyKey (encoded .compressedA [0x3C])) 16 markPlain = false ∧
    markerAt (decrypt toyParams toyKey (encoded .compressedA [0x3C])) 20 toyParams.markA = true ∧
    (normalisedBytes [0x3C]).length ∉ ambiguousSizes := by decide

theorem witness_CompressedBContainerRoundTrip :
    vectorDigest ([0x3C] ++ [0]) ≠ vectorDigest [0x3C] ∧
    encodeContainer toyParams toyKey .compressedB false [0x3C] State.reset = .ok (encoded .compressedB [0x3C]) ∧
    markerAt (decrypt toyParams toyKey (encoded .compressedB [0x3C])) 16 markPlain = false ∧
    markerAt (decrypt toyParams toyKey (encoded .compressedB [0x3C])) 20 toyParams.markA = false ∧
    markerAt (decrypt toyParams toyKey (encoded .compressedB [0x3C])) 22 toyParams.markB = true ∧
    (normalisedBytes ((vectorDigest [0x3C]).toList ++ [0x3C])).length ∉ ambiguousSizes := by decide

theorem witness_ReturnedMarkupIsVerified :
    decodeContainer toyParams toyKey false (encoded .plain markPlain) State.reset = .ok markPlain ∧
    decodeContainer toyParams toyKey false (encoded .compressedA [0x3C]) State.reset = .ok [0x3C, 0] ∧
    decodeContainer toyParams toyKey true (encoded .compressedB [0x3C]) State.reset = .ok [0x3C] := by decide

theorem witness_ContainerFormatFaults :
    (inCap < (List.replicate 0x20001 (0 : Byte)).length ∧ ([0] : List Byte).length ≤ inCap ∧
      ([0] : List Byte).length % 8 ≠ 0) ∧
    (List.replicate 16 (0 : Byte)).length ≤ inCap ∧ (List.replicate 16 (0 : Byte)).length % 8 = 0 ∧
    markerAt (decrypt toyParams toyKey (List.replicate 16 0)) 16 markPlain = false ∧
    markerAt (decrypt toyParams toyKey (List.replicate 16 0)) 20 toyParams.markA = false ∧
    markerAt (decrypt toyParams toyKey (List.replicate 16 0)) 22 toyParams.markB = false :=
  ⟨⟨by rw [List.length_replicate]; decide, by decide, by decide⟩, by decide, by decide, by decide, by decide, by decide⟩

end Sys2Proof.Tests
end

section
/-! PROOFS. The wide accesses (20_memory R61 to R63): which byte of a 32-bit number or of a flag word stands at which
address, and what a read gives after a 4-byte write or a flag-word write. -/

namespace Sys2Proof

/-! ### The bytes of a number, by arithmetic -/

/-- Big-endian byte order is little-endian byte order counted from the other end. -/
theorem wordByte_false (w : Word) (i : Nat) : wordByte false w i = wordByte true w (3 - i) := rfl

theorem wordByte_true_toNat (w : Word) (i : Nat) : (wordByte true w i).toNat = w.toNat / 256 ^ i % 256 := by
  have hpow : 2 ^ (8 * i) = 256 ^ i := pow_mul 2 8 i
  simp [wordByte, Nat.shiftRight_eq_div_pow, hpow]

theorem half_lowByte_toNat (h : Half) : (h.extractLsb' 0 8).toNat = h.toNat % 256 := by
  simp

theorem half_highByte_toNat (h : Half) : (h.extractLsb' 8 8).toNat = h.toNat / 256 := by
  have hlt : h.toNat < 65536 := h.isLt
  simp only [BitVec.extractLsb'_toNat, Nat.shiftRight_eq_div_pow]
  omega

theorem halfBytes_fst_toNat (le : Bool) (h : Half) :
    (halfBytes le h).1.toNat = if le then h.toNat % 256 else h.toNat / 256 := by
  cases le
  · exact half_highByte_toNat h
  · exact half_lowByte_toNat h

theorem halfBytes_snd_toNat (le : Bool) (h : Half) :
    (halfBytes le h).2.toNat = if le then h.toNat / 256 else h.toNat % 256 := by
  cases le
  · exact half_lowByte_toNat h
  · exact half_highByte_toNat h

namespace Machine

/-! ### Four-byte accesses -/

theorem memRead_memWrite4 (m : Mem) (le : Bool) (a : Nat) (v : Word) {i : Nat} (hi : i < 4) :
    memRead (memWrite4 le m a v) (a + i) = wordByte le v i := by
  unfold memWrite4
  interval_cases i <;> simp [memRead_memWrite]

@[simp] theorem memRead4_memWrite4 (le : Bool) (m : Mem) (a : Nat) (v : Word) :
    memRead4 le (memWrite4 le m a v) a = v := by
  have h₀ := memRead_memWrite4 m le a v (i := 0) (by decide)
  have h₁ := memRead_memWrite4 m le a v (i := 1) (by decide)
  have h₂ := memRead_memWrite4 m le a v (i := 2) (by decide)
  have h₃ := memRead_memWrite4 m le a v (i := 3) (by decide)
  rw [Nat.add_zero] at h₀
  rw [memRead4, h₀, h₁, h₂, h₃, wordOf_wordByte]

/-! ### Flag-word writes -/

section PutHalf
variable {le : Bool} {a : Nat} {h : Half} {o o' : Out}

theorem memRead_putHalfAt_fst (hok : putHalfAt le a h o = .ok o') : memRead o'.obuf a = (halfBytes le h).1 := by
  obtain ⟨-, rfl⟩ := putHalfAt_ok_iff.1 hok
  simp [memRead_memWrite]

theorem memRead_putHalfAt_snd (hok : putHalfAt le a h o = .ok o') : memRead o'.obuf (a + 1) = (halfBytes le h).2 := by
  obtain ⟨-, rfl⟩ := putHalfAt_ok_iff.1 hok
  simp

theorem memRead_putHalfAt_other (hok : putHalfAt le a h o = .ok o') {b : Nat} (h₀ : b ≠ a) (h₁ : b ≠ a + 1) :
    memRead o'.obuf b = memRead o.obuf b := by
  obtain ⟨-, rfl⟩ := putHalfAt_ok_iff.1 hok
  rw [memRead_memWrite_other _ _ h₁, memRead_memWrite_other _ _ h₀]

end PutHalf

/-- Settles O7: every byte read after the write is a byte of the number, and those have the stated arithmetic. -/
theorem wideAccessesAreByteAccesses : Obligations.WideAccessesAreByteAccesses := by
  unfold Obligations.WideAccessesAreByteAccesses
  constructor
  · intro m a v
    refine ⟨memRead4_memWrite4 true m a v, memRead4_memWrite4 false m a v, fun i hi => ?_, fun i hi => ?_,
      fun le b hb => memRead_memWrite4_other m le v hb⟩
    · rw [memRead_memWrite4 m true a v hi, wordByte_true_toNat]
    · rw [memRead_memWrite4 m false a v hi, wordByte_false, wordByte_true_toNat]
  · intro le a h o o' hok
    rw [memRead_putHalfAt_fst hok, memRead_putHalfAt_snd hok]
    exact ⟨halfBytes_fst_toNat le h, halfBytes_snd_toNat le h, halfOf_halfBytes le h,
      fun b h₀ h₁ => memRead_putHalfAt_other hok h₀ h₁⟩

end Machine

end Sys2Proof
end

section
/-! PROOFS. What a move of the host and a move of the running block can leave, said once: every claim about a step is then
a short case analysis. -/

namespace Sys2Proof.Machine

/-! ### The host's moves (70_reset R263) -/

/-- What an access of the host can leave: a reset; what the host read, and a draw counted; and outside `RUN` a write. -/
inductive HostLeaves (s : State) : State → Prop
  | reset : HostLeaves s (resetMove s)
  | answer (rdata : Word) (draws : Nat) : HostLeaves s { s with rdata := rdata, draws := draws }
  | command (w : Word) : s.phase ≠ .run → HostLeaves s (acceptCommand w s)
  | ilen (v : Word) : s.phase ≠ .run → HostLeaves s { s with ilen := v }
  | rawlen (v : Word) : s.phase ≠ .run → HostLeaves s { s with rawlen := v }
  | ibuf (a : Nat) (b : Byte) : s.phase ≠ .run → a < inCap → HostLeaves s { s with ibuf := memWrite s.ibuf a b }
  | obuf (a : Nat) (b : Byte) : s.phase ≠ .run → a < outCap → HostLeaves s { s with obuf := memWrite s.obuf a b }

theorem readRegMove_leaves {offset : Nat} {s t : State} (h : readRegMove offset s = .next t) : HostLeaves s t := by
  unfold readRegMove at h
  cases hr : regAt offset with
  | none => simp [hr] at h
  | some r =>
    simp only [hr] at h
    split_ifs at h
    obtain rfl := Host.Outcome.next.inj h
    exact .answer _ s.draws

theorem writeRegMove_leaves {offset : Nat} {v : Word} {s t : State} (h : writeRegMove offset v s = .next t) :
    HostLeaves s t := by
  unfold writeRegMove at h
  cases hr : regAt offset with
  | none => simp [hr] at h
  | some r =>
    by_cases hrun : s.phase = .run
    · cases r <;> simp [hr, hrun] at h
      exact h ▸ .answer s.rdata s.draws
    · cases r <;> simp only [hr, hrun, if_false] at h <;> obtain rfl := Host.Outcome.next.inj h
      case cmd => exact .command v hrun
      case ilen => exact .ilen v hrun
      case rawlen => exact .rawlen v hrun
      all_goals exact .answer s.rdata s.draws

theorem hostMove_leaves {op : HostOp} {s t : State} (h : hostMove op s = .next t) : HostLeaves s t := by
  cases op with
  | reset => obtain rfl := Host.Outcome.next.inj h; exact .reset
  | readReg offset => exact readRegMove_leaves h
  | writeReg offset v => exact writeRegMove_leaves h
  | readIbuf a =>
    obtain ⟨-, -, rfl⟩ := bufferMove_next_iff.1 h
    exact .answer _ s.draws
  | writeIbuf a b =>
    obtain ⟨hrun, ha, rfl⟩ := bufferMove_next_iff.1 h
    exact .ibuf a b hrun ha
  | readObuf a =>
    change readObufMove a s = .next t at h
    unfold readObufMove at h
    split_ifs at h
    · obtain ⟨-, -, rfl⟩ := bufferMove_next_iff.1 h
      exact .answer _ s.draws
    · obtain ⟨-, -, rfl⟩ := bufferMove_next_iff.1 h
      exact .answer _ _
  | writeObuf a b =>
    obtain ⟨hrun, ha, rfl⟩ := bufferMove_next_iff.1 h
    exact .obuf a b hrun ha

/-! ### The running `DECOMPRESS`, at either granularity -/

/-- The decompressor's parts at which a running `DECOMPRESS` stands before a token, or at its end: the one it was taken up
at, the one after `D_INIT`, and those after each further token. -/
inductive DecReached (s : State) : Dec → Prop
  | resumed : s.pos = .tokens → DecReached s s.dec
  | begun {d : Dec} : s.inLen ≤ inCap → dInit s.le s = .ok d → DecReached s d
  | token {d d' : Dec} : DecReached s d → d.dp < s.rawLen → dStep (s.stream s.le) s.rawLen d = .ok d' → DecReached s d'

/-- The decompressor's parts with which a running `DECOMPRESS` faults: untouched, as `D_INIT` leaves it, or as a token
leaves it. -/
inductive DecFaulted (s : State) : Dec → Prop
  | early : DecFaulted s s.dec
  | first {d : Dec} {cause : Cause} : s.inLen ≤ inCap → dInit s.le s = .error (cause, d) → DecFaulted s d
  | token {d d' : Dec} {cause : Cause} : DecReached s d → d.dp < s.rawLen →
      dStep (s.stream s.le) s.rawLen d = .error (cause, d') → DecFaulted s d'

/-- What a move of a running `DECOMPRESS` can leave: a fault, the results, or the command before its next token. -/
inductive DecLeaves (s : State) : State → Prop
  | fault (cause : Cause) {d : Dec} : DecFaulted s d → DecLeaves s (raise cause (s.setDec d))
  | done {d : Dec} : DecReached s d → DecLeaves s (decompressDone (s.setDec d))
  | more {d : Dec} : DecReached s d → d.dp < s.rawLen → DecLeaves s { s.setDec d with pos := .tokens }

/-- The loop of `D_MAIN` stands, or faults, where tokens lead. -/
theorem dMain_reached {s : State} {fuel : Nat} {d : Dec} (hd : DecReached s d) :
    (∀ d', dMain (s.stream s.le) s.rawLen fuel d = .ok d' → DecReached s d') ∧
    (∀ cause d', dMain (s.stream s.le) s.rawLen fuel d = .error (cause, d') → DecFaulted s d') := by
  induction fuel generalizing d with
  | zero => exact ⟨fun d' h => Except.ok.inj h ▸ hd, fun cause d' h => nomatch h⟩
  | succ fuel ih =>
    rw [dMain_succ]
    split_ifs with hlt
    · constructor
      · intro d' h
        obtain ⟨d₁, h₁, h⟩ := bind_ok_iff.1 h
        exact (ih (.token hd hlt h₁)).1 d' h
      · intro cause d' h
        rcases bind_error_iff.1 h with h | ⟨d₁, h₁, h⟩
        · exact .token hd hlt h
        · exact (ih (.token hd hlt h₁)).2 cause d' h
    · exact ⟨fun d' h => Except.ok.inj h ▸ hd, fun cause d' h => nomatch h⟩

/-- `D_MAIN` to its end, from a part reached. -/
theorem decompressRest_leaves {s : State} {d : Dec} (hd : DecReached s d) :
    DecLeaves s (decompressRest s.le (s.setDec d)) := by
  obtain ⟨hok, herr⟩ := dMain_reached (fuel := s.rawLen - d.dp) hd
  rcases decompressRest_cases s.le (s.setDec d) with ⟨cause, d', hm, h⟩ | ⟨d', hm, h⟩
  · rw [h]; exact .fault cause (herr cause d' hm)
  · rw [h]; exact .done (hok d' hm)

theorem decompressWhole_leaves (s : State) : DecLeaves s (decompressWhole s.le s) := by
  rcases decompressWhole_cases s.le s with ⟨-, h⟩ | ⟨hcap, cause, d, hi, h⟩ | ⟨hcap, d, hi, h⟩
  · rw [h]; exact .fault (d := s.dec) .ilenRange .early
  · rw [h]; exact .fault cause (.first hcap hi)
  · rw [h]; exact decompressRest_leaves (.begun hcap hi)

/-- The command after a token: at its end when `DP` has reached N, else before the next token. -/
theorem closeTokens_leaves {s : State} {d : Dec} (hrun : s.phase = .run) (hd : DecReached s d) :
    DecLeaves s (closeTokens { s.setDec d with pos := .tokens }) := by
  unfold closeTokens
  split_ifs with h
  · exact .done hd
  · exact .more hd (Nat.lt_of_not_le fun hle => h ⟨hrun, hle⟩)

theorem startTokens_leaves {s : State} (hrun : s.phase = .run) : DecLeaves s (startTokens s.le s) := by
  unfold startTokens
  split_ifs with hcap
  · exact .fault (d := s.dec) .ilenRange .early
  · rcases hi : dInit s.le s with ⟨cause, d⟩ | d
    · exact .fault cause (.first (by omega) hi)
    · exact closeTokens_leaves hrun (.begun (by omega) hi)

/-- The meaning of a token, where it has one, is the token's effect on the decompressor's part. -/
theorem exec_token_cases {tok : Token} {s t : State} (h : exec tok.toInstr s = .next t) :
    (∃ cause, tokenEffect s.rawLen tok s.dec = .error cause ∧ t = raise cause s) ∨
    (∃ d, tokenEffect s.rawLen tok s.dec = .ok d ∧ t = s.setDec d) := by
  cases tok with
  | lit b =>
    change execLit b s = .next t at h
    unfold execLit at h
    split_ifs at h
    exact .inr ⟨_, rfl, (Host.Outcome.next.inj h).symm⟩
  | copy mlen dist =>
    change execMatch mlen dist s = .next t at h
    change (∃ cause, tokMatch s.rawLen mlen dist s.dec = .error cause ∧ _) ∨
      ∃ d, tokMatch s.rawLen mlen dist s.dec = .ok d ∧ _
    unfold execMatch at h
    rcases hm : tokMatch s.rawLen mlen dist s.dec with cause | d <;> simp only [hm] at h
    · exact .inl ⟨cause, rfl, (Host.Outcome.next.inj h).symm⟩
    · split_ifs at h
      exact .inr ⟨d, rfl, (Host.Outcome.next.inj h).symm⟩

/-- A stream that ends inside the token: the fault, with the reader's registers as they stood before it (log 18). -/
theorem tokenStep_of_underrun {s : State} {e : Reject} (hlt : s.dp < s.rawLen)
    (hf : fetchFrom (s.stream s.le) s.br = .error e) : tokenStep s = .next (raise .srcUnderrun s) := by
  simp [tokenStep, hlt, fetchToken, hf]

/-- A token at `RP`: its meaning, and the end of the command at N. -/
theorem tokenStep_of_token {s : State} {tok : Token} {r : BitReader} (hlt : s.dp < s.rawLen)
    (hf : fetchFrom (s.stream s.le) s.br = .ok (tok, r)) :
    tokenStep s = closeMove (exec tok.toInstr { s with br := r }) := by
  simp [tokenStep, hlt, fetchToken, hf]

/-- A token whose effect is a fault is a faulting iteration of `D_MAIN`. -/
theorem dStep_of_error {src : Stream} {rawLen : Nat} {d : Dec} {tok : Token} {r : BitReader} {cause : Cause}
    (hf : fetchFrom src d.br = .ok (tok, r)) (ht : tokenEffect rawLen tok { d with br := r } = .error cause) :
    dStep src rawLen d = .error (cause, { d with br := r }) := by
  simp [dStep, hf, ht]

/-- A token that has its effect is an iteration of `D_MAIN`. -/
theorem dStep_of_ok {src : Stream} {rawLen : Nat} {d d' : Dec} {tok : Token} {r : BitReader}
    (hf : fetchFrom src d.br = .ok (tok, r)) (ht : tokenEffect rawLen tok { d with br := r } = .ok d') :
    dStep src rawLen d = .ok d' := by
  simp [dStep, hf, ht]

/-- A token's step does one iteration of `D_MAIN`. -/
theorem tokenStep_leaves {s t : State} (hrun : s.phase = .run) (hpos : s.pos = .tokens) (h : tokenStep s = .next t) :
    DecLeaves s t := by
  have hd : DecReached s s.dec := .resumed hpos
  by_cases hlt : s.dp < s.rawLen
  · rcases hf : fetchFrom (s.stream s.le) s.br with e | ⟨tok, r⟩
    · rw [tokenStep_of_underrun hlt hf] at h
      obtain rfl := Host.Outcome.next.inj h
      exact .fault (d := s.dec) _ .early
    rw [tokenStep_of_token hlt hf] at h
    rcases he : exec tok.toInstr { s with br := r } with u | f | f <;> rw [he] at h <;> cases h
    rcases exec_token_cases he with ⟨cause, ht, rfl⟩ | ⟨d, ht, rfl⟩
    · exact .fault cause (.token hd hlt (dStep_of_error hf ht))
    · have hmid : s.setDec d = { s.setDec d with pos := .tokens } := by rw [← hpos]; rfl
      have hclose := closeTokens_leaves hrun (.token hd hlt (dStep_of_ok hf ht))
      rwa [← hmid] at hclose
  · rw [tokenStep, if_neg hlt] at h
    obtain rfl := Host.Outcome.next.inj h
    exact .done hd

/-! ### The running block's move (70_reset R282) -/

/-- What a running block's move can leave, at either granularity: the end of the command, or what a `DECOMPRESS` leaves. -/
inductive BlockLeaves (s : State) : State → Prop
  | compress : s.pos = .start → fetchCommand s = .compress s.le →
      BlockLeaves s (compressWith Config.params.hash s.le s)
  | verify : s.pos = .start → fetchCommand s = .verify s.le → BlockLeaves s (verifyWith Config.params.digest s)
  | resolve : s.pos = .start → fetchCommand s = .resolve s.le → BlockLeaves s (resolveWith s.le s)
  | reserved : s.pos = .start → fetchCommand s = .reservedOp s.cmd → BlockLeaves s (raise (reservedCause s.cmd) s)
  | decompress {t : State} : (s.pos = .tokens ∨ fetchCommand s = .decompress s.le) → DecLeaves s t → BlockLeaves s t

/-- A command run to its end. -/
theorem exec_fetchCommand_leaves {s t : State} (hpos : s.pos = .start) (h : exec (fetchCommand s) s = .next t) :
    BlockLeaves s t := by
  rcases decodeCommand_cases s.cmd with hc | hc | hc | hc | hc <;>
    (change fetchCommand s = _ at hc; rw [hc] at h; obtain rfl := Host.Outcome.next.inj h)
  · exact .compress hpos hc
  · exact .decompress (.inr hc) (decompressWhole_leaves s)
  · exact .verify hpos hc
  · exact .resolve hpos hc
  · exact .reserved hpos hc

/-- The first step of a command taken token by token. -/
theorem startStep_fetchCommand_leaves {s t : State} (hrun : s.phase = .run) (hpos : s.pos = .start)
    (h : startStep (fetchCommand s) s = .next t) : BlockLeaves s t := by
  by_cases hc : fetchCommand s = .decompress s.le
  · rw [hc] at h
    obtain rfl := Host.Outcome.next.inj h
    exact .decompress (.inr hc) (startTokens_leaves hrun)
  · refine exec_fetchCommand_leaves hpos (h ▸ ?_)
    rcases decodeCommand_cases s.cmd with hc' | hc' | hc' | hc' | hc' <;> change fetchCommand s = _ at hc' <;> rw [hc']
    case inr.inl => exact absurd hc' hc
    all_goals rfl

theorem runningMove_leaves {s t : State} (hrun : s.phase = .run)
    (h : blockMove s = .next t ∨ tokenMove s = .next t) : BlockLeaves s t := by
  cases hpos : s.pos with
  | start =>
    rw [blockMove_of_start hrun hpos, tokenMove_of_start hrun hpos] at h
    exact h.elim (exec_fetchCommand_leaves hpos) (startStep_fetchCommand_leaves hrun hpos)
  | tokens =>
    rw [blockMove_of_tokens hrun hpos, tokenMove_of_tokens hrun hpos] at h
    refine .decompress (.inl hpos) (h.elim (fun h => ?_) (tokenStep_leaves hrun hpos))
    obtain rfl := Host.Outcome.next.inj h
    exact decompressRest_leaves (d := s.dec) (.resumed hpos)

/-! ### A step -/

/-- A claim that the listing of turns does not touch is kept by every step, if every access of the host and every move of
the running block keeps it. -/
theorem step_keeps {P : State → Prop} (hturns : ∀ s rest, P s → P { s with turns := rest })
    (hhost : ∀ s t, P s → HostLeaves s t → P t) (hblock : ∀ s t, P s → s.phase = .run → BlockLeaves s t → P t)
    {s t : State} (hs : P s) (h : step s = .next t) : P t := by
  have hmove : ∀ {u : State}, P u → blockMove u = .next t ∨ tokenMove u = .next t → P t := by
    intro u hu h
    by_cases hrun : u.phase = .run
    · exact hblock u t hu hrun (runningMove_leaves hrun h)
    · rw [blockMove_of_not_running hrun, tokenMove_of_not_running hrun, or_self] at h
      exact Host.Outcome.next.inj h ▸ hu
  rcases step_cases s with ⟨-, h'⟩ | ⟨op, rest, -, h'⟩ | ⟨rest, -, h'⟩ | ⟨rest, -, h'⟩ <;> rw [h'] at h
  · exact hmove hs (.inl h)
  · exact hhost _ t (hturns s rest hs) (hostMove_leaves h)
  · exact hmove (hturns s rest hs) (.inl h)
  · exact hmove (hturns s rest hs) (.inr h)

end Sys2Proof.Machine
end

section
/-! PROOFS. STATUS and the registers as the host reads them, a step by one token, and what each command leaves of the
registers: the control state and the block's own frame (10_state R31, R40 to R46). -/

namespace Sys2Proof.Machine

/-! ### Registers as the host reads them -/

/-- Bit `j` of a word that has the one bit `i`. -/
theorem bitAt_getLsbD {i j : Nat} (b : Bool) (hi : i < 32) : (bitAt i b).getLsbD j = (decide (i = j) && b) := by
  cases b
  · simp [bitAt]
  · simp only [bitAt, if_true, BitVec.getLsbD_ofNat, Nat.testBit_two_pow, Bool.and_true]
    grind

/-- Every bit of `STATUS` is one of six, or 0 (10_state R41). -/
theorem statusWord_getLsbD (s : State) (j : Nat) :
    (statusWord s).getLsbD j =
      ((decide (0 = j) && decide (s.phase = .run)) || (decide (1 = j) && decide (s.phase = .done ∨ s.phase = .flt))
        || (decide (2 = j) && decide (s.phase = .flt)) || (decide (3 = j) && s.vok) || (decide (4 = j) && s.rle)
        || (decide (5 = j) && s.flip)) := by
  simp only [statusWord, BitVec.getLsbD_or]
  rw [bitAt_getLsbD _ (by decide), bitAt_getLsbD _ (by decide), bitAt_getLsbD _ (by decide),
    bitAt_getLsbD _ (by decide), bitAt_getLsbD _ (by decide), bitAt_getLsbD _ (by decide)]

/-- Settles O34: at each position at most one of the six bits of `statusWord_getLsbD` stands. -/
theorem statusFields : Obligations.StatusFields := by
  unfold Obligations.StatusFields
  intro s
  simp only [statusWord_getLsbD]
  refine ⟨by simp, by simp, by simp, by simp, by simp, by simp, fun i hi => ?_⟩
  have above (j : Nat) (hj : j < 6) : decide (j = i) = false := decide_eq_false (by omega)
  simp [above]

/-- Outside `RUN` a register is read without a side effect. -/
theorem readReg_idle {offset : Nat} {r : Reg} {s : State} (hs : s.phase ≠ .run) (hr : regAt offset = some r) :
    hostMove (.readReg offset) s = .next { s with rdata := regValue s r } := by
  simp [hostMove, readRegMove, hr, hs]

/-- A narrow register is extended with zeros. -/
theorem regValue_narrow (s : State) :
    regValue s .olen = BitVec.ofNat 32 s.olen.toNat ∧ regValue s .opad = BitVec.ofNat 32 s.opad.toNat ∧
      regValue s .vk = BitVec.ofNat 32 s.vk.toNat :=
  ⟨(BitVec.ofNat_toNat 32 s.olen).symm, (BitVec.ofNat_toNat 32 s.opad).symm, (BitVec.ofNat_toNat 32 s.vk).symm⟩

/-- An offset outside the map of 10_state R40 names no register. -/
theorem regAt_eq_none {offset : Nat} (h : offset ∉ [0, 4, 8, 0xC, 0x10, 0x14, 0x18, 0x1C]) : regAt offset = none := by
  unfold regAt
  split <;> simp_all

/-- Settles O37: each offset's register is read by `readReg_idle`, the writes by the register they name. -/
theorem idleRegisterAccess : Obligations.IdleRegisterAccess := by
  unfold Obligations.IdleRegisterAccess
  intro s hs
  obtain ⟨holen, hopad, hvk⟩ := regValue_narrow s
  rw [← holen, ← hopad, ← hvk]
  refine ⟨readReg_idle (r := .cmd) hs rfl, readReg_idle (r := .status) hs rfl, readReg_idle (r := .fault) hs rfl,
    readReg_idle (r := .ilen) hs rfl, readReg_idle (r := .rawlen) hs rfl, readReg_idle (r := .olen) hs rfl,
    readReg_idle (r := .opad) hs rfl, readReg_idle (r := .vk) hs rfl, fun v => if_neg hs, fun v => if_neg hs, ?_, ?_⟩
  · intro o v ho
    fin_cases ho <;> exact if_neg hs
  · intro o ho
    simp [hostMove, readRegMove, regAt_eq_none ho]

/-! ### A step by one token -/

/-- Settles O40: the step is the token's step of the state without the turn, which fetches, executes and closes. -/
theorem stepRunsTheToken : Obligations.StepRunsTheToken := by
  unfold Obligations.StepRunsTheToken
  intro s rest hrun hpos hlt hturns
  have hstep : step s = tokenStep { s with turns := rest } := by
    unfold step
    rw [nextTurn_cons hturns]
    exact tokenMove_of_tokens hrun hpos
  constructor
  · intro t r u hf he
    rw [hstep, tokenStep_of_token (s := { s with turns := rest }) hlt hf, he]
    rfl
  · intro e hf
    rw [hstep, tokenStep_of_underrun (s := { s with turns := rest }) hlt hf]
    exact raise_faultsWith .srcUnderrun _

/-! ### How a command ends (10_state R41, R42) -/

/-- `t` is the end of a command that ran in `s`: `FLT` with a fault, or `DONE` with `FAULT` as it was. -/
def Ends (s t : State) : Prop :=
  t.pos = .start ∧ (t.phase = .flt ∧ t.fault ≠ 0 ∨ t.phase = .done ∧ t.fault = s.fault)

theorem raise_ends (cause : Cause) (s u : State) : Ends s (raise cause u) :=
  ⟨rfl, .inl ⟨rfl, faultCode_ne_zero cause⟩⟩

theorem done_ends {s t : State} (hpos : t.pos = .start) (hphase : t.phase = .done) (hfault : t.fault = s.fault) :
    Ends s t := ⟨hpos, .inr ⟨hphase, hfault⟩⟩

/-- What `NORMALISE` leaves where it does not fault: `IBUF` with a zero at `ILEN` or as it was, and N in `RAWLEN`. -/
theorem normalise_ok_cases {s s' : State} (h : normalise s = .ok s') :
    s.inLen ≠ 0 ∧
      (s.inLen ≠ inCap ∧
          s' = { s with ibuf := memWrite s.ibuf s.inLen 0, rawlen := BitVec.ofNat 32 (s.inLen + 1) } ∨
        s' = { s with rawlen := BitVec.ofNat 32 s.inLen }) := by
  rcases normalise_cases s with ⟨-, h'⟩ | ⟨-, -, -, h'⟩ | ⟨h0, -, hne, h'⟩ | ⟨h0, -, h'⟩ <;> rw [h'] at h <;> cases h
  · exact ⟨h0, .inl ⟨hne, rfl⟩⟩
  · exact ⟨h0, .inr rfl⟩

theorem compressWith_ends (hash : Hash) (le : Bool) (s : State) : Ends s (compressWith hash le s) := by
  rcases compressWith_cases hash le s with ⟨-, h⟩ | ⟨-, _, -, h⟩ | ⟨-, _, _, -, -, h⟩ | ⟨-, s', c, hn, -, h⟩ <;> rw [h]
  · exact raise_ends _ _ _
  · exact raise_ends _ _ _
  · exact raise_ends _ _ _
  · exact done_ends rfl rfl (by rcases normalise_ok_cases hn with ⟨-, ⟨-, rfl⟩ | rfl⟩ <;> rfl)

theorem verifyWith_ends (digest : List Byte → Vector Byte 16) (s : State) : Ends s (verifyWith digest s) := by
  rcases verifyWith_cases digest s with ⟨-, h⟩ | ⟨-, -, h⟩ | ⟨-, _, -, h⟩ <;> rw [h]
  · exact raise_ends _ _ _
  · exact raise_ends _ _ _
  · exact done_ends rfl rfl rfl

theorem resolveWith_ends (le : Bool) (s : State) : Ends s (resolveWith le s) := by
  rcases resolveWith_cases le s with ⟨-, h⟩ | ⟨-, h⟩ | ⟨-, -, -, h⟩ | ⟨-, -, -, -, h⟩ | ⟨-, -, -, -, h⟩ <;> rw [h]
  · exact raise_ends _ _ _
  · exact raise_ends _ _ _
  · exact done_ends rfl rfl rfl
  · exact done_ends rfl rfl rfl
  · exact raise_ends _ _ _

/-- A running block's move ends the command, or leaves a `DECOMPRESS` before its next token. -/
theorem blockLeaves_ends {s t : State} (h : BlockLeaves s t) :
    Ends s t ∨ ∃ d, t = { s.setDec d with pos := .tokens } := by
  cases h with
  | compress _ _ => exact .inl (compressWith_ends _ _ _)
  | verify _ _ => exact .inl (verifyWith_ends _ _)
  | resolve _ _ => exact .inl (resolveWith_ends _ _)
  | reserved _ _ => exact .inl (raise_ends _ _ _)
  | decompress _ h =>
    cases h with
    | fault cause _ => exact .inl (raise_ends _ _ _)
    | done _ => exact .inl (done_ends rfl rfl rfl)
    | more _ _ => exact .inr ⟨_, rfl⟩

/-! ### The control state (10_state R40 to R42) -/

/-- At the end of a command whose results were clear, control stands as `ControlOk` says. -/
theorem controlOk_of_ends {s t : State} (hs : s.fault = 0) (h : Ends s t) : ControlOk t := by
  obtain ⟨hpos, ⟨hphase, hfault⟩ | ⟨hphase, hfault⟩⟩ := h
  · exact ⟨by simp [hphase], ⟨fun _ => hfault, fun _ => hphase⟩, fun _ => hpos⟩
  · exact ⟨by simp [hphase], by simp [hphase, hfault, hs], fun _ => hpos⟩

/-- Control reads `PHASE`, `pos` and the results only. -/
theorem controlOk_congr {s t : State} (hs : ControlOk s)
    (h : (t.phase, t.pos, t.fault, t.olen, t.opad, t.vk, t.vok, t.rle, t.flip) =
      (s.phase, s.pos, s.fault, s.olen, s.opad, s.vk, s.vok, s.rle, s.flip)) : ControlOk t := by
  simp only [Prod.mk.injEq] at h
  obtain ⟨hphase, hpos, hfault, holen, hopad, hvk, hvok, hrle, hflip⟩ := h
  refine ⟨fun hrun => ?_, by rw [hphase, hfault]; exact hs.faulted, fun hrun => hpos.trans (hs.at_start (hphase ▸ hrun))⟩
  have clear := hs.running (hphase ▸ hrun)
  exact ⟨hfault.trans clear.fault, holen.trans clear.olen, hopad.trans clear.opad, hvk.trans clear.vk,
    hvok.trans clear.vok, hrle.trans clear.rle, hflip.trans clear.flip⟩

theorem controlOk_reset : ControlOk State.reset := by
  constructor <;> simp [State.reset]

theorem controlOk_host {s t : State} (hs : ControlOk s) (h : HostLeaves s t) : ControlOk t := by
  cases h with
  | reset => exact controlOk_congr controlOk_reset rfl
  | command w _ => exact ⟨fun _ => ⟨rfl, rfl, rfl, rfl, rfl, rfl, rfl⟩, by simp, fun _ => rfl⟩
  | answer _ _ | ilen _ _ | rawlen _ _ | ibuf _ _ _ _ | obuf _ _ _ _ => exact controlOk_congr hs rfl

theorem controlOk_block {s t : State} (hs : ControlOk s) (hrun : s.phase = .run) (h : BlockLeaves s t) :
    ControlOk t := by
  have hclear := hs.running hrun
  rcases blockLeaves_ends h with h | ⟨d, rfl⟩
  · exact controlOk_of_ends hclear.fault h
  · obtain ⟨h₁, h₂, h₃, h₄, h₅, h₆, h₇⟩ := hclear
    exact ⟨fun _ => ⟨h₁, h₂, h₃, h₄, h₅, h₆, h₇⟩, hs.faulted, fun h => absurd hrun h⟩

/-- Settles O46: each access of the host and each move of the running block keeps the control state. -/
theorem stepKeepsControl : Obligations.StepKeepsControl := by
  unfold Obligations.StepKeepsControl
  intro s t hs h
  exact step_keeps (fun _ _ hs => controlOk_congr hs rfl) (fun _ _ => controlOk_host) (fun _ _ => controlOk_block) hs h

/-! ### What the block writes (10_state R31, R44, R45, R51; 20_memory R76) -/

/-- What no move of the block writes: `CMD`, `ILEN` and the turns. -/
def SameInputRegs (s t : State) : Prop := t.cmd = s.cmd ∧ t.ilen = s.ilen ∧ t.turns = s.turns

/-- `COMPRESS` writes no flag, and `IBUF` only at `ILEN`, a zero. -/
theorem compressWith_frame (hash : Hash) (le : Bool) (s : State) :
    SameInputRegs s (compressWith hash le s) ∧
      ((compressWith hash le s).vok = s.vok ∧ (compressWith hash le s).vk = s.vk) ∧
      ((compressWith hash le s).rle = s.rle ∧ (compressWith hash le s).flip = s.flip) ∧
      ((compressWith hash le s).ibuf = s.ibuf ∨ (compressWith hash le s).ibuf = memWrite s.ibuf s.inLen 0) := by
  rcases compressWith_cases hash le s with ⟨-, h⟩ | ⟨-, _, -, h⟩ | ⟨-, s', c, hn, -, h⟩ | ⟨-, s', c, hn, -, h⟩ <;> rw [h]
  · exact ⟨⟨rfl, rfl, rfl⟩, ⟨rfl, rfl⟩, ⟨rfl, rfl⟩, .inl rfl⟩
  · exact ⟨⟨rfl, rfl, rfl⟩, ⟨rfl, rfl⟩, ⟨rfl, rfl⟩, .inl rfl⟩
  all_goals
    obtain ⟨-, ⟨-, rfl⟩ | rfl⟩ := normalise_ok_cases hn
    · exact ⟨⟨rfl, rfl, rfl⟩, ⟨rfl, rfl⟩, ⟨rfl, rfl⟩, .inr rfl⟩
    · exact ⟨⟨rfl, rfl, rfl⟩, ⟨rfl, rfl⟩, ⟨rfl, rfl⟩, .inl rfl⟩

/-- `VERIFY` writes no register but `VOK` and `VK`. -/
theorem verifyWith_frame (digest : List Byte → Vector Byte 16) (s : State) :
    SameInputRegs s (verifyWith digest s) ∧ (verifyWith digest s).ibuf = s.ibuf ∧
      ((verifyWith digest s).rle = s.rle ∧ (verifyWith digest s).flip = s.flip) ∧
      (verifyWith digest s).rawlen = s.rawlen := by
  rcases verifyWith_cases digest s with ⟨-, h⟩ | ⟨-, -, h⟩ | ⟨-, _, -, h⟩ <;> rw [h] <;>
    exact ⟨⟨rfl, rfl, rfl⟩, rfl, ⟨rfl, rfl⟩, rfl⟩

/-- `RESOLVE` writes no register but `RAWLEN`, `RLE` and `FLIP`. -/
theorem resolveWith_frame (le : Bool) (s : State) :
    SameInputRegs s (resolveWith le s) ∧ (resolveWith le s).ibuf = s.ibuf ∧
      (resolveWith le s).vok = s.vok ∧ (resolveWith le s).vk = s.vk := by
  rcases resolveWith_cases le s with ⟨-, h⟩ | ⟨-, h⟩ | ⟨-, -, -, h⟩ | ⟨-, -, -, -, h⟩ | ⟨-, -, -, -, h⟩ <;> rw [h] <;>
    exact ⟨⟨rfl, rfl, rfl⟩, rfl, rfl, rfl⟩

/-- Settles O44: by the frame of each command, and the decompressor's part is none of these registers. -/
theorem blockWritesOnlyItsOwn : Obligations.BlockWritesOnlyItsOwn := by
  unfold Obligations.BlockWritesOnlyItsOwn
  intro s t hrun h
  cases runningMove_leaves hrun h with
  | compress hpos hc =>
    have hstart : s.pos ≠ .tokens := by simp [hpos]
    obtain ⟨⟨hcmd, hilen, hturns⟩, hverify, hresolve, hibuf⟩ := compressWith_frame Config.params.hash s.le s
    refine ⟨hcmd, hilen, hturns, fun a hne => ?_, fun _ => hverify, fun _ => hresolve, fun h => ?_⟩
    · rcases hibuf with hibuf | hibuf <;> rw [hibuf] at hne ⊢
      · exact absurd rfl hne
      · have ha : a = s.inLen := by
          by_contra ha
          exact hne (memRead_memWrite_other _ _ ha)
        exact ⟨ha, by rw [ha, memRead_memWrite_same], hc⟩
    · exact h.elim (fun h => absurd hc h.2) fun h => absurd h hstart
  | verify hpos hc =>
    have hstart : s.pos ≠ .tokens := by simp [hpos]
    obtain ⟨⟨hcmd, hilen, hturns⟩, hibuf, hresolve, hrawlen⟩ := verifyWith_frame Config.params.digest s
    refine ⟨hcmd, hilen, hturns, fun a hne => absurd (by rw [hibuf]) hne, fun h => ?_, fun _ => hresolve, fun _ => hrawlen⟩
    exact h.elim (fun h => absurd hc h) fun h => absurd h hstart
  | resolve hpos hc =>
    have hstart : s.pos ≠ .tokens := by simp [hpos]
    obtain ⟨⟨hcmd, hilen, hturns⟩, hibuf, hverify⟩ := resolveWith_frame s.le s
    refine ⟨hcmd, hilen, hturns, fun a hne => absurd (by rw [hibuf]) hne, fun _ => hverify, fun h => ?_, fun h => ?_⟩
    · exact h.elim (fun h => absurd hc h) fun h => absurd h hstart
    · exact h.elim (fun h => absurd hc h.1) fun h => absurd h hstart
  | reserved _ _ => exact ⟨rfl, rfl, rfl, fun a hne => absurd rfl hne, fun _ => ⟨rfl, rfl⟩, fun _ => ⟨rfl, rfl⟩, fun _ => rfl⟩
  | decompress _ h =>
    cases h <;>
      exact ⟨rfl, rfl, rfl, fun a hne => absurd rfl hne, fun _ => ⟨rfl, rfl⟩, fun _ => ⟨rfl, rfl⟩, fun _ => rfl⟩

end Sys2Proof.Machine
end

section
/-! PROOFS. What every operation of the compressor keeps, whether it succeeds or meets the end of the buffer: the writer's
cursors, `SP`, `HP` and the table (10_state R22, R24, R50; 40_bitchannel R129). -/

namespace Sys2Proof.Machine

/-! ### What an operation leaves, either way -/

/-- What an operation leaves that answers the same part of the state in both outcomes. -/
def leftBy {α : Type} : Except α α → α
  | .ok a => a
  | .error a => a

@[simp] theorem leftBy_ok {α : Type} (a : α) : leftBy (.ok a) = a := rfl
@[simp] theorem leftBy_error {α : Type} (a : α) : leftBy (.error a) = a := rfl

/-- A sequence keeps what its first operation keeps and its second keeps where the first succeeds. -/
theorem leftBy_bind {α : Type} {P : α → Prop} {x : Except α α} {f : α → Except α α} (hx : P (leftBy x))
    (hf : ∀ a, x = .ok a → P a → P (leftBy (f a))) : P (leftBy (x >>= f)) := by
  cases x with
  | error a => exact hx
  | ok a => exact hf a rfl hx

/-- Byte writes below `cap` keep the property. -/
def WritesKeep (cap : Nat) (M : Mem → Prop) : Prop := ∀ m a v, a < cap → M m → M (memWrite m a v)

/-! ### The writer -/

/-- The writer's part: the count fits, the reserved word lies before `WP`, and `WP` passes `COMP_CAP` by at most the word
reserved last, which is then not followed by a byte. Of `OBUF` the property `M` holds. -/
structure OutOk (M : Mem → Prop) (o : Out) : Prop where
  wcnt : o.bw.wcnt ≤ 16
  reserved : o.bw.rsv + 2 ≤ o.bw.wp
  room : o.bw.wp ≤ compCap ∨ (o.bw.wp ≤ compCap + 2 ∧ o.bw.rsv + 2 = o.bw.wp)
  obuf : M o.obuf

section Writer
variable {M : Mem → Prop} (hM : WritesKeep compCap M)
include hM

theorem putByteAt_keeps {o : Out} (a : Nat) (v : Byte) (h : OutOk M o) : OutOk M (leftBy (putByteAt a v o)) := by
  unfold putByteAt
  split_ifs with ha
  · exact ⟨h.wcnt, h.reserved, h.room, hM _ _ _ ha h.obuf⟩
  · exact h

theorem putHalfAt_keeps {o : Out} (le : Bool) (a : Nat) (v : Half) (h : OutOk M o) :
    OutOk M (leftBy (putHalfAt le a v o)) :=
  leftBy_bind (putByteAt_keeps hM _ _ h) fun _ _ h => putByteAt_keeps hM _ _ h

theorem putBit_keeps {o : Out} (le b : Bool) (h : OutOk M o) : OutOk M (leftBy (putBit le b o)) := by
  have hroom := h.room
  have hres := h.reserved
  by_cases h0 : o.bw.wcnt = 0
  · simp only [putBit, h0, if_true]
    refine leftBy_bind (putHalfAt_keeps hM _ _ _ h) fun o₁ h₁ hok => ?_
    obtain ⟨hlt, rfl⟩ := putHalfAt_ok_iff.1 h₁
    exact ⟨by simp [shiftIn, reserve], by simp [shiftIn, reserve], by simp [shiftIn, reserve]; omega, hok.obuf⟩
  · rw [putBit_of_room h0]
    exact ⟨(Nat.sub_le _ _).trans h.wcnt, hres, hroom, h.obuf⟩

theorem appendByte_keeps {o : Out} (b : Byte) (h : OutOk M o) : OutOk M (leftBy (appendByte b o)) := by
  have hres := h.reserved
  refine leftBy_bind (putByteAt_keeps hM _ _ h) fun o₁ h₁ hok => ?_
  obtain ⟨hlt, rfl⟩ := putByteAt_ok_iff.1 h₁
  exact ⟨h.wcnt, by simp; omega, .inl (by simp; omega), hok.obuf⟩

theorem putBits_keeps {o : Out} (le : Bool) (bits : List Bool) (h : OutOk M o) :
    OutOk M (leftBy (putBits le bits o)) := by
  induction bits generalizing o with
  | nil => exact h
  | cons b bits ih => exact leftBy_bind (putBit_keeps hM le b h) fun _ _ h => ih h

theorem emitToken_keeps {o : Out} (le : Bool) (t : Token) (h : OutOk M o) : OutOk M (leftBy (emitToken le t o)) := by
  rw [emitToken_eq]
  exact leftBy_bind (putBits_keeps hM le _ h) fun _ _ h => appendByte_keeps hM _ h

theorem padFrom_keeps {o : Out} (a count : Nat) (h : OutOk M o) : OutOk M (leftBy (padFrom a count o)) := by
  induction count generalizing a o with
  | zero => exact h
  | succ count ih => exact leftBy_bind (putByteAt_keeps hM _ _ h) fun _ _ h => ih _ h

theorem finishOut_keeps {o : Out} (le : Bool) (h : OutOk M o) : OutOk M (leftBy (finishOut le o)) :=
  leftBy_bind (putHalfAt_keeps hM _ _ _ h) fun _ _ h => padFrom_keeps hM _ _ h

theorem header_outOk {obuf : Mem} (le : Bool) (n : Nat) (first : Byte) (h : M obuf) :
    OutOk M (header le n first obuf) := by
  refine ⟨by simp [header, bwInit], by simp [header, bwInit], .inl (by simp [header, bwInit, compCap]), ?_⟩
  have h₀ := hM obuf 0 (wordByte le (BitVec.ofNat 32 n) 0) (by decide) h
  have h₁ := hM _ 1 (wordByte le (BitVec.ofNat 32 n) 1) (by decide) h₀
  have h₂ := hM _ 2 (wordByte le (BitVec.ofNat 32 n) 2) (by decide) h₁
  have h₃ := hM _ 3 (wordByte le (BitVec.ofNat 32 n) 3) (by decide) h₂
  exact hM _ 4 first (by decide) h₃

end Writer

/-! ### The table -/

/-- The table of a buffer of `n` bytes once the positions below `hp` are indexed: each slot's position is one of them, and
a whole window and a byte more stand from it on. -/
structure TableOk (n hp : Nat) (t : HashTable) : Prop where
  sorted : Sorted t
  keys : Below htSlots t
  positions : ∀ c ∈ t, c.2 < hp ∧ c.2 + 5 ≤ n

theorem htInsert_tableOk {n hp : Nat} {t : HashTable} (hash : Hash) (ibuf : Mem) (h : TableOk n hp t)
    (hn : hp + 5 ≤ n) : TableOk n (hp + 1) (htInsert hash ibuf hp t) := by
  refine ⟨sorted_assocPut _ _ _ h.sorted, fun c hc => ?_, fun c hc => ?_⟩ <;>
    rcases mem_assocPut _ _ _ hc with rfl | hc
  · exact (hashAt hash ibuf hp).isLt
  · exact h.keys c hc
  · exact ⟨Nat.lt_succ_self hp, hn⟩
  · obtain ⟨h₁, h₂⟩ := h.positions c hc
    exact ⟨by omega, h₂⟩

theorem indexLoop_tableOk {n hp fuel : Nat} {t : HashTable} (hash : Hash) (ibuf : Mem) (h : TableOk n hp t)
    (hn : hp + fuel + 4 ≤ n) : TableOk n (hp + fuel) (indexLoop hash ibuf fuel hp t) := by
  induction fuel generalizing hp t with
  | zero => exact h
  | succ fuel ih =>
    rw [indexLoop_succ, show hp + (fuel + 1) = hp + 1 + fuel by omega]
    exact ih (htInsert_tableOk hash ibuf h (by omega)) (by omega)

/-! ### The matcher -/

theorem matchLoop_le (ibuf : Mem) (c s fuel n : Nat) : matchLoop ibuf c s fuel n ≤ n + fuel := by
  induction fuel generalizing n with
  | zero => exact le_refl n
  | succ fuel ih =>
    unfold matchLoop
    split_ifs
    · have := ih (n + 1)
      omega
    · omega

/-- A match stays inside the buffer (42_compress R153). -/
theorem matchLen_le (ibuf : Mem) (n c s : Nat) : matchLen ibuf n c s ≤ n - s := by
  have := matchLoop_le ibuf c s (n - s) 0
  unfold matchLen
  omega

/-! ### The compressor's loops -/

/-- The compressor's part on a buffer of `n` bytes: every position below `HP` is indexed, and `HP` does not pass `SP`. -/
structure CompOk (M : Mem → Prop) (n : Nat) (c : Comp) : Prop where
  out : OutOk M c.out
  sp : c.sp ≤ n
  hp : c.hp ≤ c.sp
  table : TableOk n c.hp c.ht

theorem CompOk.advance {M : Mem → Prop} {n sp : Nat} {c : Comp} {o : Out} (h : CompOk M n c) (ho : OutOk M o)
    (hsp : c.sp ≤ sp) (hn : sp ≤ n) : CompOk M n { c with out := o, sp := sp } :=
  ⟨ho, hn, h.hp.trans hsp, h.table⟩

/-- Before an iteration of `C_MAIN` every position below `SP` is indexed. -/
theorem indexUpto_compOk {M : Mem → Prop} {n : Nat} {c : Comp} (hash : Hash) (ibuf : Mem) (h : CompOk M n c)
    (hn : 4 ≤ n - c.sp) : CompOk M n (indexUpto hash ibuf c.sp c) := by
  have hhp := h.hp
  refine ⟨h.out, h.sp, by simp [hhp], ?_⟩
  have := indexLoop_tableOk (fuel := c.sp - c.hp) hash ibuf h.table (by omega)
  rw [indexUpto_hp, indexUpto_ht, show max c.hp c.sp = c.hp + (c.sp - c.hp) by omega]
  exact this

/-- N of a normalised input (42_compress R150). -/
theorem normalise_rawLen {s s' : State} (hcap : s.inLen ≤ inCap) (h : normalise s = .ok s') :
    1 ≤ s'.rawLen ∧ s'.rawLen ≤ inCap := by
  unfold inCap at hcap ⊢
  obtain ⟨h0, ⟨hne, rfl⟩ | rfl⟩ := normalise_ok_cases h
  · unfold inCap at hne
    simp only [State.rawLen, BitVec.toNat_ofNat]
    omega
  · simp only [State.rawLen, BitVec.toNat_ofNat]
    omega

theorem normalise_obuf {s s' : State} (h : normalise s = .ok s') : s'.obuf = s.obuf := by
  obtain ⟨-, ⟨-, rfl⟩ | rfl⟩ := normalise_ok_cases h <;> rfl

section Loops
variable {M : Mem → Prop} (hM : WritesKeep compCap M)
include hM

theorem literalStep_keeps {n : Nat} {c : Comp} (le : Bool) (ibuf : Mem) (h : CompOk M n c) (hn : c.sp < n) :
    CompOk M n (leftBy (literalStep le ibuf c)) := by
  have ho := emitToken_keeps hM le (.lit (memRead ibuf c.sp)) h.out
  unfold literalStep
  change OutOk M (leftBy (emitLit le (memRead ibuf c.sp) c.out)) at ho
  rcases he : emitLit le (memRead ibuf c.sp) c.out with o | o <;> rw [he] at ho
  · exact h.advance ho (le_refl _) h.sp
  · exact h.advance ho (Nat.le_succ _) hn

theorem matchStep_keeps {n mlen : Nat} {c : Comp} (le : Bool) (dist : Nat) (h : CompOk M n c)
    (hn : c.sp + mlen ≤ n) : CompOk M n (leftBy (matchStep le mlen dist c)) := by
  have ho := emitToken_keeps hM le (.copy mlen dist) h.out
  unfold matchStep
  rcases he : emitToken le (.copy mlen dist) c.out with o | o <;> rw [he] at ho
  · exact h.advance ho (le_refl _) h.sp
  · exact h.advance ho (Nat.le_add_right _ _) hn

theorem mainStep_keeps {n : Nat} {c : Comp} (hash : Hash) (le : Bool) (ibuf : Mem) (h : CompOk M n c)
    (hn : 4 ≤ n - c.sp) : CompOk M n (leftBy (mainStep hash le ibuf n c)) := by
  have hi := indexUpto_compOk hash ibuf h hn
  unfold mainStep
  rcases hf : findMatch hash ibuf n (indexUpto hash ibuf c.sp c) with _ | ⟨mlen, dist⟩
  · exact literalStep_keeps hM le ibuf hi (by simp; omega)
  · obtain ⟨cand, -, -, rfl, -⟩ := findMatch_eq_some_iff.1 hf
    have := matchLen_le ibuf n cand c.sp
    exact matchStep_keeps hM le dist hi (by simp; omega)

theorem cMain_keeps {n : Nat} {c : Comp} (hash : Hash) (le : Bool) (ibuf : Mem) (fuel : Nat) (h : CompOk M n c) :
    CompOk M n (leftBy (cMain hash le ibuf n fuel c)) := by
  induction fuel generalizing c with
  | zero => exact h
  | succ fuel ih =>
    rw [cMain_succ]
    split_ifs with hn
    · exact leftBy_bind (mainStep_keeps hM hash le ibuf h hn) fun _ _ h => ih h
    · exact h

theorem cTail_keeps {n : Nat} {c : Comp} (le : Bool) (ibuf : Mem) (fuel : Nat) (h : CompOk M n c) :
    CompOk M n (leftBy (cTail le ibuf n fuel c)) := by
  induction fuel generalizing c with
  | zero => exact h
  | succ fuel ih =>
    rw [cTail_succ]
    split_ifs with hn
    · exact leftBy_bind (literalStep_keeps hM le ibuf h hn) fun _ _ h => ih h
    · exact h

theorem cFinish_keeps {n : Nat} {c : Comp} (le : Bool) (h : CompOk M n c) : CompOk M n (leftBy (cFinish le c)) := by
  have ho := finishOut_keeps hM le h.out
  unfold cFinish
  rcases he : finishOut le c.out with o | o <;> rw [he] at ho
  · exact h.advance ho (le_refl _) h.sp
  · exact h.advance ho (le_refl _) h.sp

theorem cInit_compOk {n : Nat} {obuf : Mem} (le : Bool) (ibuf : Mem) (hn : 1 ≤ n) (h : M obuf) :
    CompOk M n (cInit le ibuf n obuf) :=
  ⟨header_outOk hM le n _ h, hn, Nat.zero_le 1, by simp [cInit, htClear, Sorted], by simp [cInit, htClear],
    by simp [cInit, htClear]⟩

theorem compressBody_keeps {n : Nat} {obuf : Mem} (hash : Hash) (le : Bool) (ibuf : Mem) (hn : 1 ≤ n) (h : M obuf) :
    CompOk M n (leftBy (compressBody hash le ibuf n obuf)) :=
  leftBy_bind (cMain_keeps hM hash le ibuf n (cInit_compOk hM le ibuf hn h)) fun _ _ h =>
    leftBy_bind (cTail_keeps hM le ibuf n h) fun _ _ h => cFinish_keeps hM le h

/-- What `COMPRESS` leaves: a fault before it has begun, or the compressor's part as its operations keep it. -/
theorem compressWith_leaves (hash : Hash) (le : Bool) {s : State} (h : M s.obuf) :
    (∃ cause, compressWith hash le s = raise cause s) ∨
    ∃ s' c, s.inLen ≤ inCap ∧ normalise s = .ok s' ∧ CompOk M s'.rawLen c ∧
      (compressWith hash le s = raise .outOverflow (s'.setComp c) ∨ compressWith hash le s = compressDone c s') := by
  have keeps {s' : State} (hcap : s.inLen ≤ inCap) (hn : normalise s = .ok s') :
      CompOk M s'.rawLen (leftBy (compressBody hash le s'.ibuf s'.rawLen s'.obuf)) :=
    compressBody_keeps hM hash le s'.ibuf (normalise_rawLen hcap hn).1 (normalise_obuf hn ▸ h)
  rcases compressWith_cases hash le s with
    ⟨-, h'⟩ | ⟨-, cause, -, h'⟩ | ⟨hcap, s', c, hn, hb, h'⟩ | ⟨hcap, s', c, hn, hb, h'⟩
  · exact .inl ⟨_, h'⟩
  · exact .inl ⟨cause, h'⟩
  · have hk := keeps hcap hn
    rw [hb] at hk
    exact .inr ⟨s', c, hcap, hn, hk, .inl h'⟩
  · have hk := keeps hcap hn
    rw [hb] at hk
    exact .inr ⟨s', c, hcap, hn, hk, .inr h'⟩

end Loops

end Sys2Proof.Machine
end

section
/-! PROOFS. The invariant: what each part of it reads, and that the host's accesses, each command and each token keep it
(10_state R22 to R25, R40 to R42, R50 to R52; 20_memory R64, R66). -/

namespace Sys2Proof.Machine

/-! ### The reader -/

section Reading
variable {σ : Type} {bit : σ → Except Reject (Bool × σ)} {byte : σ → Except Reject (Byte × σ)} {P : σ → Prop}

theorem readVlc_keeps (hbit : ∀ s x, P s → bit s = .ok x → P x.2) {fuel v : Nat} {s : σ} {x : Nat × σ} (hs : P s)
    (h : readVlc bit fuel v s = .ok x) : P x.2 := by
  induction fuel generalizing v s with
  | zero => cases h
  | succ fuel ih =>
    obtain ⟨d, s₁, c, s₂, h₁, h₂, h⟩ := readVlc_ok_iff.1 h
    have hs₂ : P s₂ := hbit s₁ _ (hbit s _ hs h₁) h₂
    rcases h with ⟨-, rfl⟩ | ⟨-, h⟩
    · exact hs₂
    · exact ih hs₂ h

/-- What each flag bit and each byte read keeps, the reading of a token keeps. -/
theorem readToken_keeps (hbit : ∀ s x, P s → bit s = .ok x → P x.2) (hbyte : ∀ s x, P s → byte s = .ok x → P x.2)
    {fuel : Nat} {s : σ} {x : Token × σ} (hs : P s) (h : readToken bit byte fuel s = .ok x) : P x.2 := by
  rcases readToken_ok_iff.1 h with ⟨s₁, b, s₂, h₁, h₂, rfl⟩ | ⟨s₁, v₁, s₂, v₂, s₃, low, s₄, h₁, h₂, h₃, h₄, rfl⟩
  · exact hbyte s₁ _ (hbit s _ hs h₁) h₂
  · exact hbyte s₃ _ (readVlc_keeps hbit (readVlc_keeps hbit (hbit s _ hs h₁) h₂) h₃) h₄

end Reading

/-- The reader fits its registers and stands inside the stream. -/
def ReaderOk (src : Stream) (r : BitReader) : Prop := r.rcnt ≤ 16 ∧ r.rp ≤ src.len

theorem getBit_keeps {src : Stream} {r : BitReader} {x : Bool × BitReader} (hr : ReaderOk src r)
    (h : getBit src r = .ok x) : ReaderOk src x.2 := by
  obtain ⟨hcnt, hrp⟩ := hr
  have h₁ := getBit_rcnt h
  have h₂ := getBit_rp h
  constructor <;> omega

theorem readByte_keeps {src : Stream} {r : BitReader} {x : Byte × BitReader} (hr : ReaderOk src r)
    (h : readByte src r = .ok x) : ReaderOk src x.2 := by
  obtain ⟨hlt, rfl⟩ := readByte_ok_iff.1 h
  exact ⟨hr.1, hlt⟩

theorem fetchFrom_keeps {src : Stream} {r : BitReader} {x : Token × BitReader} (hr : ReaderOk src r)
    (h : fetchFrom src r = .ok x) : ReaderOk src x.2 :=
  readToken_keeps (fun _ _ => getBit_keeps) (fun _ _ => readByte_keeps) hr h

/-! ### The decompressor's part -/

/-- What an iteration of `D_MAIN` that succeeds has done: read a token, and had its effect, a literal or a copy inside
the output. -/
theorem dStep_ok_cases {src : Stream} {rawLen : Nat} {d d' : Dec} (h : dStep src rawLen d = .ok d') :
    (∃ b r, fetchFrom src d.br = .ok (.lit b, r) ∧ d' = tokLit b { d with br := r }) ∨
    (∃ mlen dist r, fetchFrom src d.br = .ok (.copy mlen dist, r) ∧ dist ≤ d.dp ∧ mlen ≤ rawLen - d.dp ∧
      d' = { br := r, dp := d.dp + mlen, obuf := copyBytes mlen (d.dp - dist) d.dp d.obuf }) := by
  rcases dStep_cases src rawLen d with ⟨_, -, h'⟩ | ⟨_, _, _, -, -, h'⟩ | ⟨t, r, d₁, hf, ht, h'⟩ <;> rw [h'] at h <;>
    cases h
  cases t with
  | lit b => exact .inl ⟨b, r, hf, (Except.ok.inj ht).symm⟩
  | copy mlen dist =>
    change tokMatch rawLen mlen dist { d with br := r } = .ok d' at ht
    rcases tokMatch_cases rawLen mlen dist { d with br := r } with ⟨-, h⟩ | ⟨-, -, h⟩ | ⟨h₁, h₂, h⟩ <;> rw [h] at ht <;>
      cases ht
    exact .inr ⟨mlen, dist, r, hf, h₁, h₂, rfl⟩

/-- A faulting iteration of `D_MAIN` leaves `DP` and `OBUF`, and the reader before or after the token. -/
theorem dStep_error_cases {src : Stream} {rawLen : Nat} {d d' : Dec} {cause : Cause}
    (h : dStep src rawLen d = .error (cause, d')) :
    d' = d ∨ ∃ t r, fetchFrom src d.br = .ok (t, r) ∧ d' = { d with br := r } := by
  rcases dStep_cases src rawLen d with ⟨_, -, h'⟩ | ⟨t, r, _, hf, -, h'⟩ | ⟨_, _, _, -, -, h'⟩ <;> rw [h'] at h <;> cases h
  · exact .inl rfl
  · exact .inr ⟨t, r, hf, rfl⟩

theorem decReached_wf {s : State} {d : Dec} (hs : Mem.wf s.obuf) (h : DecReached s d) : Mem.wf d.obuf := by
  induction h with
  | resumed _ => exact hs
  | @begun d _ hi =>
    rcases dInit_cases s.le s with ⟨-, h⟩ | ⟨-, h⟩ | ⟨-, -, -, h⟩ | ⟨-, -, -, h⟩ <;> rw [h] at hi <;> cases hi
    exact memWrite_wf _ _ hs
  | token _ _ hstep ih =>
    rcases dStep_ok_cases hstep with ⟨b, r, -, rfl⟩ | ⟨mlen, dist, r, -, -, -, rfl⟩
    · exact memWrite_wf _ _ ih
    · exact copyBytes_wf _ _ _ ih

/-- A fault writes nothing more to `OBUF`. -/
theorem decFaulted_obuf {s : State} {d : Dec} (h : DecFaulted s d) :
    d.obuf = s.obuf ∨ ∃ d₀, DecReached s d₀ ∧ d.obuf = d₀.obuf := by
  cases h with
  | early => exact .inl rfl
  | first _ hi =>
    rcases dInit_cases s.le s with ⟨-, h⟩ | ⟨-, h⟩ | ⟨-, -, -, h⟩ | ⟨-, -, -, h⟩ <;> rw [h] at hi <;> cases hi <;>
      exact .inl rfl
  | token hd _ hstep =>
    rcases dStep_error_cases hstep with rfl | ⟨t, r, -, rfl⟩ <;> exact .inr ⟨_, hd, rfl⟩

theorem decFaulted_wf {s : State} {d : Dec} (hs : Mem.wf s.obuf) (h : DecFaulted s d) : Mem.wf d.obuf := by
  rcases decFaulted_obuf h with h | ⟨d₀, hd, h⟩ <;> rw [h]
  · exact hs
  · exact decReached_wf hs hd

/-! ### What the parts of the invariant read -/

/-- The memories are the same. -/
def SameMemories (s t : State) : Prop := (t.ibuf, t.obuf, t.ht) = (s.ibuf, s.obuf, s.ht)

/-- The working registers and the lengths of the output are the same. -/
def SameCursors (s t : State) : Prop :=
  (t.bw, t.br, t.sp, t.hp, t.dp, t.olen, t.opad) = (s.bw, s.br, s.sp, s.hp, s.dp, s.olen, s.opad)

theorem memoriesOk_congr {s t : State} (hs : MemoriesOk s) (h : SameMemories s t) : MemoriesOk t := by
  simp only [SameMemories, Prod.mk.injEq] at h
  obtain ⟨hibuf, hobuf, hht⟩ := h
  exact ⟨hibuf ▸ hs.ibuf_wf, hobuf ▸ hs.obuf_wf, hht ▸ hs.ht_sorted, hibuf ▸ hs.ibuf_below, hobuf ▸ hs.obuf_below,
    hht ▸ hs.ht_below, hht ▸ hs.ht_off⟩

theorem cursorsOk_congr {s t : State} (hs : CursorsOk s) (h : SameCursors s t) : CursorsOk t := by
  simp only [SameCursors, Prod.mk.injEq] at h
  obtain ⟨hbw, hbr, hsp, hhp, hdp, holen, hopad⟩ := h
  exact ⟨hbw ▸ hs.wcnt, hbw ▸ hs.rsv, hbw ▸ hs.wp, hbr ▸ hs.rcnt, hbr ▸ hs.rp, hsp ▸ hs.sp, hhp ▸ hs.hp, hdp ▸ hs.dp,
    holen ▸ hs.olen, hopad ▸ hs.opad⟩

/-- `VERIFY` works in its flags only. -/
theorem verifyWith_sameWork (digest : List Byte → Vector Byte 16) (s : State) :
    SameMemories s (verifyWith digest s) ∧ SameCursors s (verifyWith digest s) := by
  rcases verifyWith_cases digest s with ⟨-, h⟩ | ⟨-, -, h⟩ | ⟨-, _, -, h⟩ <;> rw [h] <;> exact ⟨rfl, rfl⟩

/-- `RESOLVE` works in its flags and `RAWLEN` only. -/
theorem resolveWith_sameWork (le : Bool) (s : State) :
    SameMemories s (resolveWith le s) ∧ SameCursors s (resolveWith le s) := by
  rcases resolveWith_cases le s with ⟨-, h⟩ | ⟨-, h⟩ | ⟨-, -, -, h⟩ | ⟨-, -, -, -, h⟩ | ⟨-, -, -, -, h⟩ <;> rw [h] <;>
    exact ⟨rfl, rfl⟩

/-! ### Canonical memories (10_state R50 to R52) -/

/-- `IBUF`, `OBUF` and `HT` in canonical form. -/
structure Canonical (s : State) : Prop where
  ibuf : Mem.wf s.ibuf
  obuf : Mem.wf s.obuf
  ht : Sorted s.ht

theorem canonical_congr {s t : State} (hs : Canonical s) (h : SameMemories s t) : Canonical t := by
  simp only [SameMemories, Prod.mk.injEq] at h
  obtain ⟨hibuf, hobuf, hht⟩ := h
  exact ⟨hibuf ▸ hs.ibuf, hobuf ▸ hs.obuf, hht ▸ hs.ht⟩

theorem canonical_host {s t : State} (hs : Canonical s) (h : HostLeaves s t) : Canonical t := by
  cases h with
  | reset => exact ⟨memOf_wf _ _, memOf_wf _ _, List.Pairwise.nil⟩
  | ibuf a b _ _ => exact ⟨memWrite_wf a b hs.ibuf, hs.obuf, hs.ht⟩
  | obuf a b _ _ => exact ⟨hs.ibuf, memWrite_wf a b hs.obuf, hs.ht⟩
  | answer _ _ | command _ _ | ilen _ _ | rawlen _ _ => exact canonical_congr hs rfl

theorem normalise_ibuf_wf {s s' : State} (hs : Mem.wf s.ibuf) (h : normalise s = .ok s') : Mem.wf s'.ibuf := by
  obtain ⟨-, ⟨-, rfl⟩ | rfl⟩ := normalise_ok_cases h
  · exact memWrite_wf s.inLen 0 hs
  · exact hs

theorem canonical_compress {s : State} (hash : Hash) (le : Bool) (hs : Canonical s) :
    Canonical (compressWith hash le s) := by
  have hM : WritesKeep compCap Mem.wf := fun _ a v _ h => memWrite_wf a v h
  rcases compressWith_leaves hM hash le hs.obuf with ⟨cause, h⟩ | ⟨s', c, -, hn, hc, h⟩
  · rw [h]
    exact canonical_congr hs rfl
  · have hibuf : Mem.wf s'.ibuf := normalise_ibuf_wf hs.ibuf hn
    rcases h with h | h <;> rw [h] <;> exact ⟨hibuf, hc.out.obuf, hc.table.sorted⟩

theorem canonical_block {s t : State} (hs : Canonical s) (h : BlockLeaves s t) : Canonical t := by
  cases h with
  | compress _ _ => exact canonical_compress _ _ hs
  | verify _ _ => exact canonical_congr hs (verifyWith_sameWork _ _).1
  | resolve _ _ => exact canonical_congr hs (resolveWith_sameWork _ _).1
  | reserved _ _ => exact canonical_congr hs rfl
  | decompress _ h =>
    cases h with
    | fault cause hd => exact ⟨hs.ibuf, decFaulted_wf hs.obuf hd, hs.ht⟩
    | done hd => exact ⟨hs.ibuf, decReached_wf hs.obuf hd, hs.ht⟩
    | more hd _ => exact ⟨hs.ibuf, decReached_wf hs.obuf hd, hs.ht⟩

/-- Settles O45: each access of the host and each move of the running block keeps the canonical form. -/
theorem stepKeepsMemoriesCanonical : Obligations.StepKeepsMemoriesCanonical := by
  unfold Obligations.StepKeepsMemoriesCanonical
  intro s t hibuf hobuf hht h
  obtain ⟨hibuf', hobuf', hht'⟩ := step_keeps (P := Canonical) (fun _ _ hs => canonical_congr hs rfl)
    (fun _ _ => canonical_host) (fun _ _ hs _ => canonical_block hs) ⟨hibuf, hobuf, hht⟩ h
  exact ⟨hibuf', hobuf', hht'⟩

/-! ### The running `DECOMPRESS` stays inside its input and output (20_memory R64, R66) -/

theorem copyBytes_below {count off dp n : Nat} {m : Mem} (hn : dp + count ≤ n) (h : Below n m) :
    Below n (copyBytes count off dp m) := by
  induction count generalizing off dp m with
  | zero => exact h
  | succ count ih => exact ih (by omega) (memWrite_below _ (by omega) h)

/-- The decompressor's part before a token of a running `DECOMPRESS`, or at its end. -/
structure DecOk (s : State) (d : Dec) : Prop where
  ilen : s.inLen ≤ inCap
  rawlen : s.rawLen ≤ sizeMax
  first : 1 ≤ d.dp
  inside : d.dp ≤ s.rawLen
  reader : ReaderOk (s.stream s.le) d.br
  below : Below outCap d.obuf

theorem dInit_decOk {s : State} {d : Dec} (hcap : s.inLen ≤ inCap) (hs : Below outCap s.obuf)
    (h : dInit s.le s = .ok d) : DecOk s d := by
  rcases dInit_cases s.le s with ⟨-, h'⟩ | ⟨-, h'⟩ | ⟨-, -, -, h'⟩ | ⟨hpos, hmax, hlen, h'⟩ <;> rw [h'] at h <;> cases h
  exact ⟨hcap, hmax, le_refl 1, hpos, ⟨Nat.zero_le 16, hlen⟩, memWrite_below _ (by decide) hs⟩

theorem dStep_decOk {s : State} {d d' : Dec} (hd : DecOk s d) (hlt : d.dp < s.rawLen)
    (h : dStep (s.stream s.le) s.rawLen d = .ok d') : DecOk s d' := by
  have hmax : s.rawLen ≤ outCap := hd.rawlen
  have hfirst := hd.first
  rcases dStep_ok_cases h with ⟨b, r, hf, rfl⟩ | ⟨mlen, dist, r, hf, -, hroom, rfl⟩
  · exact ⟨hd.ilen, hd.rawlen, Nat.succ_pos _, hlt, fetchFrom_keeps hd.reader hf,
      memWrite_below _ (lt_of_lt_of_le hlt hmax) hd.below⟩
  · exact ⟨hd.ilen, hd.rawlen, hfirst.trans (Nat.le_add_right _ _), by simp; omega, fetchFrom_keeps hd.reader hf,
      copyBytes_below (by omega) hd.below⟩

/-- Every part a running `DECOMPRESS` reaches is inside its input and output. -/
theorem decReached_decOk {s : State} {d : Dec} (hs : Inv s) (h : DecReached s d) : DecOk s d := by
  induction h with
  | resumed hpos =>
    have ht := hs.tokens hpos
    exact ⟨ht.ilen, ht.rawlen, ht.first, ht.inside.le, ⟨hs.cursors.rcnt, ht.reader⟩, hs.memories.obuf_below⟩
  | begun hcap hi => exact dInit_decOk hcap hs.memories.obuf_below hi
  | token _ hlt hstep ih => exact dStep_decOk ih hlt hstep

/-- The decompressor's part fits its registers and `OBUF`. -/
structure DecFits (d : Dec) : Prop where
  rcnt : d.br.rcnt ≤ 16
  rp : d.br.rp ≤ inCap
  dp : d.dp ≤ outCap
  below : Below outCap d.obuf

theorem DecOk.fits {s : State} {d : Dec} (h : DecOk s d) : DecFits d :=
  ⟨h.reader.1, h.reader.2.trans h.ilen, h.inside.trans h.rawlen, h.below⟩

theorem dStart_fits {s : State} (hs : Below outCap s.obuf) : DecFits (dStart s) :=
  ⟨Nat.zero_le 16, show 4 ≤ inCap by decide, Nat.zero_le _, hs⟩

theorem decFaulted_fits {s : State} {d : Dec} (hs : Inv s) (h : DecFaulted s d) : DecFits d := by
  have hself : DecFits s.dec := ⟨hs.cursors.rcnt, hs.cursors.rp, hs.cursors.dp, hs.memories.obuf_below⟩
  cases h with
  | early => exact hself
  | first _ hi =>
    rcases dInit_cases s.le s with ⟨-, h⟩ | ⟨-, h⟩ | ⟨-, -, -, h⟩ | ⟨-, -, -, h⟩ <;> rw [h] at hi <;> cases hi
    · exact hself
    · exact hself
    · exact dStart_fits hs.memories.obuf_below
  | token hd _ hstep =>
    have hok := decReached_decOk hs hd
    rcases dStep_error_cases hstep with rfl | ⟨t, r, hf, rfl⟩
    · exact hok.fits
    · have hr := fetchFrom_keeps hok.reader hf
      exact ⟨hr.1, hr.2.trans hok.ilen, hok.fits.dp, hok.below⟩

/-- The decompressor's part put back keeps the memories. -/
theorem memoriesOk_setDec {s : State} {d : Dec} (hs : MemoriesOk s) (hwf : Mem.wf d.obuf) (hd : DecFits d) :
    MemoriesOk (s.setDec d) :=
  ⟨hs.ibuf_wf, hwf, hs.ht_sorted, hs.ibuf_below, hd.below, hs.ht_below, hs.ht_off⟩

/-- The decompressor's part put back keeps the widths. -/
theorem cursorsOk_setDec {s : State} {d : Dec} (hs : CursorsOk s) (hd : DecFits d) : CursorsOk (s.setDec d) :=
  ⟨hs.wcnt, hs.rsv, hs.wp, hd.rcnt, hd.rp, hs.sp, hs.hp, hd.dp, hs.olen, hs.opad⟩

/-- Every number below a bound has its low bits below it. -/
theorem ofNat_toNat_le {w n cap : Nat} (h : n ≤ cap) : (BitVec.ofNat w n).toNat ≤ cap := by
  rw [BitVec.toNat_ofNat]
  exact (Nat.mod_le _ _).trans h

/-! ### The invariant (10_state R22 to R25, R40 to R42, R50 to R52) -/

/-- With no command inside its tokens the invariant is its first three parts. -/
theorem inv_of_start {t : State} (hm : MemoriesOk t) (hc : CursorsOk t) (hk : ControlOk t) (hpos : t.pos = .start) :
    Inv t := ⟨hm, hc, hk, fun h => by rw [hpos] at h; cases h⟩

theorem inv_congr {s t : State} (hs : Inv s) (hk : ControlOk t) (hm : SameMemories s t) (hc : SameCursors s t)
    (h : (t.cmd, t.ilen, t.rawlen, t.pos) = (s.cmd, s.ilen, s.rawlen, s.pos)) : Inv t := by
  refine ⟨memoriesOk_congr hs.memories hm, cursorsOk_congr hs.cursors hc, hk, fun htok => ?_⟩
  simp only [SameCursors, Prod.mk.injEq] at h hc
  obtain ⟨hcmd, hilen, hrawlen, hpos⟩ := h
  obtain ⟨-, hbr, -, -, hdp, -, -⟩ := hc
  obtain ⟨h₁, h₂, h₃, h₄, h₅, h₆⟩ := hs.tokens (hpos ▸ htok)
  constructor <;> simp only [fetchCommand, State.le, State.inLen, State.rawLen, hcmd, hilen, hrawlen, hbr, hdp] <;>
    assumption

theorem inv_decompress {s t : State} (hs : Inv s) (hrun : s.phase = .run)
    (hcmd : s.pos = .tokens ∨ fetchCommand s = .decompress s.le) (h : DecLeaves s t) : Inv t := by
  have hk : ControlOk t := controlOk_block hs.control hrun (.decompress hcmd h)
  cases h with
  | fault cause hd =>
    have hfits := decFaulted_fits hs hd
    exact inv_of_start (memoriesOk_congr (memoriesOk_setDec hs.memories (decFaulted_wf hs.memories.obuf_wf hd) hfits) rfl)
      (cursorsOk_congr (cursorsOk_setDec hs.cursors hfits) rfl) hk rfl
  | done hd =>
    have hok := decReached_decOk hs hd
    have hm := memoriesOk_setDec hs.memories (decReached_wf hs.memories.obuf_wf hd) hok.fits
    have hlen : (BitVec.ofNat 18 s.rawLen).toNat ≤ outCap := ofNat_toNat_le hok.rawlen
    exact inv_of_start (memoriesOk_congr hm rfl) { cursorsOk_setDec hs.cursors hok.fits with olen := hlen, opad := hlen }
      hk rfl
  | more hd hlt =>
    have hok := decReached_decOk hs hd
    have hm := memoriesOk_setDec hs.memories (decReached_wf hs.memories.obuf_wf hd) hok.fits
    refine ⟨memoriesOk_congr hm rfl, cursorsOk_congr (cursorsOk_setDec hs.cursors hok.fits) rfl, hk, fun _ => ?_⟩
    have hfetch : fetchCommand s = .decompress s.le := hcmd.elim (fun hpos => (hs.tokens hpos).command) id
    exact ⟨hfetch, hok.ilen, hok.rawlen, hok.first, hlt, hok.reader.2⟩

/-- `NORMALISE` keeps the memories, and leaves the working registers alone. -/
theorem normalise_keeps {s s' : State} (hs : Inv s) (hcap : s.inLen ≤ inCap) (h : normalise s = .ok s') :
    MemoriesOk s' ∧ CursorsOk s' := by
  obtain ⟨-, ⟨hne, rfl⟩ | rfl⟩ := normalise_ok_cases h
  · have hm := hs.memories
    exact ⟨⟨memWrite_wf s.inLen 0 hm.ibuf_wf, hm.obuf_wf, hm.ht_sorted,
      memWrite_below 0 (lt_of_le_of_ne hcap hne) hm.ibuf_below, hm.obuf_below, hm.ht_below, hm.ht_off⟩,
      cursorsOk_congr hs.cursors rfl⟩
  · exact ⟨memoriesOk_congr hs.memories rfl, cursorsOk_congr hs.cursors rfl⟩

/-- `OBUF` as the invariant has it: canonical, and only addresses that exist. -/
def ObufOk (m : Mem) : Prop := Mem.wf m ∧ Below outCap m

theorem obufOk_writesKeep : WritesKeep compCap ObufOk := fun _ a v ha h =>
  ⟨memWrite_wf a v h.1, memWrite_below v (lt_trans ha (by decide)) h.2⟩

/-- `WP` stays within its register: it passes `COMP_CAP` by at most one flag word. -/
theorem OutOk.wp_le {M : Mem → Prop} {o : Out} (h : OutOk M o) : o.bw.wp ≤ compCap + 2 := by
  have := h.room
  omega

theorem padded_le (n : Nat) : padded n ≤ n + 7 := by
  unfold padded padBlock
  omega

/-- The compressor's part put back keeps the memories. -/
theorem memoriesOk_setComp {s : State} {c : Comp} {n : Nat} (hs : MemoriesOk s) (hn : n ≤ inCap)
    (hc : CompOk ObufOk n c) : MemoriesOk (s.setComp c) where
  ibuf_wf := hs.ibuf_wf
  obuf_wf := hc.out.obuf.1
  ht_sorted := hc.table.sorted
  ibuf_below := hs.ibuf_below
  obuf_below := hc.out.obuf.2
  ht_below := hc.table.keys
  ht_off e he := by
    have := (hc.table.positions e he).2
    unfold inCap at hn
    omega

/-- The compressor's part put back keeps the widths. -/
theorem cursorsOk_setComp {s : State} {c : Comp} {n : Nat} (hs : CursorsOk s) (hn : n ≤ inCap)
    (hc : CompOk ObufOk n c) : CursorsOk (s.setComp c) := by
  have hwp : c.out.bw.wp ≤ outCap := hc.out.wp_le.trans (by decide)
  exact ⟨hc.out.wcnt, (Nat.le_add_right _ 2).trans (hc.out.reserved.trans hwp), hwp, hs.rcnt, hs.rp, hc.sp.trans hn,
    (hc.hp.trans hc.sp).trans hn, hs.dp, hs.olen, hs.opad⟩

theorem inv_compress {s : State} (hash : Hash) (le : Bool) (hs : Inv s)
    (hk : ControlOk (compressWith hash le s)) : Inv (compressWith hash le s) := by
  rcases compressWith_leaves obufOk_writesKeep hash le ⟨hs.memories.obuf_wf, hs.memories.obuf_below⟩ with
    ⟨cause, h⟩ | ⟨s', c, hcap, hn, hc, h⟩
  · rw [h] at hk ⊢
    exact inv_of_start (memoriesOk_congr hs.memories rfl) (cursorsOk_congr hs.cursors rfl) hk rfl
  · obtain ⟨hm, hcur⟩ := normalise_keeps hs hcap hn
    have hlen := (normalise_rawLen hcap hn).2
    have hm' := memoriesOk_setComp hm hlen hc
    have hcur' := cursorsOk_setComp hcur hlen hc
    rcases h with h | h <;> rw [h] at hk ⊢
    · exact inv_of_start (memoriesOk_congr hm' rfl) (cursorsOk_congr hcur' rfl) hk rfl
    · have holen : c.out.bw.wp ≤ outCap := hc.out.wp_le.trans (by decide)
      have hopad : padded c.out.bw.wp ≤ outCap :=
        (padded_le _).trans ((Nat.add_le_add_right hc.out.wp_le 7).trans (by decide))
      exact inv_of_start (memoriesOk_congr hm' rfl)
        { hcur' with olen := ofNat_toNat_le holen, opad := ofNat_toNat_le hopad } hk rfl

theorem inv_block {s t : State} (hs : Inv s) (hrun : s.phase = .run) (h : BlockLeaves s t) : Inv t := by
  have hk : ControlOk t := controlOk_block hs.control hrun h
  cases h with
  | compress _ _ => exact inv_compress _ _ hs hk
  | verify _ _ =>
    obtain ⟨hm, hc⟩ := verifyWith_sameWork Config.params.digest s
    exact inv_of_start (memoriesOk_congr hs.memories hm) (cursorsOk_congr hs.cursors hc) hk (verifyWith_ends _ _).1
  | resolve _ _ =>
    obtain ⟨hm, hc⟩ := resolveWith_sameWork s.le s
    exact inv_of_start (memoriesOk_congr hs.memories hm) (cursorsOk_congr hs.cursors hc) hk (resolveWith_ends _ _).1
  | reserved _ _ =>
    exact inv_of_start (memoriesOk_congr hs.memories rfl) (cursorsOk_congr hs.cursors rfl) hk rfl
  | decompress hcmd h => exact inv_decompress hs hrun hcmd h

/-- Cursors, counts and lengths that are all 0 fit their registers. -/
theorem cursorsOk_reset : CursorsOk State.reset := by
  constructor <;> exact Nat.zero_le _

theorem inv_host {s t : State} (hs : Inv s) (h : HostLeaves s t) : Inv t := by
  have hk : ControlOk t := controlOk_host hs.control h
  have hm := hs.memories
  cases h with
  | reset =>
    refine inv_of_start ⟨memOf_wf _ _, memOf_wf _ _, List.Pairwise.nil, memOf_below _ _, memOf_below _ _, ?_, ?_⟩
      (cursorsOk_congr cursorsOk_reset rfl) hk rfl
    · exact fun c hc => absurd hc List.not_mem_nil
    · exact fun c hc => absurd hc List.not_mem_nil
  | answer _ _ => exact inv_congr hs hk rfl rfl rfl
  | command w _ =>
    exact inv_of_start (memoriesOk_congr hm rfl) { hs.cursors with olen := Nat.zero_le _, opad := Nat.zero_le _ } hk rfl
  | ilen _ hrun | rawlen _ hrun =>
    exact inv_of_start (memoriesOk_congr hm rfl) (cursorsOk_congr hs.cursors rfl) hk (hs.control.at_start hrun)
  | ibuf a b hrun ha =>
    exact inv_of_start ⟨memWrite_wf a b hm.ibuf_wf, hm.obuf_wf, hm.ht_sorted, memWrite_below b ha hm.ibuf_below,
        hm.obuf_below, hm.ht_below, hm.ht_off⟩
      (cursorsOk_congr hs.cursors rfl) hk (hs.control.at_start hrun)
  | obuf a b hrun ha =>
    exact inv_of_start ⟨hm.ibuf_wf, memWrite_wf a b hm.obuf_wf, hm.ht_sorted, hm.ibuf_below,
        memWrite_below b ha hm.obuf_below, hm.ht_below, hm.ht_off⟩
      (cursorsOk_congr hs.cursors rfl) hk (hs.control.at_start hrun)

/-- Settles O47: each access of the host and each move of the running block keeps the invariant. -/
theorem stepKeepsInvariant : Obligations.StepKeepsInvariant := by
  unfold Obligations.StepKeepsInvariant
  intro s t hs h
  exact step_keeps (fun s rest hs => inv_congr hs (controlOk_congr hs.control rfl) rfl rfl rfl)
    (fun _ _ => inv_host) (fun _ _ => inv_block) hs h

/-- Settles O48: after reset the memories and the table are empty and every cursor is 0. -/
theorem resetMeetsInvariant : Obligations.ResetMeetsInvariant := by
  unfold Obligations.ResetMeetsInvariant
  refine inv_of_start ⟨mem_nil_wf, mem_nil_wf, List.Pairwise.nil, ?_, ?_, ?_, ?_⟩ cursorsOk_reset controlOk_reset rfl
  all_goals exact fun c hc => absurd hc List.not_mem_nil

end Sys2Proof.Machine
end

section
/-! PROOFS. The results of a command depend on its inputs only (10_state R21, 70_reset R261). `COMPRESS` and `DECOMPRESS`
never read `IBUF` outside the input, so there the two runs do the same; and two runs that start from different bytes of
`OBUF` keep equal cursors and equal bytes wherever something has been written. -/

namespace Sys2Proof.Machine

/-- Two memories read alike below `n`. -/
def AgreeBelow (n : Nat) (m m' : Mem) : Prop := ∀ a, a < n → memRead m a = memRead m' a

theorem AgreeBelow.mono {n k : Nat} {m m' : Mem} (h : AgreeBelow n m m') (hk : k ≤ n) : AgreeBelow k m m' :=
  fun a ha => h a (by omega)

/-- The same byte written at the end of the agreement extends it. -/
theorem AgreeBelow.write {n : Nat} {m m' : Mem} (h : AgreeBelow n m m') (v : Byte) :
    AgreeBelow (n + 1) (memWrite m n v) (memWrite m' n v) := by
  intro a ha
  rw [memRead_memWrite, memRead_memWrite]
  split_ifs with hn
  · rfl
  · exact h a (by omega)

theorem AgreeBelow.memBytes {n a k : Nat} {m m' : Mem} (h : AgreeBelow n m m') (hk : a + k ≤ n) :
    memBytes m a k = memBytes m' a k :=
  memBytes_congr fun i hi => h (a + i) (by omega)

/-! ### The compressor reads `IBUF` below N only -/

section Input
variable {n : Nat} {ibuf ibuf' : Mem} (hi : AgreeBelow n ibuf ibuf') (hash : Hash)
include hi

theorem hashAt_congr {p : Nat} (hp : p + 4 ≤ n) : hashAt hash ibuf p = hashAt hash ibuf' p := by
  rw [hashAt, hashAt, hi p (by omega), hi (p + 1) (by omega), hi (p + 2) (by omega), hi (p + 3) (by omega)]

theorem indexLoop_congr {fuel hp : Nat} {t : HashTable} (hn : hp + fuel + 3 ≤ n) :
    indexLoop hash ibuf fuel hp t = indexLoop hash ibuf' fuel hp t := by
  induction fuel generalizing hp t with
  | zero => rfl
  | succ fuel ih =>
    rw [indexLoop_succ, indexLoop_succ, htInsert, htInsert, hashAt_congr hi hash (by omega), ih (by omega)]

theorem matchLoop_congr {c s fuel k : Nat} (hc : c ≤ s) (hn : s + k + fuel ≤ n) :
    matchLoop ibuf c s fuel k = matchLoop ibuf' c s fuel k := by
  induction fuel generalizing k with
  | zero => rfl
  | succ fuel ih =>
    rw [matchLoop, matchLoop, hi (c + k) (by omega), hi (s + k) (by omega), ih (by omega)]

theorem indexUpto_congr {c : Comp} (hhp : c.hp ≤ c.sp) (hn : 4 ≤ n - c.sp) :
    indexUpto hash ibuf c.sp c = indexUpto hash ibuf' c.sp c := by
  rw [indexUpto, indexUpto, indexLoop_congr hi hash (by omega)]

/-- The candidate stands before `SP`, so the match is looked for inside the buffer. -/
theorem findMatch_congr {M : Mem → Prop} {c : Comp} (hc : CompOk M n c) (hn : 4 ≤ n - c.sp) :
    findMatch hash ibuf n c = findMatch hash ibuf' n c := by
  have hlook : htLookup hash ibuf c.sp c.ht = htLookup hash ibuf' c.sp c.ht := by
    rw [htLookup, htLookup, hashAt_congr hi hash (by omega)]
  unfold findMatch
  rw [hlook]
  rcases hcand : htLookup hash ibuf' c.sp c.ht with _ | cand
  · rfl
  · have hlt : cand < c.hp := (hc.table.positions _ (assocGet_mem _ _ hcand)).1
    have hhp := hc.hp
    have hlen : matchLen ibuf n cand c.sp = matchLen ibuf' n cand c.sp := matchLoop_congr hi (by omega) (by omega)
    simp only [hlen]

theorem literalStep_congr (le : Bool) {c : Comp} (hn : c.sp < n) : literalStep le ibuf c = literalStep le ibuf' c := by
  rw [literalStep, literalStep, hi _ hn]

theorem mainStep_congr (le : Bool) {M : Mem → Prop} {c : Comp} (hc : CompOk M n c) (hn : 4 ≤ n - c.sp) :
    mainStep hash le ibuf n c = mainStep hash le ibuf' n c := by
  rw [mainStep, mainStep, ← indexUpto_congr hi hash hc.hp hn,
    findMatch_congr hi hash (indexUpto_compOk hash ibuf hc hn) hn, literalStep_congr hi le (by simp; omega)]

theorem cMain_congr (le : Bool) {M : Mem → Prop} (hM : WritesKeep compCap M) {fuel : Nat} {c : Comp}
    (hc : CompOk M n c) : cMain hash le ibuf n fuel c = cMain hash le ibuf' n fuel c := by
  induction fuel generalizing c with
  | zero => rfl
  | succ fuel ih =>
    rw [cMain_succ, cMain_succ]
    split_ifs with hn
    · have hk := mainStep_keeps hM hash le ibuf hc hn
      rw [← mainStep_congr hi hash le hc hn]
      rcases hs : mainStep hash le ibuf n c with e | c₁ <;> rw [hs] at hk
      · rfl
      · exact ih hk
    · rfl

theorem cTail_congr (le : Bool) {fuel : Nat} {c : Comp} : cTail le ibuf n fuel c = cTail le ibuf' n fuel c := by
  induction fuel generalizing c with
  | zero => rfl
  | succ fuel ih =>
    rw [cTail_succ, cTail_succ]
    split_ifs with hn
    · rw [literalStep_congr hi le hn]
      exact bind_congr fun _ => ih
    · rfl

theorem compressBody_congr (le : Bool) (hn : 1 ≤ n) (obuf : Mem) :
    compressBody hash le ibuf n obuf = compressBody hash le ibuf' n obuf := by
  have hM : WritesKeep compCap fun _ => True := fun _ _ _ _ _ => trivial
  have hinit : cInit le ibuf n obuf = cInit le ibuf' n obuf := by rw [cInit, cInit, hi 0 hn]
  rw [compressBody, compressBody, ← hinit, cMain_congr hi hash le hM (cInit_compOk hM le ibuf hn trivial)]
  exact bind_congr fun _ => by rw [cTail_congr hi le]

end Input

/-! ### Two runs side by side -/

/-- Two runs of an operation both succeed, with answers related by `S`, or both fail, with answers related by `R`. -/
inductive Alike {ε α : Type} (R : ε → ε → Prop) (S : α → α → Prop) : Except ε α → Except ε α → Prop
  | ok {a b : α} : S a b → Alike R S (.ok a) (.ok b)
  | error {e f : ε} : R e f → Alike R S (.error e) (.error f)

section Alike
variable {ε α β : Type} {R : ε → ε → Prop} {S : α → α → Prop}

theorem Alike.bind {T : β → β → Prop} {x y : Except ε α} {f g : α → Except ε β} (h : Alike R S x y)
    (hf : ∀ a b, S a b → Alike R T (f a) (g b)) : Alike R T (x >>= f) (y >>= g) := by
  cases h with
  | ok h => exact hf _ _ h
  | error h => exact .error h

theorem Alike.cases {x y : Except ε α} (h : Alike R S x y) :
    (∃ a b, x = .ok a ∧ y = .ok b ∧ S a b) ∨ (∃ e f, x = .error e ∧ y = .error f ∧ R e f) := by
  cases h with
  | ok h => exact .inl ⟨_, _, rfl, rfl, h⟩
  | error h => exact .inr ⟨_, _, rfl, rfl, h⟩

/-- Runs whose failures need not be compared are alike when each success has its counterpart. -/
theorem alike_of_ok {x y : Except ε α} (hx : ∀ a, x = .ok a → ∃ b, y = .ok b ∧ S a b)
    (hy : ∀ b, y = .ok b → ∃ a, x = .ok a) : Alike (fun _ _ => True) S x y := by
  rcases x with e | a
  · rcases y with f | b
    · exact .error trivial
    · obtain ⟨a, ha⟩ := hy b rfl
      cases ha
  · obtain ⟨b, rfl, h⟩ := hx a rfl
    exact .ok h

end Alike

/-! ### The writer does not read `OBUF` -/

/-- Two writers' parts with the same registers, whose bytes before `WP` agree but for the reserved flag word. -/
structure OutAlike (o o' : Out) : Prop where
  bw : o'.bw = o.bw
  bytes : ∀ a, a < o.bw.wp → a ≠ o.bw.rsv → a ≠ o.bw.rsv + 1 → memRead o.obuf a = memRead o'.obuf a

/-- The flag word written at its place closes the gap. -/
theorem OutAlike.writeHalf {o o' : Out} (h : OutAlike o o') (x y : Byte) :
    AgreeBelow o.bw.wp (memWrite (memWrite o.obuf o.bw.rsv x) (o.bw.rsv + 1) y)
      (memWrite (memWrite o'.obuf o.bw.rsv x) (o.bw.rsv + 1) y) := by
  intro a ha
  simp only [memRead_memWrite]
  split_ifs with h₁ h₂
  · rfl
  · rfl
  · exact h.bytes a ha h₂ h₁

theorem putBit_alike {o o' : Out} (le b : Bool) (h : OutAlike o o') :
    Alike (fun _ _ => True) OutAlike (putBit le b o) (putBit le b o') := by
  obtain ⟨bw, m⟩ := o
  obtain ⟨bw', m'⟩ := o'
  obtain rfl : bw' = bw := h.bw
  by_cases h0 : bw'.wcnt = 0
  · refine alike_of_ok (fun p hp => ?_) (fun p hp => ?_) <;> obtain ⟨hlt, rfl⟩ := (putBit_of_full h0).1 hp
    · refine ⟨_, (putBit_of_full h0).2 ⟨hlt, rfl⟩, rfl, fun a ha h₁ h₂ => ?_⟩
      simp only [shiftIn, reserve] at ha h₁ h₂
      exact h.writeHalf _ _ a (by change a < bw'.wp; omega)
    · exact ⟨_, (putBit_of_full h0).2 ⟨hlt, rfl⟩⟩
  · rw [putBit_of_room h0, putBit_of_room h0]
    exact .ok ⟨rfl, h.bytes⟩

theorem appendByte_alike {o o' : Out} (b : Byte) (h : OutAlike o o') :
    Alike (fun _ _ => True) OutAlike (appendByte b o) (appendByte b o') := by
  obtain ⟨bw, m⟩ := o
  obtain ⟨bw', m'⟩ := o'
  obtain rfl : bw' = bw := h.bw
  refine alike_of_ok (fun p hp => ?_) (fun p hp => ?_) <;> obtain ⟨hlt, rfl⟩ := appendByte_ok_iff.1 hp
  · refine ⟨_, appendByte_ok_iff.2 ⟨hlt, rfl⟩, rfl, fun a ha h₁ h₂ => ?_⟩
    simp only [memRead_memWrite]
    split_ifs with hwp
    · rfl
    · exact h.bytes a (Nat.lt_of_le_of_ne (Nat.lt_succ_iff.1 ha) hwp) h₁ h₂
  · exact ⟨_, appendByte_ok_iff.2 ⟨hlt, rfl⟩⟩

theorem putBits_alike {o o' : Out} (le : Bool) (bits : List Bool) (h : OutAlike o o') :
    Alike (fun _ _ => True) OutAlike (putBits le bits o) (putBits le bits o') := by
  induction bits generalizing o o' with
  | nil => exact .ok h
  | cons b bits ih => exact (putBit_alike le b h).bind fun _ _ h => ih h

theorem emitToken_alike {o o' : Out} (le : Bool) (t : Token) (h : OutAlike o o') :
    Alike (fun _ _ => True) OutAlike (emitToken le t o) (emitToken le t o') := by
  rw [emitToken_eq, emitToken_eq]
  exact (putBits_alike le _ h).bind fun _ _ h => appendByte_alike _ h

/-- Two writers' parts with the registers `bw`, whose bytes below `n` agree. -/
structure OutFilled (bw : BitWriter) (n : Nat) (o o' : Out) : Prop where
  left : o.bw = bw
  right : o'.bw = bw
  bytes : AgreeBelow n o.obuf o'.obuf

theorem finalize_alike {o o' : Out} (le : Bool) (h : OutAlike o o') :
    Alike (fun _ _ => True) (OutFilled o.bw o.bw.wp) (finalize le o) (finalize le o') := by
  obtain ⟨bw, m⟩ := o
  obtain ⟨bw', m'⟩ := o'
  obtain rfl : bw' = bw := h.bw
  refine alike_of_ok (fun p hp => ?_) (fun p hp => ?_) <;> obtain ⟨hlt, rfl⟩ := putHalfAt_ok_iff.1 hp
  · exact ⟨_, putHalfAt_ok_iff.2 ⟨hlt, rfl⟩, rfl, rfl, h.writeHalf _ _⟩
  · exact ⟨_, putHalfAt_ok_iff.2 ⟨hlt, rfl⟩⟩

theorem padFrom_alike {bw : BitWriter} {a count : Nat} {o o' : Out} (h : OutFilled bw a o o') :
    Alike (fun _ _ => True) (OutFilled bw (a + count)) (padFrom a count o) (padFrom a count o') := by
  induction count generalizing a o o' with
  | zero => exact .ok h
  | succ count ih =>
    have hput : Alike (fun _ _ => True) (OutFilled bw (a + 1)) (putByteAt a fill o) (putByteAt a fill o') := by
      refine alike_of_ok (fun p hp => ?_) (fun p hp => ?_) <;> obtain ⟨hlt, rfl⟩ := putByteAt_ok_iff.1 hp
      · exact ⟨_, putByteAt_ok_iff.2 ⟨hlt, rfl⟩, h.left, h.right, h.bytes.write fill⟩
      · exact ⟨_, putByteAt_ok_iff.2 ⟨hlt, rfl⟩⟩
    rw [show a + (count + 1) = a + 1 + count by omega]
    exact hput.bind fun _ _ h => ih h

/-- What `FINALIZE` and the filler leave: the same registers, and the same bytes up to PLEN. -/
def OutFinished (o o' : Out) : Prop := o'.bw = o.bw ∧ AgreeBelow (padded o.bw.wp) o.obuf o'.obuf

theorem finishOut_alike {o o' : Out} (le : Bool) (h : OutAlike o o') :
    Alike (fun _ _ => True) OutFinished (finishOut le o) (finishOut le o') := by
  refine (finalize_alike le h).bind fun p p' hp => ?_
  rw [hp.left, hp.right]
  rcases (padFrom_alike (count := padded o.bw.wp - o.bw.wp) hp).cases with
    ⟨q, q', hq, hq', h⟩ | ⟨q, q', hq, hq', -⟩ <;> rw [hq, hq']
  · refine .ok ⟨h.right.trans h.left.symm, ?_⟩
    rw [h.left]
    exact h.bytes.mono (by omega)
  · exact .error trivial

/-! ### The compressor does not read `OBUF` -/

/-- Two compressors' parts that differ at most in the writers' bytes. -/
def CompAlike (c c' : Comp) : Prop := ∃ o', c' = { c with out := o' } ∧ OutAlike c.out o'

theorem literalStep_alike {c c' : Comp} (le : Bool) (ibuf : Mem) (h : CompAlike c c') :
    Alike (fun _ _ => True) CompAlike (literalStep le ibuf c) (literalStep le ibuf c') := by
  obtain ⟨o', rfl, ho⟩ := h
  have hemit : Alike (fun _ _ => True) OutAlike (emitLit le (memRead ibuf c.sp) c.out)
    (emitLit le (memRead ibuf c.sp) o') := emitToken_alike le (.lit (memRead ibuf c.sp)) ho
  rcases hemit.cases with ⟨p, q, hp, hq, h⟩ | ⟨p, q, hp, hq, -⟩ <;> rw [literalStep, literalStep, hp, hq]
  · exact .ok ⟨q, rfl, h⟩
  · exact .error trivial

theorem matchStep_alike {c c' : Comp} (le : Bool) (mlen dist : Nat) (h : CompAlike c c') :
    Alike (fun _ _ => True) CompAlike (matchStep le mlen dist c) (matchStep le mlen dist c') := by
  obtain ⟨o', rfl, ho⟩ := h
  rcases (emitToken_alike le (.copy mlen dist) ho).cases with ⟨p, q, hp, hq, h⟩ | ⟨p, q, hp, hq, -⟩ <;>
    rw [matchStep, matchStep, hp, hq]
  · exact .ok ⟨q, rfl, h⟩
  · exact .error trivial

theorem mainStep_alike {c c' : Comp} (hash : Hash) (le : Bool) (ibuf : Mem) (n : Nat) (h : CompAlike c c') :
    Alike (fun _ _ => True) CompAlike (mainStep hash le ibuf n c) (mainStep hash le ibuf n c') := by
  obtain ⟨o', rfl, ho⟩ := h
  have hc : CompAlike (indexUpto hash ibuf c.sp c) { indexUpto hash ibuf c.sp c with out := o' } := ⟨o', rfl, ho⟩
  have hfind : findMatch hash ibuf n (indexUpto hash ibuf c.sp { c with out := o' }) =
    findMatch hash ibuf n (indexUpto hash ibuf c.sp c) := rfl
  unfold mainStep
  rw [hfind]
  rcases findMatch hash ibuf n (indexUpto hash ibuf c.sp c) with _ | ⟨mlen, dist⟩
  · exact literalStep_alike le ibuf hc
  · exact matchStep_alike le mlen dist hc

theorem cMain_alike {c c' : Comp} (hash : Hash) (le : Bool) (ibuf : Mem) (n fuel : Nat) (h : CompAlike c c') :
    Alike (fun _ _ => True) CompAlike (cMain hash le ibuf n fuel c) (cMain hash le ibuf n fuel c') := by
  induction fuel generalizing c c' with
  | zero => exact .ok h
  | succ fuel ih =>
    have hsp : c'.sp = c.sp := by obtain ⟨o', rfl, -⟩ := h; rfl
    rw [cMain_succ, cMain_succ, hsp]
    split_ifs
    · exact (mainStep_alike hash le ibuf n h).bind fun _ _ h => ih h
    · exact .ok h

theorem cTail_alike {c c' : Comp} (le : Bool) (ibuf : Mem) (n fuel : Nat) (h : CompAlike c c') :
    Alike (fun _ _ => True) CompAlike (cTail le ibuf n fuel c) (cTail le ibuf n fuel c') := by
  induction fuel generalizing c c' with
  | zero => exact .ok h
  | succ fuel ih =>
    have hsp : c'.sp = c.sp := by obtain ⟨o', rfl, -⟩ := h; rfl
    rw [cTail_succ, cTail_succ, hsp]
    split_ifs
    · exact (literalStep_alike le ibuf h).bind fun _ _ h => ih h
    · exact .ok h

theorem cFinish_alike {c c' : Comp} (le : Bool) (h : CompAlike c c') :
    Alike (fun _ _ => True) (fun d d' => OutFinished d.out d'.out) (cFinish le c) (cFinish le c') := by
  obtain ⟨o', rfl, ho⟩ := h
  rcases (finishOut_alike le ho).cases with ⟨p, q, hp, hq, h⟩ | ⟨p, q, hp, hq, -⟩ <;> rw [cFinish, cFinish, hp, hq]
  · exact .ok h
  · exact .error trivial

/-- The header writes every byte before the reserved flag word. -/
theorem header_alike (le : Bool) (n : Nat) (first : Byte) (obuf obuf' : Mem) :
    OutAlike (header le n first obuf) (header le n first obuf') := by
  refine ⟨rfl, fun a ha h₁ h₂ => ?_⟩
  change a < 7 at ha
  change a ≠ 5 at h₁
  change a ≠ 6 at h₂
  change memRead (memWrite (memWrite4 le obuf 0 _) 4 first) a = memRead (memWrite (memWrite4 le obuf' 0 _) 4 first) a
  rw [memRead_memWrite, memRead_memWrite]
  split_ifs with h4
  · rfl
  · have hlt : a < 4 := by omega
    have hword := fun m => memRead_memWrite4 m le 0 (BitVec.ofNat 32 n) hlt
    rw [Nat.zero_add] at hword
    rw [hword, hword]

theorem compressBody_alike (hash : Hash) (le : Bool) (ibuf : Mem) (n : Nat) (obuf obuf' : Mem) :
    Alike (fun _ _ => True) (fun c c' => OutFinished c.out c'.out) (compressBody hash le ibuf n obuf)
      (compressBody hash le ibuf n obuf') :=
  (cMain_alike hash le ibuf n n ⟨_, rfl, header_alike le n _ obuf obuf'⟩).bind fun _ _ h =>
    (cTail_alike le ibuf n n h).bind fun _ _ h => cFinish_alike le h

/-! ### `DECOMPRESS` reads the stream inside `IBUF[0:ILEN]` only, and `OBUF` only where it has written -/

/-- Two streams of the same length and byte order with the same bytes below it. -/
structure StreamAlike (src src' : Stream) : Prop where
  len : src'.len = src.len
  le : src'.le = src.le
  byte : ∀ a, a < src.len → src.byte a = src'.byte a

theorem getBit_congr {src src' : Stream} (h : StreamAlike src src') : getBit src = getBit src' := by
  funext r
  have hload : loadFlags src r = loadFlags src' r := by
    rw [loadFlags, loadFlags, h.len, h.le]
    split_ifs with hr
    · rfl
    · rw [h.byte r.rp (by omega), h.byte (r.rp + 1) (by omega)]
  rw [getBit, getBit, hload]

theorem readByte_congr {src src' : Stream} (h : StreamAlike src src') : readByte src = readByte src' := by
  funext r
  rw [readByte, readByte, h.len]
  split_ifs with hr
  · rfl
  · rw [h.byte r.rp (by omega)]

theorem fetchFrom_congr {src src' : Stream} (h : StreamAlike src src') : fetchFrom src = fetchFrom src' := by
  funext r
  rw [fetchFrom, fetchFrom, getBit_congr h, readByte_congr h, h.len]

/-- Two decompressors' parts that differ at most in bytes of `OBUF` not yet written. -/
structure DecAlike (d d' : Dec) : Prop where
  br : d'.br = d.br
  dp : d'.dp = d.dp
  bytes : AgreeBelow d.dp d.obuf d'.obuf

/-- A copy from behind `DP` reads written bytes only. -/
theorem copyBytes_agree {count off dp : Nat} {m m' : Mem} (hoff : off < dp) (h : AgreeBelow dp m m') :
    AgreeBelow (dp + count) (copyBytes count off dp m) (copyBytes count off dp m') := by
  induction count generalizing off dp m m' with
  | zero => exact h
  | succ count ih =>
    rw [copyBytes, copyBytes, ← h off hoff, show dp + (count + 1) = dp + 1 + count by omega]
    exact ih (by omega) (h.write _)

/-- A fetched copy has at least 4 bytes and reaches back (43_decompress R175). -/
theorem fetchFrom_copy {src : Stream} {r r' : BitReader} {mlen dist : Nat}
    (h : fetchFrom src r = .ok (.copy mlen dist, r')) : 4 ≤ mlen ∧ 1 ≤ dist := by
  have hwf := readToken_wf h
  simp only [Token.toInstr, Instr.wf, Bool.and_eq_true, decide_eq_true_eq] at hwf
  exact hwf

theorem dStep_alike {src src' : Stream} {n : Nat} {d d' : Dec} (hsrc : StreamAlike src src') (h : DecAlike d d') :
    Alike (fun e f => e.1 = f.1) DecAlike (dStep src n d) (dStep src' n d') := by
  obtain ⟨br, dp, m⟩ := d
  obtain ⟨br', dp', m'⟩ := d'
  obtain ⟨rfl, rfl, hm⟩ : br' = br ∧ dp' = dp ∧ AgreeBelow dp m m' := ⟨h.br, h.dp, h.bytes⟩
  unfold dStep
  rw [← fetchFrom_congr hsrc]
  rcases hf : fetchFrom src br' with e | ⟨t, r⟩
  · exact .error rfl
  · cases t with
    | lit b => exact .ok ⟨rfl, rfl, hm.write b⟩
    | copy mlen dist =>
      obtain ⟨-, hdist⟩ := fetchFrom_copy hf
      simp only [tokenEffect, tokMatch]
      split_ifs with h₁ h₂
      · exact .error rfl
      · exact .error rfl
      · exact .ok ⟨rfl, rfl, copyBytes_agree (by omega) hm⟩

theorem dMain_alike {src src' : Stream} {n fuel : Nat} {d d' : Dec} (hsrc : StreamAlike src src')
    (h : DecAlike d d') : Alike (fun e f => e.1 = f.1) DecAlike (dMain src n fuel d) (dMain src' n fuel d') := by
  induction fuel generalizing d d' with
  | zero => exact .ok h
  | succ fuel ih =>
    rw [dMain_succ, dMain_succ, h.dp]
    split_ifs
    · exact (dStep_alike hsrc h).bind fun _ _ h => ih h
    · exact .ok h

/-- Every token produces a byte. -/
theorem dStep_advances {src : Stream} {n : Nat} {d d' : Dec} (h : dStep src n d = .ok d') : d.dp < d'.dp := by
  rcases dStep_ok_cases h with ⟨b, r, -, rfl⟩ | ⟨mlen, dist, r, hf, -, -, rfl⟩
  · exact Nat.lt_succ_self _
  · have := (fetchFrom_copy hf).1
    simp only
    omega

/-- `D_MAIN` that ends without a fault has filled the output. -/
theorem dMain_fills {src : Stream} {n fuel : Nat} {d d' : Dec} (hfuel : n - d.dp ≤ fuel)
    (h : dMain src n fuel d = .ok d') : n ≤ d'.dp := by
  induction fuel generalizing d with
  | zero =>
    cases h
    omega
  | succ fuel ih =>
    rw [dMain_succ] at h
    split_ifs at h with hlt
    · obtain ⟨d₁, h₁, h⟩ := bind_ok_iff.1 h
      have := dStep_advances h₁
      exact ih (by omega) h
    · cases h
      omega

/-! ### Results -/

/-- The registers a command's results are read from, `PHASE` and the bytes apart, are the same. -/
def SameResultRegs (s s' : State) : Prop :=
  (s'.fault, s'.rawlen, s'.olen, s'.opad, s'.vk, s'.vok, s'.rle, s'.flip) =
    (s.fault, s.rawlen, s.olen, s.opad, s.vk, s.vok, s.rle, s.flip)

theorem results_congr {s s' : State} (h : SameResultRegs s s') (hphase : s'.phase = s.phase)
    (hbytes : s.phase = .done → AgreeBelow s.opad.toNat s.obuf s'.obuf) : results s = results s' := by
  simp only [SameResultRegs, Prod.mk.injEq] at h
  obtain ⟨hfault, hrawlen, holen, hopad, hvk, hvok, hrle, hflip⟩ := h
  simp only [results, hphase, hfault, hrawlen, holen, hopad, hvk, hvok, hrle, hflip]
  split_ifs with hdone
  · rw [(hbytes hdone).memBytes (by omega)]
  · rfl

/-- A fault's results are its cause and the registers as they were. -/
theorem results_raise {s s' : State} (cause : Cause) (h : SameResultRegs s s') :
    results (raise cause s) = results (raise cause s') := by
  refine results_congr ?_ rfl (fun h => nomatch h)
  simp only [SameResultRegs, Prod.mk.injEq] at h
  simp [SameResultRegs, h]

/-- The inputs of a command are the same, and so is what its start clears. -/
structure SameInputs (s s' : State) : Prop where
  ilen : s'.inLen = s.inLen
  regs : SameResultRegs s s'
  ibuf : AgreeBelow s.inLen s.ibuf s'.ibuf
  opad : s.opad = 0

theorem SameResultRegs.rawLen {s s' : State} (h : SameResultRegs s s') : s'.rawLen = s.rawLen := by
  simp only [SameResultRegs, Prod.mk.injEq] at h
  obtain ⟨-, hrawlen, -⟩ := h
  rw [State.rawLen, State.rawLen, hrawlen]

theorem verifyLoop_congr {ibuf ibuf' : Mem} {len fuel k : Nat} (digest : List Byte → Vector Byte 16)
    (h : AgreeBelow len ibuf ibuf') : verifyLoop digest ibuf len fuel k = verifyLoop digest ibuf' len fuel k := by
  induction fuel generalizing k with
  | zero => rfl
  | succ fuel ih =>
    rw [verifyLoop, verifyLoop]
    by_cases hlen : len - k < digestLen
    · rw [if_pos hlen, if_pos hlen]
    · have hmatch : digestMatches digest ibuf len k = digestMatches digest ibuf' len k := by
        rw [digestMatches, digestMatches, h.memBytes (by omega), h.memBytes (a := 0) (by omega)]
      rw [if_neg hlen, if_neg hlen, hmatch, ih]

theorem verifyWith_results {s s' : State} (digest : List Byte → Vector Byte 16) (h : SameInputs s s') :
    results (verifyWith digest s) = results (verifyWith digest s') := by
  rw [verifyWith, verifyWith, h.ilen, ← verifyLoop_congr digest h.ibuf]
  split_ifs
  · exact results_raise _ h.regs
  · rcases verifyLoop digest s.ibuf s.inLen (padTol + 1) 0 with _ | k
    · exact results_raise _ h.regs
    · refine results_congr ?_ rfl fun _ a ha => by simp [h.opad] at ha
      have hregs := h.regs
      simp only [SameResultRegs, Prod.mk.injEq] at hregs
      simp [SameResultRegs, hregs]

theorem sizeField_congr {s s' : State} (le : Bool) (h : SameInputs s s') (hlen : ¬s.inLen < sizeFieldLen) :
    sizeField le s = sizeField le s' := by
  unfold sizeFieldLen at hlen
  rw [sizeField, sizeField, memRead4, memRead4, h.ibuf 0 (by omega), h.ibuf (0 + 1) (by omega),
    h.ibuf (0 + 2) (by omega), h.ibuf (0 + 3) (by omega)]

theorem resolveDone_results {s s' : State} (le flipped : Bool) (h : SameInputs s s')
    (hsize : sizeField le s = sizeField le s') : results (resolveDone le flipped s) = results (resolveDone le flipped s') := by
  refine results_congr ?_ rfl fun _ a ha => by simp [resolveDone, h.opad] at ha
  have hregs := h.regs
  simp only [SameResultRegs, Prod.mk.injEq] at hregs
  simp [SameResultRegs, resolveDone, hregs, hsize]

theorem resolveWith_results {s s' : State} (le : Bool) (h : SameInputs s s') :
    results (resolveWith le s) = results (resolveWith le s') := by
  rw [resolveWith, resolveWith, h.ilen]
  by_cases h₂ : s.inLen < sizeFieldLen
  · rw [if_pos h₂, if_pos h₂]
    split_ifs <;> exact results_raise _ h.regs
  · have hsize (le : Bool) : sizeField le s = sizeField le s' := sizeField_congr le h h₂
    rw [if_neg h₂, if_neg h₂, ← hsize le, ← hsize (!le)]
    split_ifs
    · exact results_raise _ h.regs
    · exact resolveDone_results _ _ h (hsize _)
    · exact resolveDone_results _ _ h (hsize _)
    · exact results_raise _ h.regs

/-- `NORMALISE` on the same inputs: the same cause, or the same N and the same bytes below it. -/
theorem normalise_alike {s s' : State} (h : SameInputs s s') :
    Alike Eq (fun t t' => SameResultRegs t t' ∧ AgreeBelow t.rawLen t.ibuf t'.ibuf) (normalise s) (normalise s') := by
  rw [normalise, normalise, h.ilen]
  by_cases h0 : s.inLen = 0
  · rw [if_pos h0, if_pos h0]
    exact .error rfl
  · have hregs := h.regs
    simp only [SameResultRegs, Prod.mk.injEq] at hregs
    rw [if_neg h0, if_neg h0, ← h.ibuf (s.inLen - 1) (by omega)]
    split_ifs
    · exact .error rfl
    · exact .ok ⟨by simp [SameResultRegs, hregs], (h.ibuf.write 0).mono (ofNat_toNat_le (le_refl _))⟩
    · exact .ok ⟨by simp [SameResultRegs, hregs], h.ibuf.mono (ofNat_toNat_le (le_refl _))⟩

theorem compressDone_results {t t' : State} {c c' : Comp} (h : SameResultRegs t t') (hout : OutFinished c.out c'.out) :
    results (compressDone c t) = results (compressDone c' t') := by
  obtain ⟨hbw, hbytes⟩ := hout
  refine results_congr ?_ rfl fun _ => hbytes.mono (ofNat_toNat_le (le_refl _))
  simp only [SameResultRegs, Prod.mk.injEq] at h
  simp [SameResultRegs, h, hbw]

theorem compressWith_results {s s' : State} (hash : Hash) (le : Bool) (h : SameInputs s s') :
    results (compressWith hash le s) = results (compressWith hash le s') := by
  rw [compressWith, compressWith, h.ilen]
  split_ifs with hcap
  · exact results_raise _ h.regs
  · rcases (normalise_alike h).cases with ⟨t, t', ht, ht', hregs, hibuf⟩ | ⟨cause, _, ht, ht', rfl⟩ <;> rw [ht, ht']
    · have hN := (normalise_rawLen (by omega) ht).1
      have hbody := compressBody_alike hash le t'.ibuf t.rawLen t.obuf t'.obuf
      rw [← compressBody_congr hibuf hash le hN] at hbody
      dsimp only
      rw [hregs.rawLen]
      rcases hbody.cases with ⟨c, c', hc, hc', hout⟩ | ⟨c, c', hc, hc', -⟩ <;> rw [hc, hc']
      · exact compressDone_results hregs hout
      · exact results_raise (s := t.setComp c) (s' := t'.setComp c') _ hregs
    · exact results_raise _ h.regs

/-! ### `DECOMPRESS` -/

theorem SameInputs.stream {s s' : State} (h : SameInputs s s') (le : Bool) : StreamAlike (s.stream le) (s'.stream le) :=
  ⟨h.ilen, rfl, h.ibuf⟩

theorem dInit_alike {s s' : State} (le : Bool) (h : SameInputs s s') :
    Alike (fun e f => e.1 = f.1) DecAlike (dInit le s) (dInit le s') := by
  rw [dInit, dInit, h.regs.rawLen, ← readByte_congr (h.stream le)]
  split_ifs
  · exact .error rfl
  · exact .error rfl
  · have hbr : (dStart s').br = (dStart s).br := rfl
    rw [hbr]
    rcases readByte (s.stream le) (dStart s).br with e | ⟨b, r⟩
    · exact .error rfl
    · have hnone : AgreeBelow 0 s.obuf s'.obuf := fun a ha => absurd ha (Nat.not_lt_zero a)
      exact .ok ⟨rfl, rfl, hnone.write b⟩

theorem decompressRest_of_ok {le : Bool} {s : State} {d e : Dec}
    (h : dMain (s.stream le) s.rawLen (s.rawLen - d.dp) d = .ok e) :
    decompressRest le (s.setDec d) = decompressDone (s.setDec e) := by
  rcases decompressRest_cases le (s.setDec d) with ⟨_, _, h', -⟩ | ⟨e', h', hr⟩ <;> cases h.symm.trans h'
  exact hr

theorem decompressRest_of_error {le : Bool} {s : State} {d e : Dec} {cause : Cause}
    (h : dMain (s.stream le) s.rawLen (s.rawLen - d.dp) d = .error (cause, e)) :
    decompressRest le (s.setDec d) = raise cause (s.setDec e) := by
  rcases decompressRest_cases le (s.setDec d) with ⟨_, _, h', hr⟩ | ⟨e', h', -⟩ <;> cases h.symm.trans h'
  exact hr

/-- The output is filled, so its bytes are all among those written. -/
theorem decompressDone_results {s s' : State} {d d' : Dec} (h : SameInputs s s') (hd : DecAlike d d')
    (hfull : s.rawLen ≤ d.dp) : results (decompressDone (s.setDec d)) = results (decompressDone (s'.setDec d')) := by
  refine results_congr ?_ rfl fun _ => hd.bytes.mono ((ofNat_toNat_le (le_refl _)).trans hfull)
  have hlen := h.regs.rawLen
  have hregs := h.regs
  simp only [SameResultRegs, Prod.mk.injEq] at hregs
  simp [SameResultRegs, hregs, hlen]

theorem decompressRest_results {s s' : State} {d d' : Dec} (le : Bool) (h : SameInputs s s') (hd : DecAlike d d') :
    results (decompressRest le (s.setDec d)) = results (decompressRest le (s'.setDec d')) := by
  have hloop := dMain_alike (n := s.rawLen) (fuel := s.rawLen - d.dp) (h.stream le) hd
  rcases hloop.cases with ⟨e, e', he, he', hend⟩ | ⟨⟨cause, e⟩, ⟨cause', e'⟩, he, he', hcause⟩
  · rw [← h.regs.rawLen, ← hd.dp] at he'
    rw [decompressRest_of_ok he, decompressRest_of_ok he']
    exact decompressDone_results h hend (dMain_fills (le_refl _) he)
  · obtain rfl : cause = cause' := hcause
    rw [← h.regs.rawLen, ← hd.dp] at he'
    rw [decompressRest_of_error he, decompressRest_of_error he']
    exact results_raise (s := s.setDec e) (s' := s'.setDec e') _ h.regs

theorem decompressWhole_results {s s' : State} (le : Bool) (h : SameInputs s s') :
    results (decompressWhole le s) = results (decompressWhole le s') := by
  rw [decompressWhole, decompressWhole, h.ilen]
  split_ifs
  · exact results_raise _ h.regs
  · rcases (dInit_alike le h).cases with ⟨d, d', hd, hd', hstart⟩ | ⟨⟨cause, d⟩, ⟨cause', d'⟩, hd, hd', hcause⟩ <;>
      rw [hd, hd']
    · exact decompressRest_results le h hstart
    · obtain rfl : cause = cause' := hcause
      exact results_raise (s := s.setDec d) (s' := s'.setDec d') _ h.regs

/-! ### The obligation -/

/-- After an accepted `CMD` write only the inputs are left to differ. -/
theorem acceptCommand_sameInputs {s s' : State} (w : Word) (hilen : s.ilen = s'.ilen) (hrawlen : s.rawlen = s'.rawlen)
    (hibuf : AgreeBelow s.inLen s.ibuf s'.ibuf) : SameInputs (acceptCommand w s) (acceptCommand w s') :=
  ⟨by rw [acceptCommand_inLen, acceptCommand_inLen, State.inLen, State.inLen, hilen],
    by simp [SameResultRegs, hrawlen], hibuf, rfl⟩

/-- A command run to its end on the same inputs gives the same results. -/
theorem exec_results {s s' : State} (w : Word) (h : SameInputs s s') :
    ∃ t t', exec (decodeCommand w) s = .next t ∧ exec (decodeCommand w) s' = .next t' ∧ results t = results t' := by
  rcases decodeCommand_cases w with hc | hc | hc | hc | hc <;> rw [hc]
  · exact ⟨_, _, rfl, rfl, compressWith_results _ _ h⟩
  · exact ⟨_, _, rfl, rfl, decompressWhole_results _ h⟩
  · exact ⟨_, _, rfl, rfl, verifyWith_results _ h⟩
  · exact ⟨_, _, rfl, rfl, resolveWith_results _ h⟩
  · exact ⟨_, _, rfl, rfl, results_raise _ h.regs⟩

/-- Settles O42: the accepted write leaves the same inputs, and each command's results depend on those only. -/
theorem resultsDependOnlyOnInputs : Obligations.ResultsDependOnlyOnInputs := by
  unfold Obligations.ResultsDependOnlyOnInputs
  intro w s s' hilen hrawlen hibuf
  exact exec_results w (acceptCommand_sameInputs w hilen hrawlen hibuf)

end Sys2Proof.Machine
end

section
/-! PROOFS. No move of the block stops the model: inside a `DECOMPRESS` that has not reached N, every write of a token to
`OBUF` is inside the buffer (20_memory R66, 70_reset R282). -/

namespace Sys2Proof.Machine

/-- A token met before N, with N at most the size of `OBUF`, has a next state: a literal's byte is below N, and a copy
that would pass N faults before it is done. -/
theorem exec_token_next {s : State} (tok : Token) (hlt : s.dp < s.rawLen) (hmax : s.rawLen ≤ outCap) :
    ∃ t, exec tok.toInstr s = .next t := by
  cases tok with
  | lit b =>
    rcases execLit_cases b s with ⟨hout, -⟩ | ⟨-, h⟩
    · omega
    · exact ⟨_, h⟩
  | copy mlen dist =>
    rcases execMatch_cases mlen dist s with ⟨-, h⟩ | ⟨-, -, h⟩ | ⟨-, hroom, hout, -⟩ | ⟨-, -, -, h⟩
    · exact ⟨_, h⟩
    · exact ⟨_, h⟩
    · omega
    · exact ⟨_, h⟩

/-- A running `DECOMPRESS` whose N is at most the size of `OBUF` goes on by one token to a next state, whatever its
stream holds. -/
theorem tokenStep_next {s : State} (hmax : s.rawLen ≤ outCap) : ∃ t, tokenStep s = .next t := by
  rcases tokenStep_cases s with ⟨-, h⟩ | ⟨-, cause, -, h⟩ | ⟨hlt, tok, r, -, h⟩
  · exact ⟨_, h⟩
  · exact ⟨_, h⟩
  · obtain ⟨t, ht⟩ := exec_token_next (s := { s with br := r }) tok hlt hmax
    exact ⟨closeTokens t, by rw [h, ht]; rfl⟩

/-- The first step of a command taken token by token never stops the model. -/
theorem startStep_fetchCommand_next (s : State) : ∃ t, startStep (fetchCommand s) s = .next t := by
  rcases startStep_cases s.cmd s with h | h
  · exact ⟨_, h⟩
  · obtain ⟨t, ht, -⟩ := exec_command_phase s.cmd s
    exact ⟨t, h.trans ht⟩

/-- The block's move by one token gives a next state wherever a command held inside its tokens has an N that fits
`OBUF`. -/
theorem tokenMove_next {s : State} (hmax : s.pos = .tokens → s.rawLen ≤ outCap) : ∃ t, tokenMove s = .next t := by
  by_cases hrun : s.phase = .run
  · cases hpos : s.pos with
    | start => rw [tokenMove_of_start hrun hpos]; exact startStep_fetchCommand_next s
    | tokens => rw [tokenMove_of_tokens hrun hpos]; exact tokenStep_next (hmax hpos)
  · exact ⟨s, tokenMove_of_not_running hrun⟩

/-- Settles O49: the move to the end gives a next state in every state; the move by one token needs of the invariant that
N is at most `SIZE_MAX`, which is the size of `OBUF`. -/
theorem runningBlockNeverStops : Obligations.RunningBlockNeverStops := by
  unfold Obligations.RunningBlockNeverStops
  intro s hs
  exact ⟨blockMove_next s, tokenMove_next fun hpos => (hs.tokens hpos).rawlen⟩

end Sys2Proof.Machine
end

section
/-! PROOFS. The command word: its fields, the instruction they give, and what the block does with it (30_encoding R91, R92,
R94). -/

namespace Sys2Proof

/-! ### The fields of a command word (30_encoding R91) -/

/-- The mask clears bit 3 and keeps every other bit: the reserved bits above it and the operation below. -/
theorem and_cmdMask (w : Word) : w &&& cmdMask = w.extractLsb' 4 28 ++ (0#1 ++ w.extractLsb' 0 3) := by
  apply BitVec.eq_of_getLsbD_eq
  intro i hi
  have hmask : cmdMask.getLsbD i = decide (i ≠ 3) := by
    revert i
    decide
  simp only [BitVec.getLsbD_and, BitVec.getLsbD_append, BitVec.getLsbD_extractLsb', hmask]
  by_cases h₃ : i < 3
  · simp [h₃, show i < 1 + 3 by omega, show i ≠ 3 by omega]
  · by_cases h₄ : i < 1 + 3
    · simp [show i = 3 by omega]
    · simp [h₄, show 4 + (i - 4) = i by omega, show i ≠ 3 by omega, show i - 4 < 28 by omega]

theorem and_cmdMask_toNat (w : Word) :
    (w &&& cmdMask).toNat = 16 * (w.extractLsb' 4 28).toNat + (w.extractLsb' 0 3).toNat := by
  have hlow : (0#1 ++ w.extractLsb' 0 3).toNat = (w.extractLsb' 0 3).toNat := by
    rw [BitVec.toNat_append, BitVec.toNat_ofNat, Nat.zero_mod, Nat.zero_shiftLeft, Nat.zero_or]
  have hlt : (0#1 ++ w.extractLsb' 0 3).toNat < 2 ^ (1 + 3) := BitVec.isLt _
  rw [and_cmdMask, BitVec.toNat_append, ← Nat.shiftLeft_add_eq_or_of_lt hlt, hlow, Nat.shiftLeft_eq]
  omega

/-- Match and mask are the fields: no reserved bit, and the operation. -/
theorem and_cmdMask_eq_iff {w op : Word} (hop : op.toNat ≤ 7) :
    w &&& cmdMask = op ↔ w.extractLsb' 4 28 = 0#28 ∧ (w.extractLsb' 0 3).toNat = op.toNat := by
  have hlow : (w.extractLsb' 0 3).toNat < 8 := BitVec.isLt _
  have hzero : w.extractLsb' 4 28 = 0#28 ↔ (w.extractLsb' 4 28).toNat = 0 := BitVec.toNat_inj.symm
  rw [hzero, ← BitVec.toNat_inj, and_cmdMask_toNat]
  omega

/-- A word is its masked part and its byte order. -/
theorem and_cmdMask_or_le (w : Word) : (w &&& cmdMask) ||| (if leOf w then 8 else 0) = w := by
  have hbit : (if leOf w then (8 : Word) else 0) = w &&& 8 := by
    rw [show (8 : Word) = BitVec.twoPow 32 3 by decide, BitVec.and_twoPow]
    rfl
  rw [hbit, ← BitVec.and_or_distrib_left, show cmdMask ||| 8 = BitVec.allOnes 32 by decide, BitVec.and_allOnes]

/-! ### The instruction of a command word (30_encoding R91, R94) -/

section Fields
variable {w : Word}

theorem decodeCommand_compress (hbits : w.extractLsb' 4 28 = 0#28) (hop : (w.extractLsb' 0 3).toNat = 1) :
    decodeCommand w = .compress (leOf w) := by
  rw [decodeCommand, (and_cmdMask_eq_iff (op := 1) (by decide)).2 ⟨hbits, hop⟩]
  rfl

theorem decodeCommand_decompress (hbits : w.extractLsb' 4 28 = 0#28) (hop : (w.extractLsb' 0 3).toNat = 2) :
    decodeCommand w = .decompress (leOf w) := by
  rw [decodeCommand, (and_cmdMask_eq_iff (op := 2) (by decide)).2 ⟨hbits, hop⟩]
  rfl

theorem decodeCommand_verify (hbits : w.extractLsb' 4 28 = 0#28) (hop : (w.extractLsb' 0 3).toNat = 3) :
    decodeCommand w = .verify (leOf w) := by
  rw [decodeCommand, (and_cmdMask_eq_iff (op := 3) (by decide)).2 ⟨hbits, hop⟩]
  rfl

theorem decodeCommand_resolve (hbits : w.extractLsb' 4 28 = 0#28) (hop : (w.extractLsb' 0 3).toNat = 4) :
    decodeCommand w = .resolve (leOf w) := by
  rw [decodeCommand, (and_cmdMask_eq_iff (op := 4) (by decide)).2 ⟨hbits, hop⟩]
  rfl

/-- Every word that is none of the four commands is the reserved word. -/
theorem decodeCommand_reserved (h : w.extractLsb' 4 28 ≠ 0#28 ∨ (w.extractLsb' 0 3).toNat ∈ [0, 5, 6, 7]) :
    decodeCommand w = .reservedOp w := by
  have hne (op : Word) (hop : op.toNat ≤ 7) (hlegal : op.toNat ∉ [0, 5, 6, 7]) : w &&& cmdMask ≠ op := fun heq => by
    obtain ⟨hbits, hlow⟩ := (and_cmdMask_eq_iff hop).1 heq
    exact h.elim (fun h => h hbits) fun h => hlegal (hlow ▸ h)
  rw [decodeCommand, if_neg (hne 1 (by decide) (by decide)), if_neg (hne 2 (by decide) (by decide)),
    if_neg (hne 3 (by decide) (by decide)), if_neg (hne 4 (by decide) (by decide))]

/-- The fields of a well-formed reserved word. -/
theorem reservedOp_wf_iff :
    (Instr.reservedOp w).wf = true ↔ w.extractLsb' 4 28 ≠ 0#28 ∨ (w.extractLsb' 0 3).toNat ∈ [0, 5, 6, 7] := by
  simp [Instr.wf, reservedBitsSet, illegalOp, ← BitVec.toNat_inj]

end Fields

/-- A word is reserved, or it has no reserved bit and one of the four operations. -/
theorem fields_cases (w : Word) :
    (w.extractLsb' 4 28 ≠ 0#28 ∨ (w.extractLsb' 0 3).toNat ∈ [0, 5, 6, 7]) ∨
    (w.extractLsb' 4 28 = 0#28 ∧ ((w.extractLsb' 0 3).toNat = 1 ∨ (w.extractLsb' 0 3).toNat = 2 ∨
      (w.extractLsb' 0 3).toNat = 3 ∨ (w.extractLsb' 0 3).toNat = 4)) := by
  have hlow : (w.extractLsb' 0 3).toNat < 8 := BitVec.isLt _
  by_cases hbits : w.extractLsb' 4 28 = 0#28
  · simp only [hbits, ne_eq, not_true_eq_false, false_or, true_and, List.mem_cons, List.not_mem_nil, or_false]
    omega
  · exact .inl (.inl hbits)

/-- Settles O2: by the fields, where a reserved bit is set, and otherwise for each operation. -/
theorem commandWordFields : Obligations.CommandWordFields := by
  unfold Obligations.CommandWordFields
  intro w
  refine ⟨?_, fun op hop => and_cmdMask_eq_iff hop⟩
  rcases fields_cases w with h | ⟨hbits, hop⟩
  · rw [decodeCommand_reserved h]
    split_ifs with hbits
    · rfl
    · have hop := h.resolve_left hbits
      simp only [List.mem_cons, List.not_mem_nil, or_false] at hop
      rcases hop with hop | hop | hop | hop <;> rw [hop] <;> rfl
  · rw [if_neg (not_not.2 hbits)]
    rcases hop with hop | hop | hop | hop
    · rw [decodeCommand_compress hbits hop, hop]
      rfl
    · rw [decodeCommand_decompress hbits hop, hop]
      rfl
    · rw [decodeCommand_verify hbits hop, hop]
      rfl
    · rw [decodeCommand_resolve hbits hop, hop]
      rfl

/-- Settles O1: each word and each token is decoded by evaluation. -/
theorem writtenOutWordsDecode : Obligations.WrittenOutWordsDecode := by
  unfold Obligations.WrittenOutWordsDecode
  decide

namespace Machine

/-! ### What the block does with it (30_encoding R92, R94) -/

theorem reservedCause_code (w : Word) :
    faultCode (reservedCause w) = if w.extractLsb' 4 28 ≠ 0#28 then 0x25 else 0x15 := by
  by_cases h : w.extractLsb' 4 28 = 0#28
  · simp [reservedCause, reservedBitsSet, h, faultCode, Cause.number, Cause.kind]
  · simp [reservedCause, reservedBitsSet, h, faultCode, Cause.number, Cause.kind]

/-- Settles O32: a well-formed reserved word decodes to itself, and its meaning is fault entry; `VERIFY` does not read its
byte order. -/
theorem reservedWordsOnlyFault : Obligations.ReservedWordsOnlyFault := by
  unfold Obligations.ReservedWordsOnlyFault
  refine ⟨fun w s hwf => ⟨decodeCommand_reserved (reservedOp_wf_iff.1 hwf), ?_⟩, fun s => ⟨rfl, by decide⟩⟩
  rw [exec_reservedOp, raise, reservedCause_code]

/-- Settles O39: with no turn listed, or the block's, the step is the block's move, which starts the command. -/
theorem stepRunsTheCommand : Obligations.StepRunsTheCommand := by
  unfold Obligations.StepRunsTheCommand
  intro s i hrun hpos hdec
  have hfetch : fetchCommand s = i := Except.ok.inj hdec
  subst hfetch
  refine ⟨fun hturns => ?_, fun rest hturns => ?_⟩
  · rw [step, nextTurn_nil hturns]
    exact blockMove_of_start hrun hpos
  · rw [step, nextTurn_cons hturns]
    exact blockMove_of_start (s := { s with turns := rest }) hrun hpos

/-- A `CMD` write, made first, is accepted outside `RUN` and ignored in it (30_encoding R92). -/
theorem step_writeCmd {w : Word} {s : State} {rest : List Turn} (h : s.turns = .host (.writeReg 0 w) :: rest) :
    step s = .next (if s.phase = .run then { s with turns := rest } else acceptCommand w { s with turns := rest }) := by
  rw [step, nextTurn_cons h]
  change (if s.phase = .run then _ else _) = _
  split_ifs <;> rfl

/-- A command that reads its input tests `ILEN` first. -/
theorem exec_ilenRange {w : Word} {s : State} (hbits : w.extractLsb' 4 28 = 0#28)
    (hop : (w.extractLsb' 0 3).toNat ∈ [1, 2, 3, 4]) (hlen : inCap < s.inLen) :
    exec (decodeCommand w) s = .next (raise .ilenRange s) := by
  simp only [List.mem_cons, List.not_mem_nil, or_false] at hop
  rcases hop with hop | hop | hop | hop
  · rw [decodeCommand_compress hbits hop, exec_compress, compressWith, if_pos hlen]
  · rw [decodeCommand_decompress hbits hop, exec_decompress, decompressWhole, if_pos hlen]
  · rw [decodeCommand_verify hbits hop, exec_verify, verifyWith, if_pos hlen]
  · rw [decodeCommand_resolve hbits hop, exec_resolve, resolveWith, if_pos hlen]

/-- A reserved word faults by the first of its two tests. -/
theorem exec_reserved_faultsWith {w : Word} (s : State)
    (h : w.extractLsb' 4 28 ≠ 0#28 ∨ (w.extractLsb' 0 3).toNat ∈ [0, 5, 6, 7]) :
    FaultsWith (if w.extractLsb' 4 28 ≠ 0#28 then 0x25 else 0x15) s (exec (decodeCommand w) s) := by
  rw [decodeCommand_reserved h, exec_reservedOp, ← reservedCause_code]
  exact raise_faultsWith _ s

/-- Settles O31: the accepted write leaves the block at the start of the command that `w` decodes to. -/
theorem commandDecodeOrder : Obligations.CommandDecodeOrder := by
  unfold Obligations.CommandDecodeOrder
  intro w s rest hturns
  refine ⟨fun hrun => by rw [step_writeCmd hturns, if_pos hrun], fun hrun => ?_⟩
  obtain ⟨t, ht⟩ : ∃ t, t = acceptCommand w { s with turns := rest } := ⟨_, rfl⟩
  have hmove : blockMove t = exec (decodeCommand w) t := by
    rw [ht]
    exact blockMove_of_start rfl rfl
  obtain ⟨u, hu, hend⟩ := exec_command_phase w t
  refine ⟨t, u, by rw [step_writeCmd hturns, if_neg hrun, ht], ht, hmove.trans hu, hend, ?_⟩
  rw [hmove]
  refine ⟨fun hbits => ?_, fun hbits hop => ?_, fun hbits hop hlen => ?_, fun hbits hop => ?_, fun hbits hop => ?_,
    fun hbits hop => ?_, fun hbits hop => ?_⟩
  · have := exec_reserved_faultsWith t (.inl hbits)
    rwa [if_pos hbits] at this
  · have := exec_reserved_faultsWith t (.inr hop)
    rwa [if_neg (not_not.2 hbits)] at this
  · rw [exec_ilenRange hbits hop (by rw [ht]; exact hlen)]
    exact raise_faultsWith .ilenRange t
  · exact decodeCommand_compress hbits hop ▸ hu
  · exact decodeCommand_decompress hbits hop ▸ hu
  · exact decodeCommand_verify hbits hop ▸ hu
  · exact decodeCommand_resolve hbits hop ▸ hu

end Machine

end Sys2Proof
end

section
/-! PROOFS. The codes and the tokens over any source of flag bits: what `GETVLC` and a token's reading take from the source
is exactly the code of what they yield (30_encoding R98 to R100), and so decoding and encoding are inverses. -/

namespace Sys2Proof

/-! ### What a source gives -/

/-- The source at `s` gives the bits one after the other, and stands at `s'` then. -/
def Gives {σ : Type} (bit : σ → Except Reject (Bool × σ)) : σ → List Bool → σ → Prop
  | s, [], s' => s = s'
  | s, b :: bits, s' => ∃ s₁, bit s = .ok (b, s₁) ∧ Gives bit s₁ bits s'

section Source
variable {σ : Type} {bit : σ → Except Reject (Bool × σ)} {byte : σ → Except Reject (Byte × σ)} {fuel n v : Nat}
  {s s₁ s' : σ} {t : Token}

theorem gives_append_iff {x y : List Bool} :
    Gives bit s (x ++ y) s' ↔ ∃ s₁, Gives bit s x s₁ ∧ Gives bit s₁ y s' := by
  induction x generalizing s with
  | nil => simp [Gives]
  | cons b x ih =>
    simp only [List.cons_append, Gives, ih]
    constructor
    · rintro ⟨s₁, h₁, s₂, h₂, h₃⟩
      exact ⟨s₂, ⟨s₁, h₁, h₂⟩, h₃⟩
    · rintro ⟨s₂, ⟨s₁, h₁, h₂⟩, h₃⟩
      exact ⟨s₁, h₁, s₂, h₂, h₃⟩

/-! ### The variable-length code (30_encoding R99, 40_bitchannel R127) -/

/-- A further digit of `v` doubles what has been read and adds the digit. -/
theorem div_two_pow_eq (v n : Nat) : 2 * (v / 2 ^ (n + 1)) + (v.testBit n).toNat = v / 2 ^ n := by
  rw [Nat.toNat_testBit, pow_succ, ← Nat.div_div_eq_div_mul]
  omega

/-- The digit last read, and what had been read before it. -/
theorem digit_of_div_two_pow_eq {v n w : Nat} {d : Bool} (h : v / 2 ^ n = 2 * w + d.toNat) :
    v / 2 ^ (n + 1) = w ∧ v.testBit n = d := by
  rw [← div_two_pow_eq] at h
  have h₁ := Bool.toNat_le (v.testBit n)
  have h₂ := Bool.toNat_le d
  refine ⟨by omega, ?_⟩
  rw [Bool.eq_iff_iff, ← Bool.toNat_eq_one, ← Bool.toNat_eq_one]
  omega

/-- `GETVLC` that has read all but the `n` lowest digits reads those from the source. -/
theorem readVlc_of_digits (hn : 0 < n) (hfuel : n ≤ fuel) (h : Gives bit s (vlcDigits v n) s') :
    readVlc bit fuel (v / 2 ^ n) s = .ok (v, s') := by
  induction n generalizing fuel s with
  | zero => omega
  | succ n ih =>
    obtain ⟨fuel, rfl⟩ : ∃ f, fuel = f + 1 := ⟨fuel - 1, by omega⟩
    obtain ⟨s₁, h₁, s₂, h₂, h⟩ := h
    refine readVlc_ok_iff.2 ⟨_, s₁, _, s₂, h₁, h₂, ?_⟩
    rw [div_two_pow_eq]
    rcases Nat.eq_zero_or_pos n with rfl | hpos
    · obtain rfl : s₂ = s' := h
      exact .inl ⟨rfl, by simp⟩
    · exact .inr ⟨decide_eq_true hpos, ih hpos (by omega) h⟩

/-- `GETVLC` reads digits of its answer: those below what it had read before. -/
theorem digits_of_readVlc {w : Nat} (h : readVlc bit fuel w s = .ok (v, s')) :
    ∃ n, 0 < n ∧ v / 2 ^ n = w ∧ Gives bit s (vlcDigits v n) s' := by
  induction fuel generalizing w s with
  | zero => cases h
  | succ fuel ih =>
    obtain ⟨d, s₁, c, s₂, h₁, h₂, ⟨rfl, h⟩ | ⟨rfl, h⟩⟩ := readVlc_ok_iff.1 h
    · obtain ⟨rfl, rfl⟩ := Prod.mk.inj h
      obtain ⟨hw, hd⟩ := digit_of_div_two_pow_eq (v := 2 * w + d.toNat) (n := 0) (Nat.div_one _)
      exact ⟨1, Nat.one_pos, hw, s₁, by rw [hd]; exact h₁, s', h₂, rfl⟩
    · obtain ⟨n, hn, hrest, h⟩ := ih h
      obtain ⟨hw, hd⟩ := digit_of_div_two_pow_eq hrest
      exact ⟨n + 1, Nat.succ_pos n, hw, s₁, by rw [hd]; exact h₁, s₂, by rw [decide_eq_true hn]; exact h₂, h⟩

theorem log2_eq_of_div_two_pow_eq_one (h : v / 2 ^ n = 1) : Nat.log2 v = n := by
  have hpow : 0 < 2 ^ n := Nat.two_pow_pos n
  have hv : v ≠ 0 := by rintro rfl; simp at h
  rw [Nat.log2_eq_iff hv, pow_succ]
  rw [Nat.div_eq_iff hpow] at h
  omega

theorem div_two_pow_log2 (hv : 2 ≤ v) : v / 2 ^ Nat.log2 v = 1 := by
  have hpow : 0 < 2 ^ Nat.log2 v := Nat.two_pow_pos _
  obtain ⟨h₁, h₂⟩ := (Nat.log2_eq_iff (by omega)).1 (rfl : Nat.log2 v = Nat.log2 v)
  rw [pow_succ] at h₂
  rw [Nat.div_eq_iff hpow]
  omega

theorem log2_pos (hv : 2 ≤ v) : 0 < Nat.log2 v := (Nat.le_log2 (by omega)).2 hv

/-- `GETVLC` on VLC(v) yields `v`. -/
theorem readVlc_of_code (hv : 2 ≤ v) (hfuel : (vlcBits v hv).length ≤ fuel) (h : Gives bit s (vlcBits v hv) s') :
    readVlc bit fuel 1 s = .ok (v, s') := by
  rw [vlcBits_length] at hfuel
  have := readVlc_of_digits (fuel := fuel) (log2_pos hv) (by omega) h
  rwa [div_two_pow_log2 hv] at this

/-- What `GETVLC` has read is VLC of its answer. -/
theorem code_of_readVlc (h : readVlc bit fuel 1 s = .ok (v, s')) : ∃ hv : 2 ≤ v, Gives bit s (vlcBits v hv) s' := by
  obtain ⟨n, -, hlog, hbits⟩ := digits_of_readVlc h
  refine ⟨readVlc_ge (le_refl 1) h, ?_⟩
  rwa [vlcBits, log2_eq_of_div_two_pow_eq_one hlog]

/-! ### The tokens (30_encoding R98, R100) -/

theorem copy_wf_iff {mlen dist : Nat} :
    (Token.copy mlen dist).toInstr.wf = true ↔ minMatch ≤ mlen ∧ 1 ≤ dist := by
  simp [Token.toInstr, Instr.wf]

/-- Operand assembly undoes the split of a match into its codes and its byte. -/
theorem copyToken_of_wf {mlen dist : Nat} (h : minMatch ≤ mlen ∧ 1 ≤ dist) :
    copyToken (mlen - 2) ((dist - 1) / 256 + 2) (matchByte dist) = .copy mlen dist := by
  unfold minMatch at h
  have hlow : (matchByte dist).toNat = (dist - 1) % 256 := by simp [matchByte]
  rw [copyToken, hlow]
  congr 1 <;> omega

/-- The codes and the byte of an assembled match are those it was assembled from. -/
theorem copyToken_fields {v₁ v₂ mlen dist : Nat} {low : Byte} (h₁ : 2 ≤ v₁) (h₂ : 2 ≤ v₂)
    (h : copyToken v₁ v₂ low = .copy mlen dist) :
    (minMatch ≤ mlen ∧ 1 ≤ dist) ∧ mlen - 2 = v₁ ∧ (dist - 1) / 256 + 2 = v₂ ∧ matchByte dist = low := by
  obtain ⟨rfl, rfl⟩ := Token.copy.inj h
  have hlow : low.toNat < 256 := low.isLt
  have hbyte : ((v₂ - 2) * 256 + low.toNat + 1 - 1) % 256 = low.toNat := by omega
  unfold minMatch
  refine ⟨by omega, by omega, by omega, ?_⟩
  rw [matchByte, hbyte, BitVec.ofNat_toNat, BitVec.setWidth_eq]

/-- A source that gives a token's flag bits and then its byte reads as the token. -/
theorem readToken_of_code (hwf : t.toInstr.wf = true) (hfuel : t.flags.length ≤ fuel) (h : Gives bit s t.flags s₁)
    (hbyte : byte s₁ = .ok (t.byte, s')) : readToken bit byte fuel s = .ok (t, s') := by
  rw [readToken_ok_iff]
  cases t with
  | lit b =>
    obtain ⟨_, h, rfl⟩ := h
    exact .inl ⟨_, b, s', h, hbyte, rfl⟩
  | copy mlen dist =>
    have hmin := copy_wf_iff.1 hwf
    rw [Token.flags_of_wf hmin, matchFlags] at h hfuel
    rw [Token.byte_of_wf hmin] at hbyte
    rw [List.length_cons, List.length_append] at hfuel
    obtain ⟨s₂, hflag, h⟩ := h
    obtain ⟨s₃, hlen, hdist⟩ := gives_append_iff.1 h
    exact .inr ⟨s₂, _, s₃, _, s₁, _, s', hflag, readVlc_of_code _ (by omega) hlen, readVlc_of_code _ (by omega) hdist,
      hbyte, by rw [copyToken_of_wf hmin]⟩

/-- What the reading of a token has taken is the token's flag bits, and then its byte. -/
theorem code_of_readToken (h : readToken bit byte fuel s = .ok (t, s')) :
    ∃ s₁, Gives bit s t.flags s₁ ∧ byte s₁ = .ok (t.byte, s') := by
  rcases readToken_ok_iff.1 h with ⟨s₁, b, _, h₁, h₂, heq⟩ | ⟨s₁, v₁, s₂, v₂, s₃, low, _, hf, h₁, h₂, hb, heq⟩
  · obtain ⟨rfl, rfl⟩ := Prod.mk.inj heq
    exact ⟨s₁, ⟨s₁, h₁, rfl⟩, h₂⟩
  · obtain ⟨rfl, rfl⟩ := Prod.mk.inj heq
    obtain ⟨hv₁, hlen⟩ := code_of_readVlc h₁
    obtain ⟨hv₂, hdist⟩ := code_of_readVlc h₂
    obtain ⟨hmin, hmlen, hhigh, hlow⟩ := copyToken_fields hv₁ hv₂ (low := low) rfl
    refine ⟨s₃, ?_, ?_⟩
    · rw [copyToken, Token.flags_of_wf hmin, matchFlags]
      simp only [hmlen, hhigh]
      exact ⟨s₁, hf, gives_append_iff.2 ⟨s₂, hlen, hdist⟩⟩
    · rw [copyToken, Token.byte_of_wf hmin, hlow]
      exact hb

end Source

/-! ### A token given by itself -/

theorem gives_listBit_iff {bits x : List Bool} {bytes : List Byte} {s' : List Bool × List Byte} :
    Gives listBit (bits, bytes) x s' ↔ bits = x ++ s'.1 ∧ bytes = s'.2 := by
  induction x generalizing bits with
  | nil => simp [Gives, Prod.ext_iff]
  | cons b x ih =>
    cases bits with
    | nil => simp [Gives, listBit]
    | cons c bits =>
      simp only [Gives, listBit, Except.ok.injEq, Prod.mk.injEq, List.cons_append, List.cons.injEq]
      constructor
      · rintro ⟨_, ⟨rfl, rfl⟩, h⟩
        obtain ⟨h₁, h₂⟩ := ih.1 h
        exact ⟨⟨rfl, h₁⟩, h₂⟩
      · rintro ⟨⟨rfl, h₁⟩, h₂⟩
        exact ⟨_, ⟨rfl, rfl⟩, ih.2 ⟨h₁, h₂⟩⟩

/-- VLC(v) by its digits and continuation flags. -/
theorem vlcDigits_getElem? (v : Nat) {n j : Nat} (hj : j < n) :
    (vlcDigits v n)[2 * j]? = some (v.testBit (n - 1 - j)) ∧
      (vlcDigits v n)[2 * j + 1]? = some (decide (j + 1 < n)) := by
  induction n generalizing j with
  | zero => omega
  | succ n ih =>
    cases j with
    | zero => simp [vlcDigits]
    | succ j =>
      obtain ⟨hdigit, hflag⟩ := ih (j := j) (by omega)
      simp only [vlcDigits, Nat.mul_add, Nat.mul_one, List.getElem?_cons_succ]
      rw [hdigit, hflag, show n - 1 - j = n + 1 - 1 - (j + 1) by omega]
      simp

/-- Settles O6: the digits by recursion on their number; and of a code that begins with another, `GETVLC` yields both
values. -/
theorem vlcDigitsAndPrefixFree : Obligations.VlcDigitsAndPrefixFree := by
  unfold Obligations.VlcDigitsAndPrefixFree
  refine ⟨fun v hv => ⟨vlcBits_length v hv, fun j hj => vlcDigits_getElem? v hj⟩, fun v w hv hw hpre => ?_⟩
  obtain ⟨rest, hrest⟩ := hpre
  have hlen : (vlcBits v hv).length ≤ (vlcBits w hw).length := by rw [← hrest, List.length_append]; omega
  have hv' := readVlc_of_code hv hlen (gives_listBit_iff (bytes := []) (s' := (rest, [])).2 ⟨hrest.symm, rfl⟩)
  have hw' := readVlc_of_code hw (le_refl _)
    (gives_listBit_iff (bytes := []) (s' := ([], [])).2 ⟨(List.append_nil _).symm, rfl⟩)
  rw [hv'] at hw'
  exact (Prod.mk.inj (Except.ok.inj hw')).1

/-- A token's encoding decodes to it, and nothing else does. -/
theorem decode_token_ok_iff {flags : List Bool} {byte : Byte} {i : Instr} :
    decode (.token flags byte) = .ok i ↔
      ∃ t : Token, t.toInstr.wf = true ∧ i = t.toInstr ∧ flags = t.flags ∧ byte = t.byte := by
  constructor
  · intro h
    rcases hd : decodeToken flags [byte] with e | ⟨t, rest, bytes⟩
    · simp [decode, hd] at h
    · cases rest with
      | cons b rest => simp [decode, hd] at h
      | nil =>
        obtain ⟨s₁, hbits, hbyte⟩ := code_of_readToken hd
        obtain ⟨hflags, hbytes⟩ := gives_listBit_iff.1 hbits
        simp only [listByte, ← hbytes, Except.ok.injEq, Prod.mk.injEq] at hbyte
        obtain ⟨rfl, hnil, -⟩ := hbyte
        rw [hnil, List.append_nil] at hflags
        exact ⟨t, readToken_wf hd, by simpa [decode, hd, eq_comm] using h, hflags, rfl⟩
  · rintro ⟨t, hwf, rfl, rfl, rfl⟩
    have hd : decodeToken t.flags [t.byte] = .ok (t, ([], [])) :=
      readToken_of_code hwf (le_refl _) (gives_listBit_iff (s' := ([], [t.byte])).2 ⟨(List.append_nil _).symm, rfl⟩) rfl
    simp [decode, hd]

theorem encode_toInstr (t : Token) : encode t.toInstr = .token t.flags t.byte := by
  cases t <;> rfl

/-! ### A command word (30_encoding R91) -/

theorem commandWord_leOf {w : Word} {op : BitVec 3} (h : w &&& cmdMask = op.zeroExtend 32) :
    commandWord op (leOf w) = w := by
  rw [commandWord, ← h, and_cmdMask_or_le]

theorem encode_decodeCommand (w : Word) : encode (decodeCommand w) = .word w := by
  unfold decodeCommand
  split_ifs with h₁ h₂ h₃ h₄
  · exact congrArg Code.word (commandWord_leOf h₁)
  · exact congrArg Code.word (commandWord_leOf h₂)
  · exact congrArg Code.word (commandWord_leOf h₃)
  · exact congrArg Code.word (commandWord_leOf h₄)
  · rfl

theorem decodeCommand_wf (w : Word) : (decodeCommand w).wf = true := by
  rcases fields_cases w with h | ⟨hbits, hop | hop | hop | hop⟩
  · rw [decodeCommand_reserved h]
    exact reservedOp_wf_iff.2 h
  · rw [decodeCommand_compress hbits hop]
    rfl
  · rw [decodeCommand_decompress hbits hop]
    rfl
  · rw [decodeCommand_verify hbits hop]
    rfl
  · rw [decodeCommand_resolve hbits hop]
    rfl

/-- Settles O3: a command's word decodes by its fields, a token's code by what the source of its bits gives. -/
theorem decodeInvertsEncode : Obligations.DecodeInvertsEncode := by
  unfold Obligations.DecodeInvertsEncode
  intro i hwf
  cases i with
  | compress le => cases le <;> rfl
  | decompress le => cases le <;> rfl
  | verify le => cases le <;> rfl
  | resolve le => cases le <;> rfl
  | reservedOp w => exact congrArg Except.ok (decodeCommand_reserved (reservedOp_wf_iff.1 hwf))
  | lit b => exact decode_token_ok_iff.2 ⟨.lit b, hwf, rfl, rfl, rfl⟩
  | matchTok mlen dist => exact decode_token_ok_iff.2 ⟨.copy mlen dist, hwf, rfl, rfl, rfl⟩

/-- Settles O4: what has been decoded is, bit for bit, the encoding of the answer. -/
theorem encodeInvertsDecode : Obligations.EncodeInvertsDecode := by
  unfold Obligations.EncodeInvertsDecode
  intro c i h
  cases c with
  | word w =>
    obtain rfl : decodeCommand w = i := Except.ok.inj h
    exact ⟨encode_decodeCommand w, decodeCommand_wf w⟩
  | token flags byte =>
    obtain ⟨t, hwf, rfl, rfl, rfl⟩ := decode_token_ok_iff.1 h
    exact ⟨encode_toInstr t, hwf⟩

end Sys2Proof
end

section
/-! PROOFS. The writer: where a flag word's bits stand (30_encoding R96; 20_memory R62), and where its cursors stand after a
number of flag bits and bytes, so that a token list's CLEN decides whether it fits (20_memory R65; 42_compress R162). -/

namespace Sys2Proof.Machine

/-! ### The flag word in the bytes (20_memory R62) -/

/-- The flag word at an address of a byte string. -/
def flagWordAt (le : Bool) (byte : Nat → Byte) (a : Nat) : Half := halfOf le (byte a) (byte (a + 1))

theorem halfOf_getLsbD (le : Bool) (b₀ b₁ : Byte) (j : Nat) :
    (halfOf le b₀ b₁).getLsbD j =
      if j < 8 then (if le then b₀ else b₁).getLsbD j else (if le then b₁ else b₀).getLsbD (j - 8) := by
  cases le
  · exact BitVec.getLsbD_append
  · exact BitVec.getLsbD_append

/-- Flag bit `i` in stream order is bit `15 - i` of the word. -/
theorem flagBitAt_eq (le : Bool) (byte : Nat → Byte) (a : Nat) {i : Nat} (hi : i < 16) :
    flagBitAt le byte a i = (flagWordAt le byte a).getLsbD (15 - i) := by
  rw [flagBitAt, flagWordAt, halfOf_getLsbD]
  rcases Nat.lt_or_ge i 8 with h | h
  · rw [if_neg (show ¬15 - i < 8 by omega), show i / 8 = 0 by omega, show 7 - i % 8 = 15 - i - 8 by omega]
    cases le <;> rfl
  · rw [if_pos (show 15 - i < 8 by omega), show i / 8 = 1 by omega, show 7 - i % 8 = 15 - i by omega]
    cases le <;> rfl

/-- A flag word written and read back. -/
theorem flagWordAt_putHalfAt {le : Bool} {a : Nat} {h : Half} {o o' : Out} (hok : putHalfAt le a h o = .ok o') :
    flagWordAt le (memRead o'.obuf) a = h := by
  rw [flagWordAt, memRead_putHalfAt_fst hok, memRead_putHalfAt_snd hok, halfOf_halfBytes]

/-! ### The accumulator (40_bitchannel R121) -/

theorem shiftIn_wacc (b : Bool) (w : BitWriter) {j : Nat} (hj : j < 16) :
    (shiftIn b w).wacc.getLsbD j = if j = 0 then b else w.wacc.getLsbD (j - 1) := by
  cases j with
  | zero => cases b <;> simp [shiftIn]
  | succ j =>
    have hlt : j < 16 := by omega
    cases b <;> simp [shiftIn, hj, BitVec.getLsbD_eq_getElem hlt]

/-- The bits appended one after the other. -/
def shiftInAll (bits : List Bool) (w : BitWriter) : BitWriter := bits.foldl (fun w b => shiftIn b w) w

section ShiftInAll
variable (bits : List Bool) (w : BitWriter)

@[simp] theorem shiftInAll_wcnt : (shiftInAll bits w).wcnt = w.wcnt - bits.length := by
  induction bits generalizing w with
  | nil => rfl
  | cons b bits ih =>
    change (shiftInAll bits (shiftIn b w)).wcnt = _
    rw [ih, shiftIn, List.length_cons, Nat.sub_sub, Nat.add_comm]

@[simp] theorem shiftInAll_rsv : (shiftInAll bits w).rsv = w.rsv := by
  induction bits generalizing w with
  | nil => rfl
  | cons b bits ih => exact ih (shiftIn b w)

@[simp] theorem shiftInAll_wp : (shiftInAll bits w).wp = w.wp := by
  induction bits generalizing w with
  | nil => rfl
  | cons b bits ih => exact ih (shiftIn b w)

/-- The bit appended last is the lowest. -/
theorem shiftInAll_wacc {i : Nat} (hi : i < bits.length) (hlen : bits.length ≤ 16) :
    (shiftInAll bits w).wacc.getLsbD (bits.length - 1 - i) = bits.getD i false := by
  induction bits using List.reverseRecOn generalizing i with
  | nil => simp at hi
  | append_singleton bits b ih =>
    rw [List.length_append, List.length_singleton] at hi hlen ⊢
    have hlast : shiftInAll (bits ++ [b]) w = shiftIn b (shiftInAll bits w) := by simp [shiftInAll]
    rw [hlast, shiftIn_wacc _ _ (by omega)]
    rcases Nat.lt_succ_iff_lt_or_eq.1 hi with h | rfl
    · rw [if_neg (by omega), show bits.length + 1 - 1 - i - 1 = bits.length - 1 - i by omega, ih h (by omega)]
      simp [List.getElem?_append_left h]
    · simp

end ShiftInAll

/-- Bits for which the word has room are appended, and nothing is written. -/
theorem putBits_of_room {le : Bool} {bits : List Bool} {o : Out} (h : bits.length ≤ o.bw.wcnt) :
    putBits le bits o = .ok { o with bw := shiftInAll bits o.bw } := by
  induction bits generalizing o with
  | nil => rfl
  | cons b bits ih =>
    rw [List.length_cons] at h
    rw [putBits_cons, putBit_of_room (by omega)]
    exact ih (o := { o with bw := shiftIn b o.bw }) (by simp only [shiftIn]; omega)

/-- Settles O8: sixteen bits stand in the accumulator, which is written whole when the next bit arrives, and shifted to the
high end by `FINALIZE`. -/
theorem flagWordsHoldTheirBits : Obligations.FlagWordsHoldTheirBits := by
  unfold Obligations.FlagWordsHoldTheirBits
  constructor
  · intro le b bits o o₁ o₂ hlen hwcnt h₁ h₂
    rw [putBits_of_room (by omega)] at h₁
    obtain rfl := Except.ok.inj h₁
    have hfull : (shiftInAll bits o.bw).wcnt = 0 := by rw [shiftInAll_wcnt]; omega
    obtain ⟨hlt, rfl⟩ := (putBit_of_full hfull).1 h₂
    refine ⟨rfl, hfull, shiftInAll_wp _ _, shiftInAll_rsv _ _, rfl, shiftInAll_wp _ _,
      by simp [shiftIn, reserve], fun i hi => ?_⟩
    have hword := flagWordAt_putHalfAt (putHalfAt_ok_iff.2 ⟨hlt, rfl⟩ :
      putHalfAt le _ (shiftInAll bits o.bw).wacc { o with bw := shiftInAll bits o.bw } = .ok _)
    have hbit := shiftInAll_wacc bits o.bw (i := i) (by omega) (by omega)
    simp only [shiftInAll_rsv] at hword ⊢
    rw [flagBitAt_eq le _ _ hi, hword, show 15 - i = bits.length - 1 - i by omega, hbit]
    simp [show i < bits.length by omega]
  · intro le bits o o₁ o₂ hlen hwcnt h₁ h₂ i hi
    rw [putBits_of_room (by omega)] at h₁
    obtain rfl := Except.ok.inj h₁
    have hword := flagWordAt_putHalfAt h₂
    simp only [shiftInAll_rsv, shiftInAll_wcnt] at hword
    rw [flagBitAt_eq le _ _ hi, hword, BitVec.getLsbD_shiftLeft, decide_eq_true (show 15 - i < 16 by omega)]
    rcases Nat.lt_or_ge i bits.length with h | h
    · rw [show 15 - i - (o.bw.wcnt - bits.length) = bits.length - 1 - i by omega, shiftInAll_wacc bits o.bw h hlen,
        decide_eq_false (show ¬15 - i < o.bw.wcnt - bits.length by omega)]
      rfl
    · rw [List.getD_eq_default _ _ h, decide_eq_true (show 15 - i < o.bw.wcnt - bits.length by omega)]
      rfl

/-! ### The writer's cursors (42_compress R162) -/

/-- The writer's registers are in order, whatever `OBUF` holds. -/
abbrev WriterOk (o : Out) : Prop := OutOk (fun _ => True) o

theorem anyMem_writesKeep : WritesKeep compCap fun _ => True := fun _ _ _ _ _ => trivial

/-- What an operation leaves, where it succeeds. -/
theorem leftBy_of_ok {α : Type} {P : α → Prop} {x : Except α α} {a : α} (h : P (leftBy x)) (hx : x = .ok a) : P a := by
  rwa [hx] at h

section WriterOk
variable {le b : Bool} {v : Byte} {bits : List Bool} {t : Token} {o o' : Out} (hok : WriterOk o)
include hok

theorem putBit_ok (h : putBit le b o = .ok o') : WriterOk o' :=
  leftBy_of_ok (putBit_keeps anyMem_writesKeep le b hok) h

theorem putBits_ok (h : putBits le bits o = .ok o') : WriterOk o' :=
  leftBy_of_ok (putBits_keeps anyMem_writesKeep le bits hok) h

theorem appendByte_ok (h : appendByte v o = .ok o') : WriterOk o' :=
  leftBy_of_ok (appendByte_keeps anyMem_writesKeep v hok) h

theorem emitToken_ok (h : emitToken le t o = .ok o') : WriterOk o' :=
  leftBy_of_ok (emitToken_keeps anyMem_writesKeep le t hok) h

end WriterOk

/-- The flag words reserved once `flags` bits have been put: one at the start, and one for each bit that finds the last
full. -/
def flagWords (flags : Nat) : Nat := max 1 ((flags + 15) / 16)

/-- Where `WP` stands after so many flag bits and bytes: CLEN, if the stream ends there. -/
def lenAt (flags bytes : Nat) : Nat := 5 + 2 * flagWords flags + bytes

theorem streamLen_eq (tokens : List Token) : streamLen tokens = lenAt (flagCount tokens) tokens.length := rfl

theorem lenAt_mono {f f' b b' : Nat} (hf : f ≤ f') (hb : b ≤ b') : lenAt f b ≤ lenAt f' b' := by
  unfold lenAt flagWords
  omega

/-- A bit that finds the last word full needs one more. -/
theorem flagWords_of_full {c f : Nat} (h0 : c = 0) (h : c + f = 16 * flagWords f) :
    flagWords (f + 1) = flagWords f + 1 := by
  unfold flagWords at *
  omega

theorem flagWords_of_room {c f : Nat} (h0 : c ≠ 0) (h : c + f = 16 * flagWords f) :
    flagWords (f + 1) = flagWords f := by
  unfold flagWords at *
  omega

/-- A writer that has put `flags` bits and `bytes` bytes since `BW_INIT`. -/
structure WriterAt (flags bytes : Nat) (o : Out) : Prop where
  ok : WriterOk o
  wp : o.bw.wp = lenAt flags bytes
  wcnt : o.bw.wcnt + flags = 16 * flagWords flags

theorem header_writerAt (le : Bool) (n : Nat) (first : Byte) (obuf : Mem) : WriterAt 0 0 (header le n first obuf) :=
  ⟨header_outOk anyMem_writesKeep le n first trivial, rfl, rfl⟩

section WriterAt
variable {le b : Bool} {v : Byte} {bits : List Bool} {t : Token} {tokens : List Token} {f y n : Nat} {first : Byte}
  {o o' : Out} {obuf : Mem}

theorem putBit_writerAt (h : WriterAt f y o) (hok : putBit le b o = .ok o') : WriterAt (f + 1) y o' := by
  have hkeeps := putBit_ok h.ok hok
  have hwp := h.wp
  have hwcnt := h.wcnt
  by_cases h0 : o.bw.wcnt = 0
  · have hnext := flagWords_of_full h0 hwcnt
    obtain ⟨-, rfl⟩ := (putBit_of_full h0).1 hok
    exact ⟨hkeeps, by simp only [shiftIn, reserve, lenAt] at *; omega, by simp only [shiftIn, reserve]; omega⟩
  · have hsame := flagWords_of_room h0 hwcnt
    rw [putBit_of_room h0] at hok
    obtain rfl := Except.ok.inj hok
    exact ⟨hkeeps, by rw [lenAt, hsame]; exact hwp, by simp only [shiftIn]; omega⟩

theorem putBits_writerAt (h : WriterAt f y o) (hok : putBits le bits o = .ok o') : WriterAt (f + bits.length) y o' := by
  induction bits generalizing f o with
  | nil => exact Except.ok.inj hok ▸ h
  | cons b bits ih =>
    obtain ⟨o₁, h₁, hok⟩ := bind_ok_iff.1 hok
    rw [List.length_cons, show f + (bits.length + 1) = f + 1 + bits.length by omega]
    exact ih (putBit_writerAt h h₁) hok

theorem appendByte_writerAt (h : WriterAt f y o) (hok : appendByte v o = .ok o') : WriterAt f (y + 1) o' := by
  have hkeeps := appendByte_ok h.ok hok
  obtain ⟨-, rfl⟩ := appendByte_ok_iff.1 hok
  exact ⟨hkeeps, congrArg (· + 1) h.wp, h.wcnt⟩

theorem emitToken_writerAt (h : WriterAt f y o) (hok : emitToken le t o = .ok o') :
    WriterAt (f + t.flags.length) (y + 1) o' := by
  rw [emitToken_eq] at hok
  obtain ⟨o₁, h₁, hok⟩ := bind_ok_iff.1 hok
  exact appendByte_writerAt (putBits_writerAt h h₁) hok

theorem emitTokens_writerAt (h : WriterAt f y o) (hok : emitTokens le tokens o = .ok o') :
    WriterAt (f + flagCount tokens) (y + tokens.length) o' := by
  induction tokens generalizing f y o with
  | nil => exact Except.ok.inj hok ▸ h
  | cons t ts ih =>
    obtain ⟨o₁, h₁, hok⟩ := bind_ok_iff.1 hok
    rw [flagCount_cons, List.length_cons, ← Nat.add_assoc, Nat.add_comm ts.length 1, ← Nat.add_assoc]
    exact ih (emitToken_writerAt h h₁) hok

/-! ### What fits is written -/

theorem putBit_fits (h : WriterAt f y o) (hcap : lenAt f y ≤ compCap) : ∃ o', putBit le b o = .ok o' := by
  by_cases h0 : o.bw.wcnt = 0
  · have hwp := h.wp
    have hrsv := h.ok.reserved
    exact ⟨_, (putBit_of_full h0).2 ⟨by omega, rfl⟩⟩
  · exact ⟨_, putBit_of_room h0⟩

theorem putBits_fits (h : WriterAt f y o) (hcap : lenAt (f + bits.length) y ≤ compCap) :
    ∃ o', putBits le bits o = .ok o' := by
  induction bits generalizing f o with
  | nil => exact ⟨o, rfl⟩
  | cons b bits ih =>
    rw [List.length_cons] at hcap
    obtain ⟨o₁, h₁⟩ := putBit_fits (le := le) (b := b) h ((lenAt_mono (by omega) (le_refl y)).trans hcap)
    obtain ⟨o', h₂⟩ := ih (putBit_writerAt h h₁) (by rwa [Nat.add_right_comm, Nat.add_assoc])
    exact ⟨o', bind_ok_iff.2 ⟨o₁, h₁, h₂⟩⟩

theorem emitToken_fits (h : WriterAt f y o) (hcap : lenAt (f + t.flags.length) (y + 1) ≤ compCap) :
    ∃ o', emitToken le t o = .ok o' := by
  obtain ⟨o₁, h₁⟩ := putBits_fits (le := le) (bits := t.flags) h ((lenAt_mono (le_refl _) (Nat.le_succ y)).trans hcap)
  have hwp : o₁.bw.wp < compCap := by
    rw [(putBits_writerAt h h₁).wp]
    exact hcap
  rw [emitToken_eq]
  exact ⟨_, bind_ok_iff.2 ⟨o₁, h₁, appendByte_ok_iff.2 ⟨hwp, rfl⟩⟩⟩

theorem emitTokens_fits (h : WriterAt f y o) (hcap : lenAt (f + flagCount tokens) (y + tokens.length) ≤ compCap) :
    ∃ o', emitTokens le tokens o = .ok o' := by
  induction tokens generalizing f y o with
  | nil => exact ⟨o, rfl⟩
  | cons t ts ih =>
    rw [flagCount_cons, List.length_cons] at hcap
    obtain ⟨o₁, h₁⟩ := emitToken_fits (le := le) (t := t) h ((lenAt_mono (by omega) (by omega)).trans hcap)
    obtain ⟨o', h₂⟩ := ih (emitToken_writerAt h h₁) ((lenAt_mono (by omega) (by omega)).trans hcap)
    exact ⟨o', bind_ok_iff.2 ⟨o₁, h₁, h₂⟩⟩

/-! ### The filler (42_compress R161) -/

theorem le_padded (n : Nat) : n ≤ padded n := by
  unfold padded padBlock
  omega

/-- The capacity is a multiple of the granule, so what fits still fits with its filler. -/
theorem padded_le_compCap (h : n ≤ compCap) : padded n ≤ compCap := by
  unfold compCap at *
  unfold padded padBlock
  omega

theorem padFrom_fits {a count : Nat} (hcap : a + count ≤ compCap) : ∃ o', padFrom a count o = .ok o' := by
  induction count generalizing a o with
  | zero => exact ⟨o, rfl⟩
  | succ count ih =>
    obtain ⟨o', h⟩ := ih (a := a + 1) (o := { o with obuf := memWrite o.obuf a fill }) (by omega)
    exact ⟨o', bind_ok_iff.2 ⟨_, putByteAt_ok_iff.2 ⟨by omega, rfl⟩, h⟩⟩

/-- The filler leaves the registers and the bytes before it alone. -/
theorem padFrom_frame {a count : Nat} (hok : padFrom a count o = .ok o') :
    o'.bw = o.bw ∧ ∀ x, x < a → memRead o'.obuf x = memRead o.obuf x := by
  induction count generalizing a o with
  | zero => exact Except.ok.inj hok ▸ ⟨rfl, fun _ _ => rfl⟩
  | succ count ih =>
    obtain ⟨o₁, h₁, hok⟩ := bind_ok_iff.1 hok
    obtain ⟨-, rfl⟩ := putByteAt_ok_iff.1 h₁
    obtain ⟨hbw, hmem⟩ := ih hok
    exact ⟨hbw, fun x hx => (hmem x (by omega)).trans (memRead_memWrite_other o.obuf fill (Nat.ne_of_lt hx))⟩

theorem finishOut_ok_iff :
    finishOut le o = .ok o' ↔
      ∃ o₁, finalize le o = .ok o₁ ∧ padFrom o₁.bw.wp (padded o₁.bw.wp - o₁.bw.wp) o₁ = .ok o' :=
  bind_ok_iff

theorem finalize_bw (hok : finalize le o = .ok o') : o'.bw = o.bw := by
  obtain ⟨-, rfl⟩ := putHalfAt_ok_iff.1 hok
  rfl

theorem finishOut_bw (hok : finishOut le o = .ok o') : o'.bw = o.bw := by
  obtain ⟨o₁, h₁, h₂⟩ := finishOut_ok_iff.1 hok
  rw [(padFrom_frame h₂).1, finalize_bw h₁]

theorem finishOut_fits (h : WriterOk o) (hcap : o.bw.wp ≤ compCap) : ∃ o', finishOut le o = .ok o' := by
  have hrsv := h.reserved
  obtain ⟨o₁, h₁⟩ : ∃ o₁, finalize le o = .ok o₁ := ⟨_, putHalfAt_ok_iff.2 ⟨by omega, rfl⟩⟩
  have hpad := padded_le_compCap hcap
  have hle := le_padded o.bw.wp
  obtain ⟨o', h₂⟩ := padFrom_fits (o := o₁) (a := o₁.bw.wp) (count := padded o₁.bw.wp - o₁.bw.wp)
    (by rw [finalize_bw h₁]; omega)
  exact ⟨o', finishOut_ok_iff.2 ⟨o₁, h₁, h₂⟩⟩

/-- The last flag word's write is the one that meets the end of the buffer where no byte has followed it. -/
theorem wp_le_of_finishOut (h : WriterOk o) (hok : finishOut le o = .ok o') : o.bw.wp ≤ compCap := by
  obtain ⟨o₁, h₁, -⟩ := finishOut_ok_iff.1 hok
  obtain ⟨hlt, -⟩ := putHalfAt_ok_iff.1 h₁
  rcases h.room with h | ⟨-, h⟩ <;> omega

/-! ### `ASSEMBLE` (30_encoding R106) -/

theorem assembleInto_ok_iff :
    assembleInto le n first tokens obuf = .ok o' ↔
      ∃ o, emitTokens le tokens (header le n first obuf) = .ok o ∧ finishOut le o = .ok o' :=
  bind_ok_iff

/-- The writer of a whole token list stands at CLEN. -/
theorem emitTokens_header_writerAt (hok : emitTokens le tokens (header le n first obuf) = .ok o) :
    WriterOk o ∧ o.bw.wp = streamLen tokens := by
  have h := emitTokens_writerAt (header_writerAt le n first obuf) hok
  rw [Nat.zero_add, Nat.zero_add] at h
  exact ⟨h.ok, h.wp⟩

theorem assembleInto_wp (hok : assembleInto le n first tokens obuf = .ok o') : o'.bw.wp = streamLen tokens := by
  obtain ⟨o, h₁, h₂⟩ := assembleInto_ok_iff.1 hok
  rw [finishOut_bw h₂]
  exact (emitTokens_header_writerAt h₁).2

/-- A token list is assembled exactly when its CLEN fits. -/
theorem assembleInto_fits_iff :
    (∃ o', assembleInto le n first tokens obuf = .ok o') ↔ streamLen tokens ≤ compCap := by
  constructor
  · rintro ⟨o', hok⟩
    obtain ⟨o, h₁, h₂⟩ := assembleInto_ok_iff.1 hok
    obtain ⟨ho, hwp⟩ := emitTokens_header_writerAt h₁
    exact hwp ▸ wp_le_of_finishOut ho h₂
  · intro hcap
    obtain ⟨o, h₁⟩ := emitTokens_fits (le := le) (tokens := tokens) (header_writerAt le n first obuf)
      (by rw [Nat.zero_add, Nat.zero_add]; exact hcap)
    obtain ⟨ho, hwp⟩ := emitTokens_header_writerAt h₁
    obtain ⟨o', h₂⟩ := finishOut_fits (le := le) ho (hwp ▸ hcap)
    exact ⟨o', assembleInto_ok_iff.2 ⟨o, h₁, h₂⟩⟩

end WriterAt

end Sys2Proof.Machine
end

section
/-! PROOFS. The reader retraces the writer (30_encoding R101, 40_bitchannel R130). The stream is the finished one: a writer
part way through has left bytes and flag bits that stand in it, and a reader that has taken the same bits and bytes stands at
the writer's cursor, with the rest of the writer's flag word in `RACC`. -/

namespace Sys2Proof.Machine

/-! ### The finished stream holds what has been written -/

/-- The stream has the bytes a writer has appended, and in its reserved flag word the bits appended to the accumulator. -/
structure Holds (src : Stream) (o : Out) : Prop where
  len : o.bw.wp ≤ src.len
  bytes : ∀ a, a < o.bw.wp → a ≠ o.bw.rsv → a ≠ o.bw.rsv + 1 → src.byte a = memRead o.obuf a
  flags : ∀ j, j + o.bw.wcnt < 16 → (flagWordAt src.le src.byte o.bw.rsv).getLsbD (j + o.bw.wcnt) = o.bw.wacc.getLsbD j

section Holds
variable {src : Stream} {o o' : Out}

theorem putBit_holds {b : Bool} (hok : WriterOk o) (h : putBit src.le b o = .ok o') (hh : Holds src o') :
    Holds src o := by
  have hrsv := hok.reserved
  obtain ⟨hlen, hbytes, hflags⟩ := hh
  by_cases h0 : o.bw.wcnt = 0
  · obtain ⟨hlt, rfl⟩ := (putBit_of_full h0).1 h
    simp only [shiftIn, reserve] at hlen hbytes
    refine ⟨by omega, fun a ha h₁ h₂ => ?_, fun j hj => ?_⟩
    · rw [hbytes a (by omega) (by omega) (by omega), memRead_memWrite_other _ _ h₂, memRead_memWrite_other _ _ h₁]
    · have hword := flagWordAt_putHalfAt (putHalfAt_ok_iff.2 ⟨hlt, rfl⟩ : putHalfAt src.le o.bw.rsv o.bw.wacc o = .ok _)
      rw [flagWordAt, ← hbytes o.bw.rsv (by omega) (by omega) (by omega),
        ← hbytes (o.bw.rsv + 1) (by omega) (by omega) (by omega)] at hword
      rw [flagWordAt, hword, h0, Nat.add_zero]
  · rw [putBit_of_room h0] at h
    obtain rfl := Except.ok.inj h
    refine ⟨hlen, hbytes, fun j hj => ?_⟩
    change ∀ j, j + (o.bw.wcnt - 1) < 16 → (flagWordAt src.le src.byte o.bw.rsv).getLsbD (j + (o.bw.wcnt - 1)) =
      (shiftIn b o.bw).wacc.getLsbD j at hflags
    have hbit := hflags (j + 1) (by omega)
    rwa [shiftIn_wacc _ _ (by omega), if_neg (Nat.succ_ne_zero j), Nat.add_sub_cancel,
      show j + 1 + (o.bw.wcnt - 1) = j + o.bw.wcnt by omega] at hbit

theorem appendByte_holds {b : Byte} (hok : WriterOk o) (h : appendByte b o = .ok o') (hh : Holds src o') :
    Holds src o ∧ o.bw.wp < src.len ∧ src.byte o.bw.wp = b := by
  have hrsv := hok.reserved
  obtain ⟨-, rfl⟩ := appendByte_ok_iff.1 h
  obtain ⟨hlen, hbytes, hflags⟩ := hh
  simp only at hlen hbytes
  refine ⟨⟨by omega, fun a ha h₁ h₂ => ?_, hflags⟩, hlen, ?_⟩
  · rw [hbytes a (by omega) h₁ h₂, memRead_memWrite_other _ _ (by omega)]
  · rw [hbytes _ (by omega) (by omega) (by omega), memRead_memWrite_same]

theorem putBits_holds {bits : List Bool} (hok : WriterOk o) (h : putBits src.le bits o = .ok o')
    (hh : Holds src o') : Holds src o := by
  induction bits generalizing o with
  | nil => exact Except.ok.inj h ▸ hh
  | cons b bits ih =>
    obtain ⟨o₁, h₁, h⟩ := bind_ok_iff.1 h
    have hok₁ := putBit_ok hok h₁
    exact putBit_holds hok h₁ (ih hok₁ h)

theorem emitToken_holds {t : Token} (hok : WriterOk o) (h : emitToken src.le t o = .ok o')
    (hh : Holds src o') : Holds src o := by
  rw [emitToken_eq] at h
  obtain ⟨o₁, h₁, h⟩ := bind_ok_iff.1 h
  have hok₁ := putBits_ok hok h₁
  exact putBits_holds hok h₁ (appendByte_holds hok₁ h hh).1

theorem emitTokens_holds {tokens : List Token} (hok : WriterOk o) (h : emitTokens src.le tokens o = .ok o')
    (hh : Holds src o') : Holds src o := by
  induction tokens generalizing o with
  | nil => exact Except.ok.inj h ▸ hh
  | cons t ts ih =>
    obtain ⟨o₁, h₁, h⟩ := bind_ok_iff.1 h
    have hok₁ := emitToken_ok hok h₁
    exact emitToken_holds hok h₁ (ih hok₁ h)

theorem streamOf_memBytes (le : Bool) (m : Mem) {n a : Nat} (ha : a < n) :
    (streamOf le (memBytes m 0 n)).byte a = memRead m a := by
  have hlt : a < (memBytes m 0 n).length := by rwa [memBytes_length]
  change (memBytes m 0 n).getD a 0 = _
  rw [List.getD_eq_getElem _ _ hlt, memBytes_getElem m 0 n a ha, Nat.zero_add]

/-- The bytes `FINALIZE` and the filler leave hold what was written before. -/
theorem finishOut_holds {le : Bool} (hok : WriterOk o) (h : finishOut le o = .ok o') :
    Holds (streamOf le (memBytes o'.obuf 0 (padded o'.bw.wp))) o := by
  have hrsv := hok.reserved
  have hpad := le_padded o.bw.wp
  obtain ⟨o₁, h₁, h₂⟩ := finishOut_ok_iff.1 h
  have hword := flagWordAt_putHalfAt h₁
  obtain ⟨-, hframe⟩ := padFrom_frame h₂
  rw [finalize_bw h₁] at hframe
  rw [finishOut_bw h]
  have hbyte {a : Nat} (ha : a < o.bw.wp) :
      (streamOf le (memBytes o'.obuf 0 (padded o.bw.wp))).byte a = memRead o₁.obuf a := by
    rw [streamOf_memBytes le _ (by omega), hframe a ha]
  refine ⟨by simpa [streamOf] using hpad, fun a ha h₃ h₄ => ?_, fun j hj => ?_⟩
  · rw [hbyte ha, memRead_putHalfAt_other h₁ h₃ h₄]
  · have hstream : flagWordAt le (streamOf le (memBytes o'.obuf 0 (padded o.bw.wp))).byte o.bw.rsv =
        o.bw.wacc <<< o.bw.wcnt := by
      rw [flagWordAt, hbyte (by omega), hbyte (by omega)]
      exact hword
    change (flagWordAt le _ _).getLsbD _ = _
    rw [hstream, BitVec.getLsbD_shiftLeft]
    simp [hj]

end Holds

/-! ### The reader at the writer's cursor -/

/-- The reader has loaded the writer's flag word and taken as many bits as it holds. -/
structure Aligned (src : Stream) (w : BitWriter) (r : BitReader) : Prop where
  rcnt : r.rcnt = w.wcnt
  rp : r.rp = w.wp
  racc : r.racc = flagWordAt src.le src.byte w.rsv <<< (16 - w.wcnt)

/-- The writer has just reserved the flag word the reader loads next. -/
structure BeforeWord (w : BitWriter) (r : BitReader) : Prop where
  wcnt : w.wcnt = 16
  wp : w.wp = w.rsv + 2
  rcnt : r.rcnt = 0
  rp : r.rp = w.rsv

/-- The reader has taken what the writer has written. -/
def Meets (src : Stream) (w : BitWriter) (r : BitReader) : Prop := Aligned src w r ∨ BeforeWord w r

section Reader
variable {src : Stream} {w : BitWriter} {r : BitReader} {o o' : Out}

theorem loadFlags_beforeWord (h : BeforeWord w r) (hlen : w.wp ≤ src.len) :
    ∃ r₁, loadFlags src r = .ok r₁ ∧ Aligned src w r₁ := by
  obtain ⟨hwcnt, hwp, -, hrp⟩ := h
  refine ⟨_, loadFlags_ok_iff.2 ⟨by omega, rfl⟩, hwcnt.symm, by simp only; omega, ?_⟩
  rw [hwcnt, Nat.sub_self, BitVec.shiftLeft_zero, ← hrp, flagWordAt]

/-- The bit on top of `RACC` is the next of the writer's word. -/
theorem shiftFlag_aligned (b : Bool) (h : Aligned src w r) (h0 : w.wcnt ≠ 0) (h16 : w.wcnt ≤ 16) :
    (shiftFlag r).1 = (flagWordAt src.le src.byte w.rsv).getLsbD (w.wcnt - 1) ∧
      Aligned src (shiftIn b w) (shiftFlag r).2 := by
  obtain ⟨hrcnt, hrp, hracc⟩ := h
  refine ⟨?_, by rw [shiftFlag, hrcnt]; rfl, hrp, ?_⟩
  · rw [shiftFlag, hracc, BitVec.getLsbD_shiftLeft, show 15 - (16 - w.wcnt) = w.wcnt - 1 by omega,
      decide_eq_false (show ¬15 < 16 - w.wcnt by omega)]
    rfl
  · rw [shiftFlag, hracc, ← BitVec.shiftLeft_add, shiftIn, show 16 - (w.wcnt - 1) = 16 - w.wcnt + 1 by omega]

/-- `GETBIT` takes the next bit of the writer's word, which it loads first where it has not yet. -/
theorem getBit_meets (b : Bool) (h : Meets src w r) (h0 : w.wcnt ≠ 0) (h16 : w.wcnt ≤ 16) (hlen : w.wp ≤ src.len) :
    ∃ r₁, getBit src r = .ok ((flagWordAt src.le src.byte w.rsv).getLsbD (w.wcnt - 1), r₁) ∧
      Aligned src (shiftIn b w) r₁ := by
  rcases h with h | h
  · obtain ⟨hbit, hnext⟩ := shiftFlag_aligned b h h0 h16
    exact ⟨_, by rw [getBit_of_left (h.rcnt ▸ h0), ← hbit], hnext⟩
  · obtain ⟨r₁, hload, h₁⟩ := loadFlags_beforeWord (src := src) h hlen
    obtain ⟨hbit, hnext⟩ := shiftFlag_aligned b h₁ h0 h16
    exact ⟨_, by rw [getBit_of_empty h.rcnt, hload, ← hbit]; rfl, hnext⟩

/-- A full word read to its end: the next is the one the writer reserves. -/
theorem meets_reserve (h : Meets src w r) (h0 : w.wcnt = 0) : BeforeWord (reserve w) r := by
  rcases h with h | h
  · exact ⟨rfl, rfl, h.rcnt.trans h0, h.rp⟩
  · cases h.wcnt.symm.trans h0

/-- A bit put is the bit `GETBIT` takes. -/
theorem putBit_read {b : Bool} (hok : WriterOk o) (h : putBit src.le b o = .ok o') (hh : Holds src o')
    (hr : Meets src o.bw r) : ∃ r₁, getBit src r = .ok (b, r₁) ∧ Aligned src o'.bw r₁ := by
  have take {w : BitWriter} (hw : o'.bw = shiftIn b w) (hm : Meets src w r) (h0 : w.wcnt ≠ 0) (h16 : w.wcnt ≤ 16) :
      ∃ r₁, getBit src r = .ok (b, r₁) ∧ Aligned src o'.bw r₁ := by
    obtain ⟨hlen, -, hflags⟩ := hh
    rw [hw] at hlen hflags ⊢
    obtain ⟨r₁, hbit, hnext⟩ := getBit_meets b hm h0 h16 hlen
    have htop : (flagWordAt src.le src.byte w.rsv).getLsbD (w.wcnt - 1) = b := by
      have hlast := hflags 0 (by simp only [shiftIn]; omega)
      rw [shiftIn_wacc _ _ (by decide), if_pos rfl, Nat.zero_add] at hlast
      exact hlast
    exact ⟨r₁, by rw [hbit, htop], hnext⟩
  by_cases h0 : o.bw.wcnt = 0
  · obtain ⟨-, rfl⟩ := (putBit_of_full h0).1 h
    exact take rfl (.inr (meets_reserve hr h0)) (by simp [reserve]) (le_refl 16)
  · rw [putBit_of_room h0] at h
    obtain rfl := Except.ok.inj h
    exact take rfl hr h0 hok.wcnt

theorem putBits_read {b : Bool} {bits : List Bool} (hok : WriterOk o)
    (h : putBits src.le (b :: bits) o = .ok o') (hh : Holds src o') (hr : Meets src o.bw r) :
    ∃ r₁, Gives (getBit src) r (b :: bits) r₁ ∧ Aligned src o'.bw r₁ := by
  induction bits generalizing b o r with
  | nil =>
    obtain ⟨o₁, h₁, h⟩ := bind_ok_iff.1 h
    obtain rfl : o₁ = o' := Except.ok.inj h
    obtain ⟨r₁, hbit, ha⟩ := putBit_read hok h₁ hh hr
    exact ⟨r₁, ⟨r₁, hbit, rfl⟩, ha⟩
  | cons c bits ih =>
    obtain ⟨o₁, h₁, h⟩ := bind_ok_iff.1 h
    have hok₁ := putBit_ok hok h₁
    obtain ⟨r₁, hbit, ha⟩ := putBit_read hok h₁ (putBits_holds hok₁ h hh) hr
    obtain ⟨r₂, hbits, ha⟩ := ih hok₁ h (.inl ha)
    exact ⟨r₂, ⟨r₁, hbit, hbits⟩, ha⟩

/-- A byte appended is the byte `READ_BYTE` takes. -/
theorem appendByte_read {b : Byte} (hok : WriterOk o) (h : appendByte b o = .ok o') (hh : Holds src o')
    (hr : Aligned src o.bw r) : ∃ r₁, readByte src r = .ok (b, r₁) ∧ Aligned src o'.bw r₁ := by
  obtain ⟨-, hlen, hbyte⟩ := appendByte_holds hok h hh
  obtain ⟨-, rfl⟩ := appendByte_ok_iff.1 h
  obtain ⟨hrcnt, hrp, hracc⟩ := hr
  exact ⟨{ r with rp := r.rp + 1 }, readByte_ok_iff.2 ⟨hrp ▸ hlen, by rw [hrp, hbyte]⟩, hrcnt,
    congrArg (· + 1) hrp, hracc⟩

/-- The flag bits a reader can still be given are bounded by those in `RACC` and eight for each byte of the stream. -/
theorem gives_length_le {bits : List Bool} {r' : BitReader} (h : Gives (getBit src) r bits r') :
    bits.length ≤ r.rcnt + 8 * (src.len - r.rp) := by
  induction bits generalizing r with
  | nil => exact Nat.zero_le _
  | cons b bits ih =>
    obtain ⟨r₁, hbit, h⟩ := h
    have hrest := ih h
    rw [List.length_cons]
    rcases getBit_ok_iff.1 hbit with ⟨h0, heq⟩ | ⟨h0, r₂, hload, heq⟩
    · obtain rfl := (Prod.mk.inj heq).2
      simp only at hrest
      omega
    · obtain rfl := (Prod.mk.inj heq).2
      obtain ⟨hlt, rfl⟩ := loadFlags_ok_iff.1 hload
      simp only at hrest
      omega

/-- A token emitted is the token fetched. -/
theorem emitToken_read {t : Token} (hwf : t.toInstr.wf = true) (hok : WriterOk o)
    (h : emitToken src.le t o = .ok o') (hh : Holds src o') (hr : Meets src o.bw r) :
    ∃ r₁, fetchFrom src r = .ok (t, r₁) ∧ Aligned src o'.bw r₁ := by
  rw [emitToken_eq] at h
  obtain ⟨o₁, h₁, h⟩ := bind_ok_iff.1 h
  have hok₁ := putBits_ok hok h₁
  obtain ⟨b, bits, hflags⟩ := List.exists_cons_of_length_pos (token_flags_pos hwf)
  obtain ⟨r₁, hbits, ha⟩ := putBits_read hok (hflags ▸ h₁) (appendByte_holds hok₁ h hh).1 hr
  rw [← hflags] at hbits
  obtain ⟨r₂, hbyte, ha⟩ := appendByte_read hok₁ h hh ha
  have hfuel := gives_length_le hbits
  exact ⟨r₂, readToken_of_code hwf (by omega) hbits hbyte, ha⟩

theorem emitTokens_read {tokens : List Token} (hwf : ∀ t ∈ tokens, t.toInstr.wf = true) (hok : WriterOk o)
    (h : emitTokens src.le tokens o = .ok o') (hh : Holds src o') (hr : Meets src o.bw r) :
    ∃ r₁, readTokens src tokens.length r = .ok (tokens, r₁) ∧ (0 < tokens.length → Aligned src o'.bw r₁) := by
  induction tokens generalizing o r with
  | nil => exact ⟨r, rfl, fun h => absurd h (lt_irrefl 0)⟩
  | cons t ts ih =>
    obtain ⟨o₁, h₁, h⟩ := bind_ok_iff.1 h
    have hok₁ := emitToken_ok hok h₁
    obtain ⟨r₁, ht, ha⟩ := emitToken_read (hwf t List.mem_cons_self) hok h₁ (emitTokens_holds hok₁ h hh) hr
    obtain ⟨r₂, hts, ha₂⟩ := ih (fun u hu => hwf u (List.mem_cons_of_mem t hu)) hok₁ h (.inl ha)
    refine ⟨r₂, readTokens_succ_ok_iff.2 ⟨t, r₁, ts, r₂, ht, hts, rfl⟩, fun _ => ?_⟩
    cases ts with
    | nil =>
      obtain rfl : r₁ = r₂ := (Prod.mk.inj (Except.ok.inj hts)).2
      exact Except.ok.inj h ▸ ha
    | cons u us => exact ha₂ (Nat.succ_pos _)

end Reader

/-! ### The assembled stream -/

theorem assemble_eq_some_iff {le : Bool} {n : Nat} {first : Byte} {tokens : List Token} {bytes : List Byte} :
    assemble le n first tokens = some bytes ↔
      ∃ o, assembleInto le n first tokens [] = .ok o ∧ memBytes o.obuf 0 (padded o.bw.wp) = bytes := by
  unfold assemble
  cases assembleInto le n first tokens [] <;> simp

/-- Before the first token the reader stands where the writer's first flag word is reserved. -/
theorem readerAtBody_meets (src : Stream) (le : Bool) (n : Nat) (first : Byte) (obuf : Mem) :
    Meets src (header le n first obuf).bw readerAtBody := .inr ⟨rfl, rfl, rfl, rfl⟩

/-- Settles O10: the list is cut after `k` tokens; the finished stream holds what the writer had written then, and the reader
that retraces it stands at its cursor. -/
theorem assembledStreamReadsBack : Obligations.AssembledStreamReadsBack := by
  unfold Obligations.AssembledStreamReadsBack
  intro le n first tokens bytes k hwf hbytes hk
  obtain ⟨o', ho', rfl⟩ := assemble_eq_some_iff.1 hbytes
  obtain ⟨o, hall, hfinish⟩ := assembleInto_ok_iff.1 ho'
  have hholds := finishOut_holds (emitTokens_header_writerAt hall).1 hfinish
  rw [← List.take_append_drop k tokens, emitTokens_append] at hall
  obtain ⟨oₖ, htake, hdrop⟩ := bind_ok_iff.1 hall
  obtain ⟨hokₖ, hwp⟩ := emitTokens_header_writerAt htake
  obtain ⟨r, hread, ha⟩ := emitTokens_read (fun t ht => hwf t (List.mem_of_mem_take ht))
    (header_writerAt le n first []).ok htake (emitTokens_holds hokₖ hdrop hholds) (readerAtBody_meets _ le n first [])
  rw [List.length_take_of_le hk] at hread ha
  exact ⟨r, hread, fun hpos => (ha hpos).rp.trans hwp⟩

end Sys2Proof.Machine
end

section
/-! PROOFS. `COMPRESS` is `ASSEMBLE` of the token list its matcher chooses (30_encoding R106; 42_compress R152 to R155, R164):
the list is legal and stands for the normalised input, and the loops of `COMPRESS` emit it token by token. -/

namespace Sys2Proof.Machine

/-! ### The chosen tokens stand for the input -/

section Chosen
variable {hash : Hash} {ibuf : Mem} {n p fuel : Nat}

/-- The bytes a match covers are equal. -/
theorem matchLoop_agree {c s k i : Nat} (hk : k ≤ i) (hi : i < matchLoop ibuf c s fuel k) :
    memRead ibuf (c + i) = memRead ibuf (s + i) := by
  induction fuel generalizing k with
  | zero => exact absurd hi (Nat.not_lt.2 hk)
  | succ fuel ih =>
    unfold matchLoop at hi
    split_ifs at hi with heq
    · rcases Nat.eq_or_lt_of_le hk with rfl | hlt
      · exact heq
      · exact ih hlt hi
    · omega

theorem matchLen_agree {c s i : Nat} (hi : i < matchLen ibuf n c s) : memRead ibuf (c + i) = memRead ibuf (s + i) :=
  matchLoop_agree (Nat.zero_le i) hi

theorem memBytes_succ (m : Mem) (a n : Nat) : memBytes m a (n + 1) = memBytes m a n ++ [memRead m (a + n)] :=
  memBytes_append m a n 1

/-- A copy of bytes that are already there extends a memory's bytes by what follows in it. -/
theorem extendCopy_memBytes {mlen c : Nat} (hc : c < p)
    (h : ∀ i, i < mlen → memRead ibuf (c + i) = memRead ibuf (p + i)) :
    extendCopy mlen (p - c) (memBytes ibuf 0 p) = memBytes ibuf 0 (p + mlen) := by
  induction mlen generalizing c p with
  | zero => rfl
  | succ mlen ih =>
    have hlt : c < (memBytes ibuf 0 p).length := by rwa [memBytes_length]
    have hlast : (memBytes ibuf 0 p).getD c 0 = memRead ibuf p := by
      rw [List.getD_eq_getElem _ _ hlt, memBytes_getElem _ _ _ _ hc, Nat.zero_add]
      exact h 0 (Nat.succ_pos mlen)
    have hnext := ih (c := c + 1) (p := p + 1) (by omega) fun i hi => by
      rw [Nat.add_right_comm c, Nat.add_right_comm p]
      exact h (i + 1) (by omega)
    rw [memBytes_succ, Nat.zero_add, Nat.add_sub_add_right, Nat.add_right_comm p] at hnext
    rw [extendCopy, memBytes_length, Nat.sub_sub_self hc.le, hlast, hnext, Nat.add_assoc]

theorem chosenToken_size_pos : 0 < Token.size (chosenToken hash ibuf n p) := by
  rcases chosenToken_cases hash ibuf n p with h | ⟨c, -, hmin, h⟩ <;> rw [h]
  · exact Nat.one_pos
  · exact lt_of_lt_of_le (by decide) hmin

theorem chosenToken_size_le (hp : p < n) : p + Token.size (chosenToken hash ibuf n p) ≤ n := by
  rcases chosenToken_cases hash ibuf n p with h | ⟨c, -, -, h⟩ <;> rw [h]
  · exact hp
  · have := matchLen_le ibuf n c p
    simp only [Token.size]
    omega

/-- Where less than a whole match remains the token is the literal. -/
theorem chosenToken_tail (hp : n - p < 4) : chosenToken hash ibuf n p = .lit (memRead ibuf p) := by
  rcases chosenToken_cases hash ibuf n p with h | ⟨c, -, hmin, -⟩
  · exact h
  · have := matchLen_le ibuf n c p
    unfold minMatch at hmin
    omega

/-- The chosen token extends the input's bytes by those it covers. -/
theorem applyToken_chosenToken :
    applyToken (memBytes ibuf 0 p) (chosenToken hash ibuf n p) =
      memBytes ibuf 0 (p + Token.size (chosenToken hash ibuf n p)) := by
  rcases chosenToken_cases hash ibuf n p with h | ⟨c, hc, -, h⟩ <;> rw [h]
  · rw [applyToken, Token.size, memBytes_succ, Nat.zero_add]
  · exact extendCopy_memBytes (lastSameHash_eq_some_iff.1 hc).1 fun i hi => matchLen_agree hi

theorem foldl_chosenTokens (hp : p ≤ n) (hfuel : n - p ≤ fuel) :
    (chosenTokens hash ibuf n fuel p).foldl applyToken (memBytes ibuf 0 p) = memBytes ibuf 0 n := by
  induction fuel generalizing p with
  | zero =>
    obtain rfl : p = n := by omega
    rfl
  | succ fuel ih =>
    rcases Nat.eq_or_lt_of_le hp with rfl | hlt
    · rw [chosenTokens_of_done hash ibuf _ (le_refl p), List.foldl_nil]
    · have hpos := chosenToken_size_pos (hash := hash) (ibuf := ibuf) (n := n) (p := p)
      rw [chosenTokens_succ hash ibuf fuel hlt, List.foldl_cons, applyToken_chosenToken,
        ih (chosenToken_size_le hlt) (by omega)]

/-- A chosen match reaches back to an earlier position, over bytes the list has produced. -/
theorem tokensOk_chosenTokens : tokensOk p (chosenTokens hash ibuf n fuel p) = true := by
  induction fuel generalizing p with
  | zero => rfl
  | succ fuel ih =>
    by_cases hlt : p < n
    · rw [chosenTokens_succ hash ibuf fuel hlt]
      rcases chosenToken_cases hash ibuf n p with h | ⟨c, hc, hmin, h⟩ <;> rw [h]
      · exact ih
      · have hlt : c < p := (lastSameHash_eq_some_iff.1 hc).1
        simp only [tokensOk, Bool.and_eq_true, decide_eq_true_eq]
        exact ⟨⟨⟨hmin, by omega⟩, by omega⟩, ih⟩
    · rw [chosenTokens_of_done hash ibuf _ (by omega)]
      rfl

end Chosen

/-! ### The loops emit the chosen tokens -/

/-- The writer's part of what an operation of the compressor leaves. -/
def outPart : Except Comp Comp → Except Out Out
  | .ok c => .ok c.out
  | .error c => .error c.out

/-- Emit a token and advance by its size: both steps of the compressor's loops. -/
def emitAt (le : Bool) (t : Token) (c : Comp) : Except Comp Comp :=
  match emitToken le t c.out with
  | .error o => .error { c with out := o }
  | .ok o => .ok { c with out := o, sp := c.sp + Token.size t }

/-- Every position below `HP` is indexed, and `HP` does not pass `SP`. -/
structure Indexed (hash : Hash) (ibuf : Mem) (c : Comp) : Prop where
  hp : c.hp ≤ c.sp
  lookup : ∀ q, htLookup hash ibuf q c.ht = lastSameHash hash ibuf q c.hp

section Loops
variable {hash : Hash} {le : Bool} {ibuf : Mem} {n fuel fuel' fuel'' : Nat} {c : Comp}

theorem literalStep_eq_emitAt : literalStep le ibuf c = emitAt le (.lit (memRead ibuf c.sp)) c := rfl

theorem matchStep_eq_emitAt {mlen dist : Nat} : matchStep le mlen dist c = emitAt le (.copy mlen dist) c := rfl

theorem outPart_emitAt_bind (t : Token) {f : Comp → Except Comp Comp} :
    outPart (emitAt le t c >>= f) =
      (emitToken le t c.out >>= fun o => outPart (f { c with out := o, sp := c.sp + Token.size t })) := by
  unfold emitAt
  cases emitToken le t c.out <;> rfl

/-- Indexing a run of positions moves the bound of what a lookup finds. -/
theorem htLookup_indexLoop {hp : Nat} {t : HashTable} (h : ∀ q, htLookup hash ibuf q t = lastSameHash hash ibuf q hp)
    (q : Nat) : htLookup hash ibuf q (indexLoop hash ibuf fuel hp t) = lastSameHash hash ibuf q (hp + fuel) := by
  induction fuel generalizing hp t with
  | zero => exact h q
  | succ fuel ih =>
    rw [indexLoop_succ, show hp + (fuel + 1) = hp + 1 + fuel by omega]
    refine ih fun q => ?_
    rw [htLookup_htInsert, h q, lastSameHash]
    simp only [eq_comm]

/-- `INDEX_UPTO(SP)` indexes every position below `SP`. -/
theorem htLookup_indexUpto (h : Indexed hash ibuf c) (q : Nat) :
    htLookup hash ibuf q (indexUpto hash ibuf c.sp c).ht = lastSameHash hash ibuf q c.sp := by
  have hhp := h.hp
  rw [indexUpto_ht, htLookup_indexLoop h.lookup, Nat.add_sub_cancel' hhp]

theorem indexed_advance (h : Indexed hash ibuf c) (o : Out) (k : Nat) :
    Indexed hash ibuf { indexUpto hash ibuf c.sp c with out := o, sp := c.sp + k } := by
  have hhp : max c.hp c.sp = c.sp := max_eq_right h.hp
  refine ⟨by simp [hhp], fun q => ?_⟩
  rw [indexUpto_hp, hhp]
  exact htLookup_indexUpto h q

/-- An iteration of `C_MAIN` emits the chosen token. -/
theorem mainStep_eq_emitAt (h : Indexed hash ibuf c) :
    mainStep hash le ibuf n c = emitAt le (chosenToken hash ibuf n c.sp) (indexUpto hash ibuf c.sp c) := by
  have hlook := htLookup_indexUpto h c.sp
  unfold mainStep findMatch chosenToken
  rw [indexUpto_sp, hlook]
  rcases lastSameHash hash ibuf c.sp c.sp with _ | cand
  · exact literalStep_eq_emitAt
  · by_cases hmin : minMatch ≤ matchLen ibuf n cand c.sp
    · simp only [if_pos hmin]
      exact matchStep_eq_emitAt
    · simp only [if_neg hmin]
      exact literalStep_eq_emitAt

/-- `C_TAIL` emits the chosen tokens of the trailing bytes, which are literals. -/
theorem cTail_emits (htail : n - c.sp < 4) (hfuel : n - c.sp ≤ fuel) (hfuel' : n - c.sp ≤ fuel') :
    outPart (cTail le ibuf n fuel c) = emitTokens le (chosenTokens hash ibuf n fuel' c.sp) c.out := by
  induction fuel generalizing c fuel' with
  | zero => rw [chosenTokens_of_done hash ibuf _ (by omega)]; rfl
  | succ fuel ih =>
    rw [cTail_succ]
    split_ifs with hlt
    · obtain ⟨fuel', rfl⟩ : ∃ k, fuel' = k + 1 := ⟨fuel' - 1, by omega⟩
      rw [chosenTokens_succ hash ibuf fuel' hlt, chosenToken_tail htail, literalStep_eq_emitAt, outPart_emitAt_bind]
      exact bind_congr fun o => ih (c := { c with out := o, sp := c.sp + 1 }) (by simp only; omega)
        (by simp only; omega) (by simp only; omega)
    · rw [chosenTokens_of_done hash ibuf _ (by omega)]; rfl

/-- `C_MAIN` and `C_TAIL` emit the chosen tokens. -/
theorem loops_emit (h : Indexed hash ibuf c) (hfuel : n - c.sp ≤ fuel) (hfuel' : n - c.sp ≤ fuel')
    (hfuel'' : n - c.sp ≤ fuel'') :
    outPart (cMain hash le ibuf n fuel c >>= cTail le ibuf n fuel') =
      emitTokens le (chosenTokens hash ibuf n fuel'' c.sp) c.out := by
  induction fuel generalizing c fuel'' with
  | zero => exact cTail_emits (by omega) hfuel' hfuel''
  | succ fuel ih =>
    rw [cMain_succ]
    split_ifs with hwin
    · obtain ⟨fuel'', rfl⟩ : ∃ k, fuel'' = k + 1 := ⟨fuel'' - 1, by omega⟩
      have hpos := chosenToken_size_pos (hash := hash) (ibuf := ibuf) (n := n) (p := c.sp)
      rw [bind_assoc, mainStep_eq_emitAt h, outPart_emitAt_bind, chosenTokens_succ hash ibuf fuel'' (by omega)]
      exact bind_congr fun o => ih (indexed_advance h o _) (by simp only [indexUpto_sp]; omega)
        (by simp only [indexUpto_sp]; omega) (by simp only [indexUpto_sp]; omega)
    · exact cTail_emits (by omega) hfuel' hfuel''

theorem outPart_bind_cFinish (x : Except Comp Comp) : outPart (x >>= cFinish le) = (outPart x >>= finishOut le) := by
  cases x with
  | error c => rfl
  | ok c =>
    change outPart (cFinish le c) = finishOut le c.out
    unfold cFinish
    cases finishOut le c.out <;> rfl

/-- `C_INIT` to `C_FINISH` write what `ASSEMBLE` of the chosen tokens writes. -/
theorem outPart_compressBody (hash : Hash) (le : Bool) (ibuf : Mem) (n : Nat) (obuf : Mem) :
    outPart (compressBody hash le ibuf n obuf) =
      assembleInto le n (memRead ibuf 0) (chosenTokens hash ibuf n n 1) obuf := by
  have hinit : Indexed hash ibuf (cInit le ibuf n obuf) := ⟨Nat.zero_le 1, fun q => rfl⟩
  have hloops := loops_emit (le := le) (n := n) (fuel := n) (fuel' := n) (fuel'' := n) hinit (Nat.sub_le _ _)
    (Nat.sub_le _ _) (Nat.sub_le _ _)
  change outPart (_ >>= fun c => cTail le ibuf n n c >>= cFinish le) = _
  rw [← bind_assoc, outPart_bind_cFinish, hloops]
  rfl

end Loops

/-! ### The command -/

theorem emitTokens_alike {o o' : Out} (le : Bool) (tokens : List Token) (h : OutAlike o o') :
    Alike (fun _ _ => True) OutAlike (emitTokens le tokens o) (emitTokens le tokens o') := by
  induction tokens generalizing o o' with
  | nil => exact .ok h
  | cons t ts ih => exact (emitToken_alike le t h).bind fun _ _ h => ih h

/-- `ASSEMBLE` does not read the `OBUF` it writes to. -/
theorem assembleInto_alike (le : Bool) (n : Nat) (first : Byte) (tokens : List Token) (obuf obuf' : Mem) :
    Alike (fun _ _ => True) OutFinished (assembleInto le n first tokens obuf) (assembleInto le n first tokens obuf') :=
  (emitTokens_alike le tokens (header_alike le n first obuf obuf')).bind fun _ _ h => finishOut_alike le h

/-- `ASSEMBLE` gives the bytes that are left in any `OBUF`. -/
theorem assemble_of_assembleInto {le : Bool} {n : Nat} {first : Byte} {tokens : List Token} {obuf : Mem} {o : Out}
    (h : assembleInto le n first tokens obuf = .ok o) :
    assemble le n first tokens = some (memBytes o.obuf 0 (padded o.bw.wp)) := by
  rcases (assembleInto_alike le n first tokens obuf []).cases with ⟨a, b, ha, hb, hbw, hbytes⟩ | ⟨a, -, ha, -, -⟩
  · obtain rfl : o = a := Except.ok.inj (h.symm.trans ha)
    rw [assemble_eq_some_iff]
    exact ⟨b, hb, by rw [hbw, hbytes.memBytes (by omega)]⟩
  · cases h.symm.trans ha

section Command
variable {hash : Hash} {le : Bool} {s s' : State} {c : Comp}

theorem compressWith_of_ok (hcap : s.inLen ≤ inCap) (hn : normalise s = .ok s')
    (hb : compressBody hash le s'.ibuf s'.rawLen s'.obuf = .ok c) : compressWith hash le s = compressDone c s' := by
  rw [compressWith, if_neg (Nat.not_lt.2 hcap), hn]
  simp only [hb]

theorem compressWith_of_error (hcap : s.inLen ≤ inCap) (hn : normalise s = .ok s')
    (hb : compressBody hash le s'.ibuf s'.rawLen s'.obuf = .error c) :
    compressWith hash le s = raise .outOverflow (s'.setComp c) := by
  rw [compressWith, if_neg (Nat.not_lt.2 hcap), hn]
  simp only [hb]

/-- The bytes of a normalised input (42_compress R150). -/
theorem normalise_memRead (hcap : s.inLen ≤ inCap) (hn : normalise s = .ok s') {a : Nat} (ha : a < s'.rawLen) :
    memRead s'.ibuf a = normalisedByte s a := by
  unfold inCap at hcap
  obtain ⟨-, ⟨-, rfl⟩ | rfl⟩ := normalise_ok_cases hn
  · simp only [State.rawLen, BitVec.toNat_ofNat] at ha
    rw [memRead_memWrite, normalisedByte]
    rcases Nat.lt_or_ge a s.inLen with h | h
    · rw [if_neg (Nat.ne_of_lt h), if_pos h]
    · rw [if_pos (by omega), if_neg (Nat.not_lt.2 h)]
  · simp only [State.rawLen, BitVec.toNat_ofNat] at ha
    rw [normalisedByte, if_pos (by omega)]

theorem normalise_first (hcap : s.inLen ≤ inCap) (hn : normalise s = .ok s') :
    memRead s'.ibuf 0 = memRead s.ibuf 0 := by
  have hpos : 0 < s.inLen := Nat.pos_of_ne_zero (normalise_ok_cases hn).1
  rw [normalise_memRead hcap hn (normalise_rawLen hcap hn).1, normalisedByte, if_pos hpos]

theorem memBytes_normalised (hcap : s.inLen ≤ inCap) (hn : normalise s = .ok s') :
    memBytes s'.ibuf 0 s'.rawLen = (List.range s'.rawLen).map (normalisedByte s) := by
  refine List.ext_getElem (by simp) fun i h₁ h₂ => ?_
  have hi : i < s'.rawLen := by rwa [memBytes_length] at h₁
  rw [memBytes_getElem _ _ _ _ hi, Nat.zero_add, normalise_memRead hcap hn hi, List.getElem_map, List.getElem_range]

end Command

/-- Settles O18: the loops emit the chosen tokens, so the command ends as `ASSEMBLE` of them does, which CLEN decides. -/
theorem compressAssemblesChosenTokens : Obligations.CompressAssemblesChosenTokens := by
  unfold Obligations.CompressAssemblesChosenTokens
  intro hash le s s' tokens hcap hn htokens
  obtain ⟨hN, -⟩ := normalise_rawLen hcap hn
  have hfirst := normalise_first hcap hn
  have hbody := outPart_compressBody hash le s'.ibuf s'.rawLen s'.obuf
  rw [htokens, hfirst] at hbody
  refine ⟨htokens ▸ tokensOk_chosenTokens, ?_, fun hfit => ?_, fun hover => ?_⟩
  · have hone : [memRead s.ibuf 0] = memBytes s'.ibuf 0 1 := by rw [← hfirst]; rfl
    rw [← memBytes_normalised hcap hn, expand, ← htokens, hone, foldl_chosenTokens hN (Nat.sub_le _ _)]
  · obtain ⟨o, ho⟩ := (assembleInto_fits_iff (le := le) (n := s'.rawLen) (first := memRead s.ibuf 0)
      (obuf := s'.obuf)).2 hfit
    have hwp := assembleInto_wp ho
    rcases hb : compressBody hash le s'.ibuf s'.rawLen s'.obuf with c | c <;> rw [hb, ho] at hbody
    · cases hbody
    · obtain rfl : c.out = o := Except.ok.inj hbody
      have hpad := padded_le_compCap hfit
      unfold compCap at hpad
      rw [compressWith_of_ok hcap hn hb]
      refine ⟨rfl, ?_, ?_⟩
      · rw [compressDone_olen, BitVec.toNat_ofNat, hwp]
        omega
      · rw [assemble_of_assembleInto ho, compressDone_opad, compressDone_obuf, BitVec.toNat_ofNat, hwp,
          Nat.mod_eq_of_lt (by omega)]
  · rcases hb : compressBody hash le s'.ibuf s'.rawLen s'.obuf with c | c <;> rw [hb] at hbody
    · rw [compressWith_of_error hcap hn hb]
      exact ⟨rfl, rfl, rfl⟩
    · have hfit := assembleInto_fits_iff.1 ⟨c.out, hbody.symm⟩
      unfold compCap at hfit
      omega

end Sys2Proof.Machine
end

section
/-! PROOFS. The reader by the bytes of `IBUF`: `GETVLC` on the bits of a code (40_bitchannel R128 (a)), and `GETBIT` and
`READ_BYTE` (40_bitchannel R125; 43_decompress R172; 20_memory R62). -/

namespace Sys2Proof.Machine

/-- Settles O5: the bits of the code followed by any others are a source that gives the code. -/
theorem vlcRoundTrip : Obligations.VlcRoundTrip := by
  unfold Obligations.VlcRoundTrip
  intro v fuel hv rest bytes hfuel
  exact readVlc_of_code hv hfuel (gives_listBit_iff.2 ⟨rfl, rfl⟩)

section Flags
variable {src : Stream} {r r₁ r₂ : BitReader} {n : Nat}

theorem loadFlags_of_short (h : src.len ≤ r.rp + 1) : loadFlags src r = .error .srcUnderrun := if_pos h

/-- `GETBIT` with no bit left is `GETBIT` on the word loaded. -/
theorem getBit_of_load (h : r.rcnt = 0) (hload : loadFlags src r = .ok r₁) : getBit src r = .ok (shiftFlag r₁) := by
  rw [getBit_of_empty h, hload]
  rfl

/-- `GETBIT` with no bit left and two bytes at `RP` gives the first flag bit of the two. -/
theorem getBit_of_word (h : r.rcnt = 0) (hlen : r.rp + 1 < src.len) :
    ∃ r₁, getBit src r = .ok (flagBitAt src.le src.byte r.rp 0, r₁) ∧ r₁.rcnt = 15 ∧ r₁.rp = r.rp + 2 := by
  rw [getBit_of_load h (loadFlags_ok_iff.2 ⟨hlen, rfl⟩), flagBitAt_eq _ _ _ (by decide)]
  exact ⟨_, rfl, rfl, rfl⟩

theorem readByte_of_short (h : src.len ≤ r.rp) : readByte src r = .error .srcUnderrun := if_pos h

theorem takeFlags_succ_of_ok {b : Bool} {bits : List Bool} (hbit : getBit src r = .ok (b, r₁))
    (hrest : takeFlags src n r₁ = .ok (bits, r₂)) : takeFlags src (n + 1) r = .ok (b :: bits, r₂) :=
  bind_ok_iff.2 ⟨_, hbit, bind_ok_iff.2 ⟨_, hrest, rfl⟩⟩

/-- Flag bits taken with none left are those taken from the word loaded. -/
theorem takeFlags_of_load (h : r.rcnt = 0) (hload : loadFlags src r = .ok r₁) (hleft : r₁.rcnt ≠ 0) :
    takeFlags src (n + 1) r = takeFlags src (n + 1) r₁ := by
  rw [takeFlags, takeFlags, getBit_of_load h hload, getBit_of_left hleft]

/-- Flag bit `i + 1` of the accumulator is flag bit `i` once one has been shifted out. -/
theorem shiftFlag_racc {i : Nat} (hi : i < 15) :
    (shiftFlag r).2.racc.getLsbD (15 - i) = r.racc.getLsbD (15 - (i + 1)) := by
  rw [shiftFlag, BitVec.getLsbD_shiftLeft, decide_eq_true (show 15 - i < 16 by omega),
    decide_eq_false (show ¬15 - i < 1 by omega)]
  rfl

/-- Flag bits that are left are those of the accumulator, from bit 15 down. -/
theorem takeFlags_of_left (hn : n ≤ r.rcnt) (h16 : n ≤ 16) :
    ∃ r₁, takeFlags src n r = .ok ((List.range n).map fun i => r.racc.getLsbD (15 - i), r₁) ∧
      r₁.rcnt = r.rcnt - n ∧ r₁.rp = r.rp := by
  induction n generalizing r with
  | zero => exact ⟨r, rfl, rfl, rfl⟩
  | succ n ih =>
    have hcnt : (shiftFlag r).2.rcnt = r.rcnt - 1 := rfl
    obtain ⟨r₁, hrest, hrcnt, hrp⟩ := ih (r := (shiftFlag r).2) (by omega) (by omega)
    have htail : (List.range n).map (fun i => (shiftFlag r).2.racc.getLsbD (15 - i)) =
        (List.range n).map (fun i => r.racc.getLsbD (15 - (i + 1))) :=
      List.map_congr_left fun i hi => shiftFlag_racc (by have := List.mem_range.1 hi; omega)
    refine ⟨r₁, ?_, by omega, hrp⟩
    rw [takeFlags_succ_of_ok (getBit_of_left (by omega)) hrest, htail, List.range_succ_eq_map, List.map_cons,
      List.map_map]
    rfl

/-- Where no bit is left and two bytes are, the next flag bits are those of the two bytes. -/
theorem takeFlags_of_empty (h0 : r.rcnt = 0) (hlen : r.rp + 1 < src.len) (hn : 0 < n) (h16 : n ≤ 16) :
    ∃ r₁, takeFlags src n r = .ok ((List.range n).map (flagBitAt src.le src.byte r.rp), r₁) ∧
      r₁.rcnt = 16 - n ∧ r₁.rp = r.rp + 2 := by
  have hload := loadFlags_ok_iff.2 ⟨hlen, rfl⟩
  have hbits : (List.range n).map (fun i => (flagWordAt src.le src.byte r.rp).getLsbD (15 - i)) =
      (List.range n).map (flagBitAt src.le src.byte r.rp) :=
    List.map_congr_left fun i hi => (flagBitAt_eq _ _ _ (by have := List.mem_range.1 hi; omega)).symm
  rw [← hbits]
  obtain ⟨n, rfl⟩ : ∃ k, n = k + 1 := ⟨n - 1, by omega⟩
  rw [takeFlags_of_load h0 hload (Nat.succ_ne_zero 15)]
  exact takeFlags_of_left h16 h16

end Flags

/-- Settles O55: a word loaded is the flag word of the two bytes, of which the bits come from the top down. -/
theorem readerTakesFlagBitsFromTheBytes : Obligations.ReaderTakesFlagBitsFromTheBytes := by
  unfold Obligations.ReaderTakesFlagBitsFromTheBytes
  intro le s r
  refine ⟨getBit_of_left, fun h0 hlen => ?_, fun h0 hlen => ⟨?_, ?_⟩, fun hlt => readByte_ok_iff.2 ⟨hlt, rfl⟩,
    readByte_of_short (src := s.stream le)⟩
  · rw [getBit_of_empty h0, loadFlags_of_short hlen]
    rfl
  · exact getBit_of_word (src := s.stream le) h0 hlen
  · exact takeFlags_of_empty (src := s.stream le) h0 hlen (by decide) (le_refl 16)

end Sys2Proof.Machine
end

section
/-! PROOFS. The dictionary: `INDEX_UPTO` however it is split over calls, and what a lookup in the single slot finds
(41_dictionary R142 to R145). -/

namespace Sys2Proof.Machine

/-- A second `INDEX_UPTO` goes on from where the first has stopped. -/
theorem indexUpto_indexUpto (hash : Hash) (ibuf : Mem) {s s' : Nat} (c : Comp) (hle : s ≤ s') :
    indexUpto hash ibuf s' (indexUpto hash ibuf s c) = indexUpto hash ibuf s' c := by
  have hcount : s' - c.hp = (s - c.hp) + (s' - max c.hp s) := by omega
  have hfrom : c.hp + (s - c.hp) = max c.hp s := by omega
  have hhp : max (max c.hp s) s' = max c.hp s' := by omega
  have hht : indexLoop hash ibuf (s' - max c.hp s) (max c.hp s) (indexLoop hash ibuf (s - c.hp) c.hp c.ht) =
      indexLoop hash ibuf (s' - c.hp) c.hp c.ht := by
    rw [hcount, indexLoop_add, hfrom]
  rw [indexUpto, indexUpto_hp, indexUpto_ht, hhp, hht]
  rfl

/-- From a cleared table, `INDEX_UPTO(s)` leaves the greatest position below `s` of each hash value. -/
theorem htLookup_indexUpto_of_clear (hash : Hash) (ibuf : Mem) (s p : Nat) {c : Comp} (hhp : c.hp = 0)
    (hht : c.ht = htClear) :
    htLookup hash ibuf p (indexUpto hash ibuf s c).ht = lastSameHash hash ibuf p s := by
  have hempty : ∀ q, htLookup hash ibuf q htClear = lastSameHash hash ibuf q 0 := htLookup_htClear hash ibuf
  rw [indexUpto_ht, hhp, hht, htLookup_indexLoop hempty, Nat.sub_zero, Nat.zero_add]

/-- Settles O16: the calls' loops join into one, and from a cleared table the slot holds the greatest position of its
hash value. -/
theorem lookupFindsMostRecent : Obligations.LookupFindsMostRecent := by
  unfold Obligations.LookupFindsMostRecent
  intro hash ibuf s s' p c hhp hht hle
  refine ⟨indexUpto_indexUpto hash ibuf c hle, fun q => ?_⟩
  rw [htLookup_indexUpto_of_clear hash ibuf s p hhp hht]
  exact lastSameHash_eq_some_iff

end Sys2Proof.Machine
end

section
/-! PROOFS. `DECOMPRESS` runs a legal token list that its stream reads as (43_decompress R171 to R176): one token's
effect extends the bytes below `DP` by those the token stands for, and so a list leaves the bytes it stands for. -/

namespace Sys2Proof.Machine

/-! ### Legal token lists -/

/-- A list is legal when its first token is, and the rest is behind the bytes that one produces. -/
theorem tokensOk_cons_iff {len : Nat} {t : Token} {ts : List Token} :
    tokensOk len (t :: ts) = true ↔ tokensOk len [t] = true ∧ tokensOk (len + Token.size t) ts = true := by
  cases t <;> simp [tokensOk, Token.size]

theorem tokensOk_copy_iff {len mlen dist : Nat} :
    tokensOk len [.copy mlen dist] = true ↔ minMatch ≤ mlen ∧ 1 ≤ dist ∧ dist ≤ len := by
  simp [tokensOk, and_assoc]

theorem toInstr_wf_of_tokensOk {len : Nat} {t : Token} (h : tokensOk len [t] = true) : t.toInstr.wf = true := by
  cases t with
  | lit b => rfl
  | copy mlen dist =>
    obtain ⟨hmin, hdist, -⟩ := tokensOk_copy_iff.1 h
    exact copy_wf_iff.2 ⟨hmin, hdist⟩

theorem size_pos_of_tokensOk {len : Nat} {t : Token} (h : tokensOk len [t] = true) : 0 < Token.size t := by
  cases t with
  | lit b => exact Nat.one_pos
  | copy mlen dist => exact lt_of_lt_of_le (by decide) (tokensOk_copy_iff.1 h).1

theorem forall_wf_of_tokensOk {len : Nat} {tokens : List Token} (h : tokensOk len tokens = true) :
    ∀ t ∈ tokens, t.toInstr.wf = true := by
  induction tokens generalizing len with
  | nil => exact fun _ ht => nomatch ht
  | cons t ts ih =>
    obtain ⟨hfirst, hrest⟩ := tokensOk_cons_iff.1 h
    exact List.forall_mem_cons.2 ⟨toInstr_wf_of_tokensOk hfirst, ih hrest⟩

/-! ### A token's effect -/

/-- Each byte of a copy is the one as far behind it as the copy reaches back, the bytes just written among them. -/
theorem memRead_copyBytes_inside {count off dp i : Nat} {m : Mem} (hoff : off < dp) (hi : i < count) :
    memRead (copyBytes count off dp m) (dp + i) = memRead (copyBytes count off dp m) (off + i) := by
  induction count generalizing off dp i m with
  | zero => exact absurd hi (Nat.not_lt_zero i)
  | succ count ih =>
    rw [copyBytes]
    cases i with
    | zero =>
      change memRead _ dp = memRead _ off
      rw [memRead_copyBytes_outside (.inl (Nat.lt_succ_self dp)), memRead_copyBytes_outside (.inl (by omega)),
        memRead_memWrite_same, memRead_memWrite_other _ _ (Nat.ne_of_lt hoff)]
    | succ i =>
      rw [← Nat.add_assoc, ← Nat.add_assoc, Nat.add_right_comm dp, Nat.add_right_comm off]
      exact ih (by omega) (by omega)

theorem memBytes_copyBytes {mlen dist dp : Nat} {m : Mem} (hpos : 1 ≤ dist) (hdist : dist ≤ dp) :
    memBytes (copyBytes mlen (dp - dist) dp m) 0 (dp + mlen) = extendCopy mlen dist (memBytes m 0 dp) := by
  have hbefore : memBytes (copyBytes mlen (dp - dist) dp m) 0 dp = memBytes m 0 dp :=
    memBytes_congr fun i hi => memRead_copyBytes_outside (.inl (by omega))
  have hcopy := extendCopy_memBytes (mlen := mlen) (c := dp - dist) (p := dp) (by omega) fun i hi =>
    (memRead_copyBytes_inside (m := m) (by omega) hi).symm
  rwa [Nat.sub_sub_self hdist, hbefore, eq_comm] at hcopy

theorem memBytes_memWrite_end (m : Mem) (n : Nat) (b : Byte) :
    memBytes (memWrite m n b) 0 (n + 1) = memBytes m 0 n ++ [b] := by
  rw [memBytes_succ, Nat.zero_add, memRead_memWrite_same]
  exact congrArg (· ++ [b]) (memBytes_congr fun i hi => memRead_memWrite_other _ _ (by omega))

/-- A legal token with room does not fault, and extends the bytes below `DP`. -/
theorem tokenEffect_of_tokensOk {n : Nat} {t : Token} {d : Dec} (hok : tokensOk d.dp [t] = true)
    (hroom : d.dp + Token.size t ≤ n) :
    ∃ m, tokenEffect n t d = .ok { d with obuf := m, dp := d.dp + Token.size t } ∧
      memBytes m 0 (d.dp + Token.size t) = applyToken (memBytes d.obuf 0 d.dp) t := by
  cases t with
  | lit b => exact ⟨_, rfl, memBytes_memWrite_end d.obuf d.dp b⟩
  | copy mlen dist =>
    obtain ⟨-, hpos, hdist⟩ := tokensOk_copy_iff.1 hok
    simp only [Token.size] at hroom
    refine ⟨copyBytes mlen (d.dp - dist) d.dp d.obuf, ?_, memBytes_copyBytes hpos hdist⟩
    change tokMatch n mlen dist d = _
    rw [tokMatch, if_neg (by omega), if_neg (by omega)]
    rfl

/-! ### The loop and the command -/

section Run
variable {src : Stream} {n fuel : Nat} {t : Token} {tokens : List Token} {r r' : BitReader} {d : Dec}

theorem dStep_of_tokensOk (hfetch : fetchFrom src d.br = .ok (t, r)) (hok : tokensOk d.dp [t] = true)
    (hroom : d.dp + Token.size t ≤ n) :
    ∃ m, dStep src n d = .ok { br := r, dp := d.dp + Token.size t, obuf := m } ∧
      memBytes m 0 (d.dp + Token.size t) = applyToken (memBytes d.obuf 0 d.dp) t := by
  obtain ⟨m, heffect, hbytes⟩ := tokenEffect_of_tokensOk (d := { d with br := r }) hok hroom
  refine ⟨m, ?_, hbytes⟩
  rw [dStep, hfetch]
  simp only [heffect]

/-- `D_MAIN` runs a legal list that fills the output exactly. -/
theorem dMain_of_tokensOk (hread : readTokens src tokens.length d.br = .ok (tokens, r'))
    (hok : tokensOk d.dp tokens = true) (hsum : d.dp + (tokens.map Token.size).sum = n) (hfuel : n - d.dp ≤ fuel) :
    ∃ m, dMain src n fuel d = .ok { br := r', dp := n, obuf := m } ∧
      memBytes m 0 n = tokens.foldl applyToken (memBytes d.obuf 0 d.dp) := by
  induction tokens generalizing d fuel with
  | nil =>
    obtain ⟨br, dp, obuf⟩ := d
    obtain rfl : dp = n := hsum
    obtain rfl : br = r' := (Prod.mk.inj (Except.ok.inj hread)).2
    exact ⟨obuf, dMain_of_done fuel (le_refl dp), rfl⟩
  | cons t ts ih =>
    obtain ⟨hfirst, hrest⟩ := tokensOk_cons_iff.1 hok
    obtain ⟨t, r, ts, r', hfetch, hmore, heq⟩ := readTokens_succ_ok_iff.1 hread
    obtain ⟨⟨rfl, rfl⟩, rfl⟩ : (_ = t ∧ _ = ts) ∧ _ = r' := by simpa using heq
    rw [List.map_cons, List.sum_cons] at hsum
    have hpos := size_pos_of_tokensOk hfirst
    obtain ⟨m, hstep, hbytes⟩ := dStep_of_tokensOk (n := n) hfetch hfirst (by omega)
    obtain ⟨fuel, rfl⟩ : ∃ k, fuel = k + 1 := ⟨fuel - 1, by omega⟩
    rw [dMain_succ, if_pos (by omega), hstep, List.foldl_cons, ← hbytes]
    exact ih hmore hrest (by simp only; omega) (by simp only; omega)

/-- `DECOMPRESS` of a stream that reads as a legal list for N bytes completes with the bytes the list stands for. -/
theorem decompressWhole_of_tokensOk {le : Bool} {s : State} (hcap : s.inLen ≤ inCap) (hlen : 4 < s.inLen)
    (hN : s.rawLen ≤ sizeMax) (hread : readTokens (s.stream le) tokens.length readerAtBody = .ok (tokens, r'))
    (hok : tokensOk 1 tokens = true) (hsum : 1 + (tokens.map Token.size).sum = s.rawLen) :
    ∃ m, decompressWhole le s = decompressDone (s.setDec { br := r', dp := s.rawLen, obuf := m }) ∧
      memBytes m 0 s.rawLen = expand (memRead s.ibuf 4) tokens := by
  have hinit : dInit le s = .ok { br := readerAtBody, dp := 1, obuf := memWrite s.obuf 0 (memRead s.ibuf 4) } := by
    rcases dInit_cases le s with ⟨h, -⟩ | ⟨h, -⟩ | ⟨-, -, h, -⟩ | ⟨-, -, -, h⟩
    · omega
    · omega
    · omega
    · exact h
  obtain ⟨m, hmain, hbytes⟩ := dMain_of_tokensOk
    (d := { br := readerAtBody, dp := 1, obuf := memWrite s.obuf 0 (memRead s.ibuf 4) }) hread hok hsum (le_refl _)
  refine ⟨m, ?_, by rw [hbytes, memBytes_memWrite_end]; rfl⟩
  rw [decompressWhole, if_neg (Nat.not_lt.2 hcap), hinit]
  exact decompressRest_of_ok hmain

end Run

end Sys2Proof.Machine
end

section
/-! PROOFS. The round trip (42_compress R164 (a)): any stream that carries the bytes `ASSEMBLE` has left reads back as
the token list, and `COMPRESS` that ends in `DONE` has left those of the list its matcher chooses. -/

namespace Sys2Proof.Machine

/-! ### A stream that carries what `ASSEMBLE` has left -/

/-- The stream has the bytes a writer has left below `WP`. -/
structure Carries (src : Stream) (o : Out) : Prop where
  len : o.bw.wp ≤ src.len
  bytes : ∀ a, a < o.bw.wp → src.byte a = memRead o.obuf a

section Carries
variable {src : Stream} {n : Nat} {first : Byte} {tokens : List Token} {obuf : Mem} {o o' : Out}

theorem finishOut_holds_of_carries (hok : WriterOk o) (h : finishOut src.le o = .ok o') (hc : Carries src o') :
    Holds src o := by
  have hrsv := hok.reserved
  have hpad := le_padded o'.bw.wp
  obtain ⟨-, hbytes, hflags⟩ := finishOut_holds hok h
  have hbw := finishOut_bw h
  obtain ⟨hlen, hcarry⟩ := hc
  rw [hbw] at hlen hcarry hpad
  have hsame {a : Nat} (ha : a < o.bw.wp) :
      (streamOf src.le (memBytes o'.obuf 0 (padded o'.bw.wp))).byte a = src.byte a := by
    rw [streamOf_memBytes _ _ (by rw [hbw]; omega), hcarry a ha]
  refine ⟨hlen, fun a ha h₁ h₂ => ?_, fun j hj => ?_⟩
  · rw [← hsame ha, hbytes a ha h₁ h₂]
  · rw [flagWordAt, ← hsame (by omega), ← hsame (by omega)]
    exact hflags j hj

theorem assembleInto_wp_le {le : Bool} (h : assembleInto le n first tokens obuf = .ok o) : o.bw.wp ≤ compCap :=
  assembleInto_wp h ▸ assembleInto_fits_iff.1 ⟨o, h⟩

section Assembled
variable (h : assembleInto src.le n first tokens obuf = .ok o) (hc : Carries src o)
include h hc

/-- The header's bytes, the size field and the first literal, stand in the stream (30_encoding R95). -/
theorem header_of_carries {a : Nat} (ha : a < 5) : src.byte a = memRead (header src.le n first obuf).obuf a := by
  obtain ⟨o₁, hemit, hfinish⟩ := assembleInto_ok_iff.1 h
  have hholds := finishOut_holds_of_carries (emitTokens_header_writerAt hemit).1 hfinish hc
  have hhead := emitTokens_holds (header_writerAt src.le n first obuf).ok hemit hholds
  exact hhead.bytes a (Nat.lt_add_right 2 ha) (Nat.ne_of_lt ha) (Nat.ne_of_lt (Nat.lt_succ_of_lt ha))

theorem first_of_carries : src.byte 4 = first :=
  (header_of_carries h hc (by decide)).trans (memRead_memWrite_same _ 4 first)

theorem readTokens_of_carries (hwf : ∀ t ∈ tokens, t.toInstr.wf = true) :
    ∃ r, readTokens src tokens.length readerAtBody = .ok (tokens, r) := by
  obtain ⟨o₁, hemit, hfinish⟩ := assembleInto_ok_iff.1 h
  have hholds := finishOut_holds_of_carries (emitTokens_header_writerAt hemit).1 hfinish hc
  obtain ⟨r, hread, -⟩ := emitTokens_read hwf (header_writerAt src.le n first obuf).ok hemit hholds
    (readerAtBody_meets src src.le n first obuf)
  exact ⟨r, hread⟩

end Assembled

end Carries

/-! ### `COMPRESS` that ends in `DONE` -/

section Done
variable {hash : Hash} {le : Bool} {s s' : State}

theorem normalise_rawLen_eq (hcap : s.inLen ≤ inCap) (hn : normalise s = .ok s') : s'.rawLen = normalisedLen s := by
  unfold inCap at hcap
  rcases normalise_cases s with ⟨-, h⟩ | ⟨-, -, -, h⟩ | ⟨-, hlast, -, h⟩ | ⟨-, hlast, h⟩ <;> cases hn.symm.trans h
  · rw [normalisedLen, if_pos hlast, State.rawLen, BitVec.toNat_ofNat, Nat.mod_eq_of_lt (by omega)]
  · rw [normalisedLen, if_neg (not_not_intro hlast), State.rawLen, BitVec.toNat_ofNat, Nat.mod_eq_of_lt (by omega)]

/-- `COMPRESS` that completes has normalised its input and left what `ASSEMBLE` of the chosen tokens leaves. -/
theorem compressWith_done (h : (compressWith hash le s).phase = .done) :
    ∃ s' c, s.inLen ≤ inCap ∧ normalise s = .ok s' ∧
      assembleInto le s'.rawLen (memRead s.ibuf 0) (chosenTokens hash s'.ibuf s'.rawLen s'.rawLen 1) s.obuf =
        .ok c.out ∧
      compressWith hash le s = compressDone c s' := by
  rcases compressWith_cases hash le s with ⟨-, h'⟩ | ⟨-, _, -, h'⟩ | ⟨-, _, _, -, -, h'⟩ | ⟨hcap, s', c, hn, hb, h'⟩
  · rw [h'] at h; cases h
  · rw [h'] at h; cases h
  · rw [h'] at h; cases h
  · have hbody := outPart_compressBody hash le s'.ibuf s'.rawLen s'.obuf
    rw [hb, normalise_first hcap hn, normalise_obuf hn] at hbody
    exact ⟨s', c, hcap, hn, hbody.symm, h'⟩

/-- `OLEN` and `OPAD` of a list that fits hold CLEN and PLEN. -/
theorem compressDone_lengths {c : Comp} (hfit : c.out.bw.wp ≤ compCap) :
    (compressDone c s).olen.toNat = c.out.bw.wp ∧ (compressDone c s).opad.toNat = padded c.out.bw.wp := by
  have hpad := padded_le_compCap hfit
  unfold compCap at hfit hpad
  rw [compressDone_olen, compressDone_opad, BitVec.toNat_ofNat, BitVec.toNat_ofNat]
  omega

/-- The chosen tokens stand for N bytes. -/
theorem chosenTokens_size_sum (hcap : s.inLen ≤ inCap) (hn : normalise s = .ok s') :
    1 + ((chosenTokens hash s'.ibuf s'.rawLen s'.rawLen 1).map Token.size).sum = s'.rawLen := by
  obtain ⟨-, hexpand, -, -⟩ := compressAssemblesChosenTokens hash false s s' _ hcap hn rfl
  rw [← expand_length (memRead s.ibuf 0), hexpand, List.length_map, List.length_range]

end Done

/-- Settles O19: the decompressor's stream carries what `ASSEMBLE` of the chosen tokens has left, whichever of the two
lengths it is given, so it reads as those tokens, which stand for the normalised input. -/
theorem compressThenDecompressRestoresInput : Obligations.CompressThenDecompressRestoresInput := by
  unfold Obligations.CompressThenDecompressRestoresInput
  rintro hash le s _ u rfl hdone hlen hrawlen hbytes
  obtain ⟨s', c, hcap, hn, hassemble, hend⟩ := compressWith_done hdone
  obtain ⟨hok, hexpand, -, -⟩ := compressAssemblesChosenTokens hash le s s' _ hcap hn rfl
  have hfit := assembleInto_wp_le hassemble
  obtain ⟨holen, hopad⟩ := compressDone_lengths (s := s') hfit
  have hpad := le_padded c.out.bw.wp
  have hpadcap := padded_le_compCap hfit
  have hmin : 7 ≤ c.out.bw.wp := by rw [assembleInto_wp hassemble, streamLen]; omega
  have hN : u.rawLen = s'.rawLen := by rw [State.rawLen, hrawlen, hend]; rfl
  have hNcap : s'.rawLen ≤ sizeMax := (normalise_rawLen hcap hn).2
  rw [hend, holen, hopad] at hlen
  rw [hend, compressDone_obuf] at hbytes
  have hcarries : Carries (u.stream le) c.out :=
    ⟨by change _ ≤ u.inLen; omega, fun a ha => hbytes a (by omega)⟩
  obtain ⟨r, hread⟩ := readTokens_of_carries (src := u.stream le) hassemble hcarries (forall_wf_of_tokensOk hok)
  have hfirst : memRead u.ibuf 4 = memRead s.ibuf 0 := first_of_carries (src := u.stream le) hassemble hcarries
  unfold compCap at hpadcap
  obtain ⟨m, hrun, hout⟩ := decompressWhole_of_tokensOk (by unfold inCap; omega) (by omega) (hN ▸ hNcap) hread hok
    ((chosenTokens_size_sum hcap hn).trans hN.symm)
  rw [hfirst, hexpand, hN] at hout
  refine ⟨decompressWhole le u, rfl, ?_⟩
  rw [hrun, ← normalise_rawLen_eq hcap hn]
  unfold sizeMax at hNcap
  refine ⟨rfl, ?_, rfl, fun a ha => ?_⟩
  · rw [decompressDone_olen, setDec_rawLen, hN, BitVec.toNat_ofNat, Nat.mod_eq_of_lt (by omega)]
  · have hbyte := congrArg (·[a]?) hout
    simpa [ha, memBytes_getElem] using hbyte

end Sys2Proof.Machine
end

section
/-! PROOFS. `NORMALISE` and the faults before anything is written (42_compress R150, 30_encoding R92), `MATCHLEN`
(R153), and CLEN against the capacity (R162). -/

namespace Sys2Proof.Machine

/-! ### `NORMALISE` and the early faults -/

section Normalise
variable {s s' : State} {le : Bool} {cause : Cause}

theorem normalise_of_empty (h0 : s.inLen = 0) : normalise s = .error .emptyInput := if_pos h0

theorem normalise_of_full (hfull : s.inLen = inCap) (hlast : memRead s.ibuf (s.inLen - 1) ≠ 0) :
    normalise s = .error .inputTooLong := by
  have h0 : s.inLen ≠ 0 := hfull ▸ Nat.succ_ne_zero 0x1FFFF
  rw [normalise, if_neg h0, if_pos hlast, if_pos hfull]

/-- A normalised input ends in a zero byte. -/
theorem normalise_last (hcap : s.inLen ≤ inCap) (hn : normalise s = .ok s') : memRead s'.ibuf (s'.rawLen - 1) = 0 := by
  have hpos := (normalise_rawLen hcap hn).1
  rw [normalise_memRead hcap hn (by omega), normalise_rawLen_eq hcap hn, normalisedByte, normalisedLen]
  by_cases hlast : memRead s.ibuf (s.inLen - 1) = 0
  · rw [if_neg (not_not_intro hlast), hlast, ite_self]
  · rw [if_pos hlast, Nat.add_sub_cancel, if_neg (lt_irrefl _)]

theorem compressWith_of_range (hash : Hash) (h : inCap < s.inLen) : compressWith hash le s = raise .ilenRange s :=
  if_pos h

theorem compressWith_of_normalise_error (hash : Hash) (hcap : s.inLen ≤ inCap) (hn : normalise s = .error cause) :
    compressWith hash le s = raise cause s := by
  rw [compressWith, if_neg (Nat.not_lt.2 hcap), hn]

theorem execCompress_faultsWith (h : compressWith Config.params.hash le s = raise cause s) :
    FaultsWith (faultCode cause) s (exec (.compress le) s) := by
  change FaultsWith _ s (.next (compressWith Config.params.hash le s))
  rw [h]
  exact raise_faultsWith cause s

end Normalise

/-- Settles O14: the two faults by their conditions; otherwise by whether the last byte is zero. -/
theorem normaliseRule : Obligations.NormaliseRule := by
  unfold Obligations.NormaliseRule
  intro s hcap
  refine ⟨normalise_of_empty, normalise_of_full, fun hpos hfull => ?_⟩
  rcases normalise_cases s with ⟨h0, -⟩ | ⟨-, hlast, h, -⟩ | ⟨-, hlast, -, hn⟩ | ⟨-, -, hn⟩
  · omega
  · exact absurd (hfull h) hlast
  · obtain ⟨hN, hNcap⟩ := normalise_rawLen hcap hn
    exact ⟨_, hn, rfl, normalise_rawLen_eq hcap hn, hN, hNcap, normalise_last hcap hn,
      fun a ha => memRead_memWrite_other s.ibuf 0 (ha.resolve_right hlast)⟩
  · obtain ⟨hN, hNcap⟩ := normalise_rawLen hcap hn
    exact ⟨_, hn, rfl, normalise_rawLen_eq hcap hn, hN, hNcap, normalise_last hcap hn, fun _ _ => rfl⟩

/-- Settles O21: `ILEN` is tested first, and then `NORMALISE` faults. -/
theorem compressInputFaults : Obligations.CompressInputFaults := by
  unfold Obligations.CompressInputFaults
  intro le s
  refine ⟨fun hrange => ?_, fun h0 => ?_, fun hfull hlast => ?_⟩
  · exact execCompress_faultsWith (cause := .ilenRange) (compressWith_of_range _ hrange)
  · exact execCompress_faultsWith (cause := .emptyInput)
      (compressWith_of_normalise_error _ (h0 ▸ Nat.zero_le inCap) (normalise_of_empty h0))
  · exact execCompress_faultsWith (cause := .inputTooLong)
      (compressWith_of_normalise_error _ hfull.le (normalise_of_full hfull hlast))

/-! ### `MATCHLEN` -/

/-- The loop stops short of the buffer's end only at a difference. -/
theorem matchLoop_stops {ibuf : Mem} {c s fuel k : Nat} (h : matchLoop ibuf c s fuel k < k + fuel) :
    memRead ibuf (c + matchLoop ibuf c s fuel k) ≠ memRead ibuf (s + matchLoop ibuf c s fuel k) := by
  induction fuel generalizing k with
  | zero => exact absurd h (lt_irrefl k)
  | succ fuel ih =>
    rw [matchLoop] at h ⊢
    split_ifs at h ⊢ with heq
    · exact ih (by omega)
    · exact heq

theorem matchLen_stops {ibuf : Mem} {n c s : Nat} (h : s + matchLen ibuf n c s < n) :
    memRead ibuf (c + matchLen ibuf n c s) ≠ memRead ibuf (s + matchLen ibuf n c s) :=
  matchLoop_stops (by change matchLen ibuf n c s < 0 + (n - s); omega)

/-- Settles O15: the loop counts equal bytes and stops at a difference; in the example the first is at 999. -/
theorem matchLengthIsMaximal : Obligations.MatchLengthIsMaximal := by
  unfold Obligations.MatchLengthIsMaximal
  refine ⟨fun ibuf n c s _ _ => ⟨matchLen_le ibuf n c s, fun i hi => matchLen_agree hi, matchLen_stops⟩,
    fun ibuf hrun hend => ?_⟩
  rcases lt_trichotomy (matchLen ibuf 1001 0 1) 999 with hlt | heq | hgt
  · have hdiffer := matchLen_stops (ibuf := ibuf) (n := 1001) (c := 0) (s := 1) (by omega)
    exact absurd ((hrun _ (by omega)).trans (hrun _ (by omega)).symm) hdiffer
  · exact heq
  · have hlast : memRead ibuf 999 = memRead ibuf 1000 := matchLen_agree (c := 0) (s := 1) hgt
    rw [hrun 999 (by decide), hend] at hlast
    cases hlast

/-! ### CLEN and the capacity -/

/-- Settles O9: what is written is counted by flag bits and tokens, and fits exactly when CLEN does. -/
theorem streamLengthDecidesOverflow : Obligations.StreamLengthDecidesOverflow := by
  unfold Obligations.StreamLengthDecidesOverflow
  exact fun le n first tokens obuf => ⟨assembleInto_fits_iff, fun o h => assembleInto_wp h⟩

end Sys2Proof.Machine
end

section
/-! PROOFS. What `COMPRESS` leaves of `OBUF` and of the other registers, and that a short enough input never meets the
end of the buffer (42_compress R160 to R162). -/

namespace Sys2Proof.Machine

/-! ### The bytes outside what is written -/

/-- From `o` to `o'` the write cursor has not gone back, and nothing has been written at or above it. -/
structure WritesBelowWp (o o' : Out) : Prop where
  wp : o.bw.wp ≤ o'.bw.wp
  bytes : ∀ a, o'.bw.wp ≤ a → memRead o'.obuf a = memRead o.obuf a

section Bytes
variable {le b : Bool} {v first : Byte} {bits : List Bool} {t : Token} {tokens : List Token} {n a : Nat} {obuf : Mem}
  {o o₁ o' : Out}

theorem WritesBelowWp.refl (o : Out) : WritesBelowWp o o := ⟨le_refl _, fun _ _ => rfl⟩

theorem WritesBelowWp.trans (h₁ : WritesBelowWp o o₁) (h₂ : WritesBelowWp o₁ o') : WritesBelowWp o o' :=
  ⟨h₁.wp.trans h₂.wp, fun a ha => (h₂.bytes a ha).trans (h₁.bytes a (h₂.wp.trans ha))⟩

theorem putBit_writesBelowWp (hok : WriterOk o) (h : putBit le b o = .ok o') : WritesBelowWp o o' := by
  have hrsv := hok.reserved
  by_cases h0 : o.bw.wcnt = 0
  · obtain ⟨-, rfl⟩ := (putBit_of_full h0).1 h
    refine ⟨Nat.le_add_right _ 2, fun a ha => ?_⟩
    change o.bw.wp + 2 ≤ a at ha
    rw [memRead_memWrite_other _ _ (by omega), memRead_memWrite_other _ _ (by omega)]
  · rw [putBit_of_room h0] at h
    obtain rfl := Except.ok.inj h
    exact ⟨le_refl _, fun _ _ => rfl⟩

theorem putBits_writesBelowWp (hok : WriterOk o) (h : putBits le bits o = .ok o') : WritesBelowWp o o' := by
  induction bits generalizing o with
  | nil => exact Except.ok.inj h ▸ .refl o
  | cons b bits ih =>
    obtain ⟨o₁, h₁, h⟩ := bind_ok_iff.1 h
    exact (putBit_writesBelowWp hok h₁).trans (ih (putBit_ok hok h₁) h)

theorem appendByte_writesBelowWp (h : appendByte v o = .ok o') : WritesBelowWp o o' := by
  obtain ⟨-, rfl⟩ := appendByte_ok_iff.1 h
  exact ⟨Nat.le_succ _, fun a ha => memRead_memWrite_other _ _ (Nat.ne_of_gt ha)⟩

theorem emitToken_writesBelowWp (hok : WriterOk o) (h : emitToken le t o = .ok o') : WritesBelowWp o o' := by
  rw [emitToken_eq] at h
  obtain ⟨o₁, h₁, h⟩ := bind_ok_iff.1 h
  exact (putBits_writesBelowWp hok h₁).trans (appendByte_writesBelowWp h)

theorem emitTokens_writesBelowWp (hok : WriterOk o) (h : emitTokens le tokens o = .ok o') : WritesBelowWp o o' := by
  induction tokens generalizing o with
  | nil => exact Except.ok.inj h ▸ .refl o
  | cons t ts ih =>
    obtain ⟨o₁, h₁, h⟩ := bind_ok_iff.1 h
    exact (emitToken_writesBelowWp hok h₁).trans (ih (emitToken_ok hok h₁) h)

theorem finalize_writesBelowWp (hok : WriterOk o) (h : finalize le o = .ok o') : WritesBelowWp o o' := by
  have hrsv := hok.reserved
  refine ⟨(finalize_bw h).symm ▸ le_refl _, fun a ha => ?_⟩
  rw [finalize_bw h] at ha
  exact memRead_putHalfAt_other h (by omega) (by omega)

/-- The filler's bytes, and those behind it. -/
theorem memRead_padFrom {count : Nat} (h : padFrom a count o = .ok o') {x : Nat} (hx : a ≤ x) :
    memRead o'.obuf x = if x < a + count then fill else memRead o.obuf x := by
  induction count generalizing a o with
  | zero => exact Except.ok.inj h ▸ (if_neg (Nat.not_lt.2 hx)).symm
  | succ count ih =>
    obtain ⟨o₁, h₁, h⟩ := bind_ok_iff.1 h
    obtain ⟨-, rfl⟩ := putByteAt_ok_iff.1 h₁
    rcases Nat.eq_or_lt_of_le hx with rfl | hlt
    · rw [(padFrom_frame h).2 a (Nat.lt_succ_self a), if_pos (by omega)]
      exact memRead_memWrite_same _ a fill
    · rw [ih h hlt, show a + 1 + count = a + (count + 1) by omega]
      exact if_congr Iff.rfl rfl (memRead_memWrite_other o.obuf fill (Nat.ne_of_gt hlt))

theorem memRead_header_above (ha : 5 ≤ a) : memRead (header le n first obuf).obuf a = memRead obuf a :=
  (memRead_memWrite_other _ _ (Nat.ne_of_gt ha)).trans (memRead_memWrite4_other _ _ _ (.inr (by omega)))

/-- From CLEN on, `ASSEMBLE` writes the filler up to PLEN and nothing behind it. -/
theorem memRead_assembleInto_above (h : assembleInto le n first tokens obuf = .ok o) (ha : o.bw.wp ≤ a) :
    memRead o.obuf a = if a < padded o.bw.wp then fill else memRead obuf a := by
  obtain ⟨o₁, hemit, hfinish⟩ := assembleInto_ok_iff.1 h
  obtain ⟨hok, hwp⟩ := emitTokens_header_writerAt hemit
  have hbw := finishOut_bw hfinish
  obtain ⟨o₂, hfinal, hpad⟩ := finishOut_ok_iff.1 hfinish
  have hwritten := (emitTokens_writesBelowWp (header_writerAt le n first obuf).ok hemit).trans
    (finalize_writesBelowWp hok hfinal)
  have hle := le_padded o.bw.wp
  have hfive : 5 ≤ o.bw.wp := by rw [hbw, hwp, streamLen]; omega
  rw [finalize_bw hfinal, ← hbw] at hpad
  rw [memRead_padFrom hpad ha, Nat.add_sub_cancel' hle,
    hwritten.bytes a (by rwa [finalize_bw hfinal, ← hbw]), memRead_header_above (hfive.trans ha)]

/-- The header stays in front of what `ASSEMBLE` writes. -/
theorem memRead_assembleInto_header (h : assembleInto le n first tokens obuf = .ok o) (ha : a < 5) :
    memRead o.obuf a = memRead (header le n first obuf).obuf a :=
  header_of_carries (src := { byte := memRead o.obuf, len := o.bw.wp, le := le }) h ⟨le_refl _, fun _ _ => rfl⟩ ha

theorem assembleInto_first (h : assembleInto le n first tokens obuf = .ok o) : memRead o.obuf 4 = first :=
  (memRead_assembleInto_header h (by decide)).trans (memRead_memWrite_same _ 4 first)

theorem assembleInto_sizeField (h : assembleInto le n first tokens obuf = .ok o) :
    memRead4 le o.obuf 0 = BitVec.ofNat 32 n := by
  have hbyte {a : Nat} (ha : a < 4) : memRead o.obuf a = memRead (memWrite4 le obuf 0 (BitVec.ofNat 32 n)) a :=
    (memRead_assembleInto_header h (by omega)).trans (memRead_memWrite_other _ _ (Nat.ne_of_lt ha))
  rw [memRead4, hbyte (by decide), hbyte (by decide), hbyte (by decide), hbyte (by decide)]
  exact memRead4_memWrite4 le obuf 0 _

end Bytes

/-! ### The frame of `COMPRESS` -/

section Frame
variable {hash : Hash} {le : Bool} {s : State}

/-- The registers `COMPRESS` can write (42_compress R160; 10_state R45). -/
theorem compressWith_registers (hash : Hash) (le : Bool) (s : State) :
    compressWith hash le s =
      { s with
        phase := (compressWith hash le s).phase, pos := .start, fault := (compressWith hash le s).fault,
        rawlen := (compressWith hash le s).rawlen, olen := (compressWith hash le s).olen,
        opad := (compressWith hash le s).opad, bw := (compressWith hash le s).bw, sp := (compressWith hash le s).sp,
        hp := (compressWith hash le s).hp, ht := (compressWith hash le s).ht, ibuf := (compressWith hash le s).ibuf,
        obuf := (compressWith hash le s).obuf } := by
  rcases compressWith_cases hash le s with ⟨-, h⟩ | ⟨-, _, -, h⟩ | ⟨-, s', c, hn, -, h⟩ | ⟨-, s', c, hn, -, h⟩ <;>
    rw [h]
  · rfl
  · rfl
  all_goals obtain ⟨-, ⟨-, rfl⟩ | rfl⟩ := normalise_ok_cases hn <;> rfl

theorem compressWith_ibuf_other (hash : Hash) (le : Bool) {a : Nat} (ha : a ≠ s.inLen) :
    memRead (compressWith hash le s).ibuf a = memRead s.ibuf a := by
  obtain ⟨-, -, -, h | h⟩ := compressWith_frame hash le s <;> rw [h]
  exact memRead_memWrite_other _ _ ha

/-- A fault of `COMPRESS` leaves the lengths, and is one of the four it can raise (60_exceptions R239). -/
theorem compressWith_flt (h : (compressWith hash le s).phase = .flt) :
    (compressWith hash le s).olen = s.olen ∧ (compressWith hash le s).opad = s.opad ∧
      ∃ cause ∈ [Cause.ilenRange, .emptyInput, .inputTooLong, .outOverflow],
        (compressWith hash le s).fault = faultCode cause := by
  rcases compressWith_cases hash le s with
    ⟨-, h'⟩ | ⟨-, cause, hn, h'⟩ | ⟨-, s', c, hn, -, h'⟩ | ⟨-, s', c, -, -, h'⟩ <;> rw [h'] at h ⊢
  · exact ⟨rfl, rfl, _, by simp, rfl⟩
  · refine ⟨rfl, rfl, cause, ?_, rfl⟩
    rcases normalise_cases s with ⟨-, h₀⟩ | ⟨-, -, -, h₀⟩ | ⟨-, -, -, h₀⟩ | ⟨-, -, h₀⟩ <;> cases hn.symm.trans h₀ <;>
      simp
  · obtain ⟨-, ⟨-, rfl⟩ | rfl⟩ := normalise_ok_cases hn <;> exact ⟨rfl, rfl, _, by simp, rfl⟩
  · cases h

/-- `COMPRESS` that completes writes below `OPAD` only. -/
theorem compressWith_done_obuf (h : (compressWith hash le s).phase = .done) :
    (compressWith hash le s).opad.toNat ≤ compCap ∧
      ∀ a, (compressWith hash le s).opad.toNat ≤ a → memRead (compressWith hash le s).obuf a = memRead s.obuf a := by
  obtain ⟨s', c, -, -, hassemble, hend⟩ := compressWith_done h
  have hfit := assembleInto_wp_le hassemble
  rw [hend, (compressDone_lengths hfit).2]
  refine ⟨padded_le_compCap hfit, fun a ha => ?_⟩
  rw [compressDone_obuf, memRead_assembleInto_above hassemble ((le_padded _).trans ha), if_neg (Nat.not_lt.2 ha)]

end Frame

/-- Settles O20: by the ways `COMPRESS` can end. -/
theorem compressFrame : Obligations.CompressFrame := by
  unfold Obligations.CompressFrame
  rintro le s _ ⟨⟩
  refine ⟨compressWith_registers _ le s, fun a ha => compressWith_ibuf_other _ le ha, fun hdone => ?_, fun hflt => ?_,
    compressWith_phase _ le s⟩
  · obtain ⟨-, ⟨hflt, -⟩ | ⟨-, hfault⟩⟩ := compressWith_ends Config.params.hash le s
    · cases hdone.symm.trans hflt
    · exact ⟨hfault, compressWith_done_obuf hdone⟩
  · obtain ⟨holen, hopad, cause, hcause, hfault⟩ := compressWith_flt hflt
    refine ⟨holen, hopad, hfault ▸ ?_⟩
    exact List.mem_map_of_mem (f := faultCode) hcause

/-! ### A short enough input fits (42_compress R162) -/

section Fits
variable {len n : Nat} {t : Token} {tokens : List Token}

/-- A token over at most 29122 bytes costs no more, in flag bits and bytes, than the literals of the bytes it covers:
9 bits each. A distance that short has a code of at most six digits. -/
theorem token_cost_le (hok : tokensOk len [t] = true) (hlen : len ≤ 29122) : t.flags.length + 8 ≤ 9 * Token.size t := by
  cases t with
  | lit b => exact le_refl 9
  | copy mlen dist =>
    obtain ⟨hmin, hpos, hdist⟩ := tokensOk_copy_iff.1 hok
    have hlencode := Nat.log2_le_self (mlen - 2)
    have hdistcode : Nat.log2 ((dist - 1) / 256 + 2) < 7 := (Nat.log2_lt (by omega)).2 (by norm_num; omega)
    rw [Token.flags_of_wf ⟨hmin, hpos⟩, matchFlags, List.length_cons, List.length_append, vlcBits_length,
      vlcBits_length]
    unfold minMatch at hmin
    simp only [Token.size]
    omega

theorem tokens_cost_le (hok : tokensOk len tokens = true) (hsum : len + (tokens.map Token.size).sum ≤ 29122) :
    flagCount tokens + 8 * tokens.length ≤ 9 * (tokens.map Token.size).sum := by
  induction tokens generalizing len with
  | nil => exact le_refl 0
  | cons t ts ih =>
    obtain ⟨hfirst, hrest⟩ := tokensOk_cons_iff.1 hok
    rw [List.map_cons, List.sum_cons] at hsum ⊢
    have hcost := token_cost_le hfirst (by omega)
    have hmore := ih hrest (by omega)
    rw [flagCount_cons, List.length_cons]
    omega

/-- CLEN of a legal list for at most 29122 bytes is at most that of as many literals, which fill the buffer. -/
theorem streamLen_le_of_short (hok : tokensOk 1 tokens = true) (hsum : 1 + (tokens.map Token.size).sum ≤ 29122) :
    streamLen tokens ≤ compCap := by
  have hcost := tokens_cost_le hok hsum
  unfold streamLen compCap
  omega

end Fits

theorem normalise_of_short {s : State} (hpos : 0 < s.inLen) (hcap : s.inLen < inCap) : ∃ s', normalise s = .ok s' := by
  rcases normalise_cases s with ⟨h, -⟩ | ⟨-, -, h, -⟩ | ⟨-, -, -, h⟩ | ⟨-, -, h⟩
  · omega
  · omega
  · exact ⟨_, h⟩
  · exact ⟨_, h⟩

theorem inLen_le_normalisedLen (s : State) : s.inLen ≤ normalisedLen s := by
  unfold normalisedLen
  split_ifs
  · exact Nat.le_succ _
  · exact le_refl _

theorem compressWith_done_of_short {s : State} (hash : Hash) (le : Bool) (hpos : 0 < s.inLen)
    (hN : normalisedLen s ≤ 29122) : (compressWith hash le s).phase = .done := by
  have hlen := inLen_le_normalisedLen s
  have hcap : s.inLen < inCap := by unfold inCap; omega
  obtain ⟨s', hn⟩ := normalise_of_short hpos hcap
  obtain ⟨hok, -, hfits, -⟩ := compressAssemblesChosenTokens hash le s s' _ hcap.le hn rfl
  have hsum := chosenTokens_size_sum (hash := hash) hcap.le hn
  rw [← normalise_rawLen_eq hcap.le hn, ← hsum] at hN
  exact (hfits (streamLen_le_of_short hok hN)).1

/-- Settles O17: the chosen tokens cost no more than literals, so the command completes, and what it leaves is what
`ASSEMBLE` leaves. -/
theorem compressCompletes : Obligations.CompressCompletes := by
  unfold Obligations.CompressCompletes
  intro le s hpos hN
  have hdone := compressWith_done_of_short Config.params.hash le hpos hN
  obtain ⟨-, ⟨hflt, -⟩ | ⟨-, hfault⟩⟩ := compressWith_ends Config.params.hash le s
  · cases hdone.symm.trans hflt
  obtain ⟨s', c, hcap, hn, hassemble, hend⟩ := compressWith_done hdone
  have hrawLen := normalise_rawLen_eq hcap hn
  obtain ⟨holen, hopad⟩ := compressDone_lengths (s := s') (assembleInto_wp_le hassemble)
  have hpad := le_padded c.out.bw.wp
  refine ⟨_, rfl, hdone, hfault, ?_⟩
  rw [hend, holen, hopad, compressDone_rawLen, compressDone_obuf, assembleInto_first hassemble,
    assembleInto_sizeField hassemble, hrawLen]
  refine ⟨rfl, ?_, rfl, ?_, hpad, ?_, ?_, padded_le_compCap (assembleInto_wp_le hassemble), fun a ha hlt => ?_⟩
  · rw [BitVec.toNat_ofNat, Nat.mod_eq_of_lt (by omega)]
  · rw [assembleInto_wp hassemble, streamLen]
    omega
  · unfold padded padBlock
    omega
  · exact Nat.mul_mod_left _ _
  · rw [memRead_assembleInto_above hassemble ha, if_pos hlt]
    rfl

end Sys2Proof.Machine
end

section
/-! PROOFS. The meanings of the two tokens, a match's bytes as a cyclic repetition (43_decompress R174, R175; 20_memory
R73), and the faults of `DECOMPRESS` before its first token (43_decompress R171). -/

namespace Sys2Proof.Machine

/-! ### The tokens -/

/-- Settles O11: below the end of `OBUF` the meaning is one write at `DP`. -/
theorem literalCompletes : Obligations.LiteralCompletes := by
  unfold Obligations.LiteralCompletes
  intro b s hdp
  rcases execLit_cases b s with ⟨h, -⟩ | ⟨-, h⟩
  · omega
  · exact ⟨_, h, rfl, fun a => memRead_memWrite s.obuf s.dp a b⟩

/-- A copy's bytes are the `dist` bytes before it, over and over: a byte less than `dist` into the copy is one of those,
any other is the byte `dist` before it in the copy. -/
theorem memRead_copyBytes_cyclic {count dist dp i : Nat} {m : Mem} (hpos : 1 ≤ dist) (hdist : dist ≤ dp)
    (hi : i < count) :
    memRead (copyBytes count (dp - dist) dp m) (dp + i) = memRead m (dp - dist + i % dist) := by
  induction i using Nat.strong_induction_on with
  | _ i ih =>
    rw [memRead_copyBytes_inside (by omega) hi]
    rcases Nat.lt_or_ge i dist with hlt | hge
    · rw [memRead_copyBytes_outside (.inl (by omega)), Nat.mod_eq_of_lt hlt]
    · have hback : dp - dist + i = dp + (i - dist) := by omega
      rw [hback, ih (i - dist) (by omega) (by omega), ← Nat.mod_eq_sub_mod hge]

/-- Settles O12: inside its bounds a match is the byte-serial copy, which repeats cyclically and writes nothing else. -/
theorem matchRepeatsCyclically : Obligations.MatchRepeatsCyclically := by
  unfold Obligations.MatchRepeatsCyclically
  intro mlen dist s hpos hdist hroom hmax hdp
  rcases execMatch_cases mlen dist s with ⟨h, -⟩ | ⟨-, h, -⟩ | ⟨-, -, h, -⟩ | ⟨-, -, -, h⟩
  · omega
  · omega
  · unfold outCap at h
    unfold sizeMax at hmax
    omega
  · exact ⟨_, h, rfl, fun i hi => memRead_copyBytes_cyclic hpos hdist hi, fun a ha => memRead_copyBytes_outside ha⟩

theorem execMatch_faultsWith {mlen dist : Nat} {s : State} {cause : Cause}
    (h : tokMatch s.rawLen mlen dist s.dec = .error cause) :
    FaultsWith (faultCode cause) s (exec (.matchTok mlen dist) s) := by
  change FaultsWith _ s (execMatch mlen dist s)
  rw [execMatch, h]
  exact raise_faultsWith cause s

/-- Settles O13: the distance is tested first, and then the room. -/
theorem matchFaultsInOrder : Obligations.MatchFaultsInOrder := by
  unfold Obligations.MatchFaultsInOrder
  intro mlen dist s
  exact ⟨fun hfar => execMatch_faultsWith (cause := .badDistance) (if_pos hfar), fun hnear hover =>
    execMatch_faultsWith (cause := .outOverrun) ((if_neg (Nat.not_lt.2 hnear)).trans (if_pos hover))⟩

/-! ### The faults before the first token -/

theorem execDecompress_faultsWith {le : Bool} {s s' : State} {cause : Cause}
    (h : decompressWhole le s = raise cause s') : FaultsWith (faultCode cause) s' (exec (.decompress le) s) := by
  change FaultsWith _ s' (.next (decompressWhole le s))
  rw [h]
  exact raise_faultsWith cause s'

/-- A fault of `D_INIT` is the fault of the command. -/
theorem decompressWhole_of_dInit_error {le : Bool} {s : State} {cause : Cause} {d : Dec} (hcap : s.inLen ≤ inCap)
    (h : dInit le s = .error (cause, d)) : decompressWhole le s = raise cause (s.setDec d) := by
  rw [decompressWhole, if_neg (Nat.not_lt.2 hcap), h]

/-- Without a byte for the first literal, `D_INIT` ends the command once the tests of N have passed. -/
theorem decompressWhole_of_noFirst {le : Bool} {s : State} (hpos : 0 < s.rawLen) (hmax : s.rawLen ≤ sizeMax)
    (hlen : s.inLen ≤ 4) : decompressWhole le s = raise .srcUnderrun (s.setDec (dStart s)) := by
  rcases dInit_cases le s with ⟨h, -⟩ | ⟨h, -⟩ | ⟨-, -, -, h⟩ | ⟨-, -, h, -⟩
  · omega
  · omega
  · exact decompressWhole_of_dInit_error (hlen.trans (by decide)) h
  · omega

/-- The decompressor's part once the first literal has been copied (43_decompress R171). -/
def dFirst (s : State) : Dec := { br := readerAtBody, dp := 1, obuf := memWrite s.obuf 0 (memRead s.ibuf 4) }

/-- With the first literal copied, `D_MAIN` and the results decide how the command ends. -/
theorem decompressWhole_of_first {le : Bool} {s : State} (hcap : s.inLen ≤ inCap) (hpos : 0 < s.rawLen)
    (hmax : s.rawLen ≤ sizeMax) (hlen : 4 < s.inLen) :
    decompressWhole le s = decompressRest le (s.setDec (dFirst s)) := by
  have hinit : dInit le s = .ok (dFirst s) := by
    rcases dInit_cases le s with ⟨h, -⟩ | ⟨h, -⟩ | ⟨-, -, h, -⟩ | ⟨-, -, -, h⟩
    · omega
    · omega
    · omega
    · exact h
  rw [decompressWhole, if_neg (Nat.not_lt.2 hcap), hinit]

/-- Settles O25: N above its bound, N = 0 and a missing first literal are the three faults of `D_INIT`. -/
theorem decompressStartFaults : Obligations.DecompressStartFaults := by
  unfold Obligations.DecompressStartFaults
  intro le s hcap
  refine ⟨fun hlarge => ?_, fun hzero => ?_, fun hpos hmax hlen => ?_⟩
  · exact execDecompress_faultsWith (cause := .rawlenRange) (decompressWhole_of_dInit_error hcap (if_pos hlarge))
  · have hinit : dInit le s = .error (.zeroLength, s.dec) :=
      (if_neg (by rw [hzero]; decide)).trans (if_pos hzero)
    exact execDecompress_faultsWith (cause := .zeroLength) (decompressWhole_of_dInit_error hcap hinit)
  · exact execDecompress_faultsWith (cause := .srcUnderrun) (decompressWhole_of_noFirst hpos hmax hlen)

/-- The results hold N where it is in range. -/
theorem decompressDone_olen_toNat {s : State} (hmax : s.rawLen ≤ sizeMax) :
    (decompressDone s).olen.toNat = s.rawLen := by
  unfold sizeMax at hmax
  rw [decompressDone_olen, BitVec.toNat_ofNat, Nat.mod_eq_of_lt (by omega)]

end Sys2Proof.Machine
end

section
/-! PROOFS. Streams of which one is the beginning of the other: what is read from the shorter is read from the longer,
so an assembled stream runs whatever follows it, and one that is cut runs to its end and no further (43_decompress R171
to R177; 40_bitchannel R125, R130). -/

namespace Sys2Proof

theorem Gives.mono {σ : Type} {bit bit' : σ → Except Reject (Bool × σ)} {bits : List Bool} {s s' : σ}
    (hbit : ∀ s x, bit s = .ok x → bit' s = .ok x) (h : Gives bit s bits s') : Gives bit' s bits s' := by
  induction bits generalizing s with
  | nil => exact h
  | cons b bits ih =>
    obtain ⟨s₁, h₁, h⟩ := h
    exact ⟨s₁, hbit s _ h₁, ih h⟩

namespace Machine

/-- A list reads back token by token. -/
theorem readTokens_cons_iff {src : Stream} {t : Token} {ts : List Token} {r r' : BitReader} :
    readTokens src (t :: ts).length r = .ok (t :: ts, r') ↔
      ∃ r₁, fetchFrom src r = .ok (t, r₁) ∧ readTokens src ts.length r₁ = .ok (ts, r') := by
  rw [List.length_cons, readTokens_succ_ok_iff]
  constructor
  · rintro ⟨_, r₁, _, _, ht, hts, ⟨⟩⟩
    exact ⟨r₁, ht, hts⟩
  · rintro ⟨r₁, ht, hts⟩
    exact ⟨t, r₁, ts, r', ht, hts, rfl⟩

/-- `src` is the beginning of `src'`. -/
structure Begins (src src' : Stream) : Prop where
  len : src.len ≤ src'.len
  le : src.le = src'.le
  byte : ∀ a, a < src.len → src.byte a = src'.byte a

section Begins
variable {src src' : Stream} {r r' : BitReader} {t : Token} {tokens : List Token} (hb : Begins src src')
include hb

theorem loadFlags_of_begins (h : loadFlags src r = .ok r') : loadFlags src' r = .ok r' := by
  obtain ⟨hlt, rfl⟩ := loadFlags_ok_iff.1 h
  rw [hb.le, hb.byte r.rp (by omega), hb.byte _ hlt]
  exact loadFlags_ok_iff.2 ⟨lt_of_lt_of_le hlt hb.len, rfl⟩

theorem getBit_of_begins {x : Bool × BitReader} (h : getBit src r = .ok x) : getBit src' r = .ok x := by
  rcases getBit_ok_iff.1 h with h | ⟨h0, r₁, hload, hx⟩
  · exact getBit_ok_iff.2 (.inl h)
  · exact getBit_ok_iff.2 (.inr ⟨h0, r₁, loadFlags_of_begins hb hload, hx⟩)

theorem readByte_of_begins {x : Byte × BitReader} (h : readByte src r = .ok x) : readByte src' r = .ok x := by
  obtain ⟨hlt, rfl⟩ := readByte_ok_iff.1 h
  rw [hb.byte _ hlt]
  exact readByte_ok_iff.2 ⟨lt_of_lt_of_le hlt hb.len, rfl⟩

/-- The token's bits and its byte are in the longer stream too. -/
theorem fetchFrom_of_begins (h : fetchFrom src r = .ok (t, r')) : fetchFrom src' r = .ok (t, r') := by
  obtain ⟨r₁, hbits, hbyte⟩ := code_of_readToken h
  have hbits' := hbits.mono fun _ _ => getBit_of_begins hb
  have hfuel := gives_length_le hbits'
  exact readToken_of_code (readToken_wf h) (by omega) hbits' (readByte_of_begins hb hbyte)

theorem readTokens_of_begins (h : readTokens src tokens.length r = .ok (tokens, r')) :
    readTokens src' tokens.length r = .ok (tokens, r') := by
  induction tokens generalizing r with
  | nil => exact h
  | cons t ts ih =>
    obtain ⟨r₁, ht, hts⟩ := readTokens_cons_iff.1 h
    exact readTokens_cons_iff.2 ⟨r₁, fetchFrom_of_begins hb ht, ih hts⟩

end Begins

/-! ### An assembled stream and whatever follows it -/

section Assembled
variable {le : Bool} {n : Nat} {first : Byte} {tokens : List Token} {bytes : List Byte}

/-- An assembled stream is PLEN bytes long. -/
theorem length_of_assemble (h : assemble le n first tokens = some bytes) :
    bytes.length = padded (streamLen tokens) := by
  obtain ⟨o, ho, rfl⟩ := assemble_eq_some_iff.1 h
  rw [memBytes_length, assembleInto_wp ho]

theorem streamLen_le_of_assemble (h : assemble le n first tokens = some bytes) : streamLen tokens ≤ compCap := by
  obtain ⟨o, ho, -⟩ := assemble_eq_some_iff.1 h
  exact assembleInto_fits_iff.1 ⟨o, ho⟩

/-- Byte 4 of an assembled stream is the first literal (30_encoding R95). -/
theorem first_of_assemble (h : assemble le n first tokens = some bytes) (hlen : 4 < bytes.length) :
    bytes.getD 4 0 = first := by
  obtain ⟨o, ho, rfl⟩ := assemble_eq_some_iff.1 h
  rw [memBytes_length] at hlen
  exact (streamOf_memBytes le o.obuf hlen).trans (assembleInto_first ho)

/-- The whole list reads back, and the reader ends at CLEN, or before the first flag word where there is no token. -/
theorem readTokens_of_assemble (hok : tokensOk 1 tokens = true) (h : assemble le n first tokens = some bytes) :
    ∃ r, readTokens (streamOf le bytes) tokens.length readerAtBody = .ok (tokens, r) ∧
      r.rp = if tokens = [] then 5 else streamLen tokens := by
  have hwf := forall_wf_of_tokensOk hok
  obtain ⟨r, hread, hrp⟩ := assembledStreamReadsBack le n first tokens bytes _ hwf h (le_refl _)
  rw [List.take_length] at hread hrp
  refine ⟨r, hread, ?_⟩
  split_ifs with hnil
  · subst hnil
    obtain rfl : readerAtBody = r := (Prod.mk.inj (Except.ok.inj hread)).2
    rfl
  · exact hrp (List.length_pos_iff.2 hnil)

end Assembled

/-- Settles O22: the input begins with the assembled stream, so it reads as the token list. -/
theorem decompressRunsAssembledStream : Obligations.DecompressRunsAssembledStream := by
  unfold Obligations.DecompressRunsAssembledStream
  intro le n first tokens bytes s hok hsum hmax hassemble hlen hcap hbytes
  obtain ⟨r, hread, hrp⟩ := readTokens_of_assemble hok hassemble
  have hbegins : Begins (streamOf le bytes) (s.stream le) := ⟨hlen, rfl, fun a ha => (hbytes a ha).symm⟩
  have h4 : 4 < bytes.length := by
    have hpad := le_padded (streamLen tokens)
    rw [length_of_assemble hassemble]
    unfold streamLen at hpad ⊢
    omega
  have hread' := readTokens_of_begins hbegins hread
  obtain ⟨m, hrun, hout⟩ := decompressWhole_of_tokensOk hcap (by omega) hmax hread' hok hsum
  rw [hbytes 4 h4, first_of_assemble hassemble h4] at hout
  refine ⟨decompressWhole le s, rfl, ?_⟩
  rw [hrun]
  exact ⟨rfl, decompressDone_olen_toNat hmax, rfl, hout, hrp⟩

/-! ### A stream that is cut -/

/-- `D_MAIN` on a stream that is cut inside a legal list runs the tokens before the cut and finds the next one
missing. -/
theorem dMain_of_cut {src src' : Stream} {n fuel : Nat} {tokens : List Token} {r : BitReader} {d : Dec}
    (hb : Begins src src') (hread : readTokens src' tokens.length d.br = .ok (tokens, r)) (hcut : src.len < r.rp)
    (hreader : ReaderOk src d.br) (hok : tokensOk d.dp tokens = true) (hsum : d.dp + (tokens.map Token.size).sum = n)
    (hfuel : n - d.dp ≤ fuel) : ∃ e, dMain src n fuel d = .error (.srcUnderrun, e) := by
  induction tokens generalizing d fuel with
  | nil =>
    obtain rfl : d.br = r := (Prod.mk.inj (Except.ok.inj hread)).2
    exact absurd hreader.2 (Nat.not_le.2 hcut)
  | cons t ts ih =>
    obtain ⟨hfirst, hrest⟩ := tokensOk_cons_iff.1 hok
    obtain ⟨r₁, hfetch', hmore⟩ := readTokens_cons_iff.1 hread
    rw [List.map_cons, List.sum_cons] at hsum
    have hpos := size_pos_of_tokensOk hfirst
    obtain ⟨fuel, rfl⟩ : ∃ k, fuel = k + 1 := ⟨fuel - 1, by omega⟩
    rw [dMain_succ, if_pos (by omega)]
    rcases hfetch : fetchFrom src d.br with e | ⟨t, r₂⟩
    · exact ⟨d, by rw [dStep, hfetch]; rfl⟩
    · cases (fetchFrom_of_begins hb hfetch).symm.trans hfetch'
      obtain ⟨m, hstep, -⟩ := dStep_of_tokensOk (n := n) hfetch hfirst (by omega)
      rw [hstep]
      exact ih hmore (fetchFrom_keeps hreader hfetch) hrest (by simp only; omega) (by simp only; omega)

/-- Settles O26: the first literal is missing, or the cut stream runs out inside its tokens. -/
theorem truncatedStreamUnderruns : Obligations.TruncatedStreamUnderruns := by
  unfold Obligations.TruncatedStreamUnderruns
  intro le n first tokens bytes s hok hne hsum hmax hassemble hcut hbytes
  suffices h : ∃ d, decompressWhole le s = raise .srcUnderrun (s.setDec d) by
    obtain ⟨d, h⟩ := h
    exact ⟨_, congrArg Host.Outcome.next h, rfl, rfl, rfl, rfl⟩
  rcases Nat.lt_or_ge 4 s.inLen with hlen | hlen
  · obtain ⟨r, hread, hrp⟩ := readTokens_of_assemble hok hassemble
    rw [if_neg hne] at hrp
    have hpad := le_padded (streamLen tokens)
    have hfit := streamLen_le_of_assemble hassemble
    have hbegins : Begins (s.stream le) (streamOf le bytes) :=
      ⟨by change s.inLen ≤ bytes.length; rw [length_of_assemble hassemble]; omega, rfl, hbytes⟩
    have hreader : ReaderOk (s.stream le) readerAtBody := ⟨Nat.zero_le 16, hlen⟩
    obtain ⟨e, hmain⟩ := dMain_of_cut (d := dFirst s) hbegins hread (hrp ▸ hcut) hreader hok hsum (le_refl _)
    unfold compCap at hfit
    have hcap : s.inLen ≤ inCap := by unfold inCap; omega
    rw [decompressWhole_of_first hcap (by omega) hmax hlen]
    exact ⟨e, decompressRest_of_error hmain⟩
  · exact ⟨_, decompressWhole_of_noFirst (by omega) hmax hlen⟩

end Machine

end Sys2Proof
end

section
/-! PROOFS. What the end of a `DECOMPRESS` says of its run (43_decompress R171 to R177): a loop that ends without a
fault has read a legal list that fills the output, and written nothing from N on; and the causes it can fault with. -/

namespace Sys2Proof.Machine

/-! ### The loop -/

section Loop
variable {src : Stream} {n fuel : Nat} {d d' : Dec}

/-- An iteration that succeeds has read a legal token and run it, inside the output. -/
theorem token_of_dStep (hlt : d.dp < n) (h : dStep src n d = .ok d') :
    d'.dp ≤ n ∧ ∃ t, fetchFrom src d.br = .ok (t, d'.br) ∧ tokensOk d.dp [t] = true ∧
      d'.dp = d.dp + Token.size t := by
  rcases dStep_ok_cases h with ⟨b, r, hfetch, rfl⟩ | ⟨mlen, dist, r, hfetch, hdist, hroom, rfl⟩
  · exact ⟨hlt, .lit b, hfetch, rfl, rfl⟩
  · obtain ⟨hmlen, hpos⟩ := fetchFrom_copy hfetch
    exact ⟨by simp only; omega, .copy mlen dist, hfetch, tokensOk_copy_iff.2 ⟨hmlen, hpos, hdist⟩, rfl⟩

/-- `D_MAIN` that ends without a fault has read a legal list that fills the output exactly. -/
theorem tokens_of_dMain (hle : d.dp ≤ n) (hfuel : n - d.dp ≤ fuel) (h : dMain src n fuel d = .ok d') :
    ∃ tokens, readTokens src tokens.length d.br = .ok (tokens, d'.br) ∧ tokensOk d.dp tokens = true ∧
      d.dp + (tokens.map Token.size).sum = n := by
  induction fuel generalizing d with
  | zero =>
    obtain rfl := Except.ok.inj h
    exact ⟨[], rfl, rfl, Nat.le_antisymm hle (Nat.le_of_sub_eq_zero (Nat.le_zero.1 hfuel))⟩
  | succ fuel ih =>
    rw [dMain_succ] at h
    split_ifs at h with hlt
    · obtain ⟨d₁, h₁, h⟩ := bind_ok_iff.1 h
      obtain ⟨hle₁, t, hfetch, hfirst, hdp⟩ := token_of_dStep hlt h₁
      have hadv := dStep_advances h₁
      obtain ⟨ts, hread, hrest, hsum⟩ := ih hle₁ (by omega) h
      rw [hdp] at hrest hsum
      exact ⟨t :: ts, readTokens_cons_iff.2 ⟨d₁.br, hfetch, hread⟩,
        tokensOk_cons_iff.2 ⟨hfirst, hrest⟩, by rw [List.map_cons, List.sum_cons, ← Nat.add_assoc, hsum]⟩
    · obtain rfl := Except.ok.inj h
      exact ⟨[], rfl, rfl, Nat.le_antisymm hle (Nat.le_of_not_lt hlt)⟩

/-- An iteration that succeeds writes nothing from N on. -/
theorem dStep_above (hlt : d.dp < n) (h : dStep src n d = .ok d') {a : Nat} (ha : n ≤ a) :
    memRead d'.obuf a = memRead d.obuf a := by
  rcases dStep_ok_cases h with ⟨b, r, -, rfl⟩ | ⟨mlen, dist, r, -, -, hroom, rfl⟩
  · exact memRead_memWrite_other _ _ (by simp only; omega)
  · exact memRead_copyBytes_outside (.inr (by omega))

/-- `D_MAIN` that ends without a fault stands at N at most, and has written nothing from there on. -/
theorem dMain_above (hle : d.dp ≤ n) (h : dMain src n fuel d = .ok d') :
    d'.dp ≤ n ∧ ∀ a, n ≤ a → memRead d'.obuf a = memRead d.obuf a := by
  induction fuel generalizing d with
  | zero => exact Except.ok.inj h ▸ ⟨hle, fun _ _ => rfl⟩
  | succ fuel ih =>
    rw [dMain_succ] at h
    split_ifs at h with hlt
    · obtain ⟨d₁, h₁, h⟩ := bind_ok_iff.1 h
      obtain ⟨hle', hmem⟩ := ih (token_of_dStep hlt h₁).1 h
      exact ⟨hle', fun a ha => (hmem a ha).trans (dStep_above hlt h₁ ha)⟩
    · exact Except.ok.inj h ▸ ⟨hle, fun _ _ => rfl⟩

end Loop

/-! ### The causes -/

/-- The six causes `DECOMPRESS` can fault with (60_exceptions R234, R236). -/
def decompressCauses : List Cause :=
  [.ilenRange, .rawlenRange, .zeroLength, .srcUnderrun, .badDistance, .outOverrun]

theorem decompressCauses_codes : decompressCauses.map faultCode = [0x35, 0x45, 0x43, 0x13, 0x33, 0x23] := by decide

theorem dInit_error_cause {le : Bool} {s : State} {cause : Cause} {d : Dec} (h : dInit le s = .error (cause, d)) :
    cause ∈ decompressCauses := by
  rcases dInit_cases le s with ⟨-, h'⟩ | ⟨-, h'⟩ | ⟨-, -, -, h'⟩ | ⟨-, -, -, h'⟩ <;> cases h.symm.trans h' <;> decide

theorem tokenEffect_error_cause {n : Nat} {t : Token} {d : Dec} {cause : Cause}
    (h : tokenEffect n t d = .error cause) :
    cause ∈ decompressCauses := by
  cases t with
  | lit b => cases h
  | copy mlen dist =>
    rcases tokMatch_cases n mlen dist d with ⟨-, h'⟩ | ⟨-, -, h'⟩ | ⟨-, -, h'⟩ <;> cases h.symm.trans h' <;> decide

theorem dStep_error_cause {src : Stream} {n : Nat} {d d' : Dec} {cause : Cause}
    (h : dStep src n d = .error (cause, d')) :
    cause ∈ decompressCauses := by
  rcases dStep_cases src n d with ⟨_, -, h'⟩ | ⟨_, _, _, -, heffect, h'⟩ | ⟨_, _, _, -, -, h'⟩ <;>
    cases h.symm.trans h'
  · decide
  · exact tokenEffect_error_cause heffect

theorem dMain_error_cause {src : Stream} {n fuel : Nat} {d d' : Dec} {cause : Cause}
    (h : dMain src n fuel d = .error (cause, d')) : cause ∈ decompressCauses := by
  induction fuel generalizing d with
  | zero => cases h
  | succ fuel ih =>
    rw [dMain_succ] at h
    split_ifs at h
    rcases bind_error_iff.1 h with h | ⟨d₁, -, h⟩
    · exact dStep_error_cause h
    · exact ih h

/-! ### The command -/

/-- The two ends of `DECOMPRESS`: one of its faults; or its results, once `D_MAIN` has run from behind the first
literal. -/
theorem decompressWhole_ends (le : Bool) (s : State) :
    (∃ cause d, cause ∈ decompressCauses ∧ decompressWhole le s = raise cause (s.setDec d)) ∨
    (0 < s.rawLen ∧ s.rawLen ≤ sizeMax ∧ 4 < s.inLen ∧
      ∃ d, dMain (s.stream le) s.rawLen (s.rawLen - 1) (dFirst s) = .ok d ∧
        decompressWhole le s = decompressDone (s.setDec d)) := by
  rcases decompressWhole_cases le s with ⟨-, h⟩ | ⟨-, cause, d, hinit, h⟩ | ⟨-, d, hinit, h⟩
  · exact .inl ⟨.ilenRange, s.dec, by decide, h⟩
  · exact .inl ⟨cause, d, dInit_error_cause hinit, h⟩
  rcases dInit_cases le s with ⟨-, h'⟩ | ⟨-, h'⟩ | ⟨-, -, -, h'⟩ | ⟨hpos, hmax, hlen, h'⟩ <;>
    cases hinit.symm.trans h'
  rcases hmain : dMain (s.stream le) s.rawLen (s.rawLen - 1) (dFirst s) with ⟨cause, e⟩ | e
  · exact .inl ⟨cause, e, dMain_error_cause hmain, h.trans (decompressRest_of_error hmain)⟩
  · exact .inr ⟨hpos, hmax, hlen, e, rfl, h.trans (decompressRest_of_ok hmain)⟩

/-- Settles O23: a command that completes has read the list its loop ran, and a legal list runs. -/
theorem decompressCompletesExactlyOnLegalStreams : Obligations.DecompressCompletesExactlyOnLegalStreams := by
  unfold Obligations.DecompressCompletesExactlyOnLegalStreams
  intro le s hcap
  refine ⟨decompressWhole le s, rfl, ⟨fun hdone => ?_, ?_⟩, ?_⟩
  · rcases decompressWhole_ends le s with ⟨_, _, -, h⟩ | ⟨hpos, hmax, hlen, d, hmain, -⟩
    · rw [h] at hdone
      cases hdone
    · obtain ⟨tokens, hread, hok, hsum⟩ := tokens_of_dMain (d := dFirst s) hpos (le_refl _) hmain
      exact ⟨hmax, hlen, tokens, d.br, hread, hok, hsum⟩
  · rintro ⟨hmax, hlen, tokens, r, hread, hok, hsum⟩
    obtain ⟨m, hrun, -⟩ := decompressWhole_of_tokensOk hcap hlen hmax hread hok hsum
    rw [hrun, decompressDone_phase]
  · intro tokens r hmax hlen hread hok hsum
    obtain ⟨m, hrun, hout⟩ := decompressWhole_of_tokensOk hcap hlen hmax hread hok hsum
    rw [hrun]
    exact ⟨rfl, hout⟩

/-- Settles O24: by the two ends of the command. -/
theorem decompressFrame : Obligations.DecompressFrame := by
  unfold Obligations.DecompressFrame
  rintro le s _ ⟨⟩
  rcases decompressWhole_ends le s with ⟨cause, d, hcause, h⟩ | ⟨hpos, hmax, -, d, hmain, h⟩ <;> rw [h]
  · have hcode := List.mem_map_of_mem (f := faultCode) hcause
    rw [decompressCauses_codes] at hcode
    exact ⟨rfl, (nomatch ·), fun _ => ⟨rfl, rfl, hcode⟩, .inr rfl⟩
  · obtain ⟨hle, hmem⟩ := dMain_above (d := dFirst s) hpos hmain
    have hfills := dMain_fills (d := dFirst s) (le_refl _) hmain
    exact ⟨rfl, fun _ => ⟨rfl, decompressDone_olen_toNat hmax, rfl, Nat.le_antisymm hle hfills, fun a ha =>
      (hmem a ha).trans (memRead_memWrite_other _ _ (by omega))⟩, (nomatch ·), .inl rfl⟩

end Sys2Proof.Machine
end

section
/-! PROOFS. `VERIFY` as the search for the first candidate (44_verify R191, R192), and `RESOLVE` by the size field's
arithmetic value in each byte order (44_verify R196, R197). -/

namespace Sys2Proof.Machine

/-! ### The candidates of `VERIFY` -/

/-- Candidate `k` has room for a digest and matches it (44_verify R191). -/
def isCandidate (digest : List Byte → Vector Byte 16) (ibuf : Mem) (len k : Nat) : Bool :=
  decide (16 + k ≤ len) && digestMatches digest ibuf len k

theorem isCandidate_iff {digest : List Byte → Vector Byte 16} {ibuf : Mem} {len k : Nat} :
    isCandidate digest ibuf len k = true ↔
      16 + k ≤ len ∧ (digest (memBytes ibuf 16 (len - k - 16))).toList = memBytes ibuf 0 16 := by
  rw [isCandidate, digestMatches, Bool.and_eq_true, decide_eq_true_iff, decide_eq_true_iff, digestLen]

/-- The loop is a search: it stops where no room is left, and no later candidate has room either. -/
theorem verifyLoop_eq_find (digest : List Byte → Vector Byte 16) (ibuf : Mem) (len fuel k : Nat) :
    verifyLoop digest ibuf len fuel k = (List.range' k fuel).find? (isCandidate digest ibuf len) := by
  induction fuel generalizing k with
  | zero => rfl
  | succ fuel ih =>
    rw [verifyLoop, digestLen]
    by_cases hroom : len - k < 16
    · rw [if_pos hroom, eq_comm, List.find?_range'_eq_none]
      intro i hi _
      have hshort : ¬ 16 + i ≤ len := by omega
      simp [isCandidate, hshort]
    · have hlong : 16 + k ≤ len := by omega
      have hmatch : isCandidate digest ibuf len k = digestMatches digest ibuf len k := by simp [isCandidate, hlong]
      rw [if_neg hroom, List.range'_succ, List.find?_cons, hmatch, ih]
      cases digestMatches digest ibuf len k <;> rfl

section Verify
variable {digest : List Byte → Vector Byte 16} {s : State} (hcap : s.inLen ≤ inCap)
include hcap

theorem verifyWith_of_first {k : Nat} (hk : k ≤ 7) (hcand : isCandidate digest s.ibuf s.inLen k)
    (hfirst : ∀ j, j < k → ¬ isCandidate digest s.ibuf s.inLen j) :
    verifyWith digest s = complete (setVerified k s) := by
  have hloop : verifyLoop digest s.ibuf s.inLen (padTol + 1) 0 = some k := by
    rw [verifyLoop_eq_find, List.find?_range'_eq_some, padTol]
    exact ⟨hcand, List.mem_range'_1.2 ⟨Nat.zero_le k, by omega⟩, fun j _ hj => by simpa using hfirst j hj⟩
  rw [verifyWith, if_neg (Nat.not_lt.2 hcap), hloop]

theorem verifyWith_of_none (hnone : ∀ k, k ≤ 7 → ¬ isCandidate digest s.ibuf s.inLen k) :
    verifyWith digest s = raise .noMatch s := by
  have hloop : verifyLoop digest s.ibuf s.inLen (padTol + 1) 0 = none := by
    rw [verifyLoop_eq_find, List.find?_range'_eq_none, padTol]
    exact fun k _ hk => by simpa using hnone k (by omega)
  rw [verifyWith, if_neg (Nat.not_lt.2 hcap), hloop]

/-- One candidate is enough: the reported one is the first, and not beyond it. -/
theorem verifyWith_of_candidate {n : Nat} (hn : n ≤ 7) (hcand : isCandidate digest s.ibuf s.inLen n) :
    ∃ k, k ≤ n ∧ verifyWith digest s = complete (setVerified k s) := by
  have hex : ∃ k, isCandidate digest s.ibuf s.inLen k := ⟨n, hcand⟩
  have hle : Nat.find hex ≤ n := Nat.find_min' hex hcand
  exact ⟨Nat.find hex, hle,
    verifyWith_of_first hcap (hle.trans hn) (Nat.find_spec hex) fun _ hj => Nat.find_min hex hj⟩

end Verify

/-- A digest, its payload and any further bytes: what is left without those bytes matches the digest. -/
theorem isCandidate_of_padded {digest : List Byte → Vector Byte 16} {ibuf : Mem} {len : Nat} {payload z : List Byte}
    (h : memBytes ibuf 0 len = (digest payload).toList ++ payload ++ z) : isCandidate digest ibuf len z.length := by
  obtain rfl : len = 16 + payload.length + z.length := by simpa [Nat.add_assoc] using congrArg List.length h
  rw [memBytes_append, memBytes_append] at h
  obtain ⟨hsigned, -⟩ := List.append_inj h (by simp)
  obtain ⟨hdigest, hpayload⟩ := List.append_inj hsigned (by simp)
  rw [isCandidate_iff, show 16 + payload.length + z.length - z.length - 16 = payload.length by omega, hdigest]
  exact ⟨by omega, congrArg (fun b => (digest b).toList) hpayload⟩

/-- Settles O27: the first candidate with room, or none. -/
theorem verifyRule : Obligations.VerifyRule := by
  unfold Obligations.VerifyRule
  intro le s hcap
  refine ⟨fun k hk hroom hmatch hfirst => ?_, fun hnone => ?_⟩
  · exact congrArg Host.Outcome.next (verifyWith_of_first hcap hk (isCandidate_iff.2 ⟨hroom, hmatch⟩)
      fun j hj hcand => hfirst j hj (isCandidate_iff.1 hcand).2)
  · have hfault : verifyWith Config.params.digest s = raise .noMatch s := verifyWith_of_none hcap fun k hk hcand =>
      have ⟨hroom, hmatch⟩ := isCandidate_iff.1 hcand
      hnone k hk hroom hmatch
    rw [exec_verify, hfault]
    exact raise_faultsWith .noMatch s

/-- Settles O28: the candidate that drops exactly `z` matches, so the first one drops at most that. -/
theorem verifyAcceptsPaddedPayload : Obligations.VerifyAcceptsPaddedPayload := by
  unfold Obligations.VerifyAcceptsPaddedPayload
  intro le payload z s hz hcap hbytes
  obtain ⟨k, hk, hdone⟩ := verifyWith_of_candidate hcap hz (isCandidate_of_padded hbytes)
  refine ⟨_, congrArg Host.Outcome.next hdone, rfl, rfl, ?_, rfl⟩
  calc (BitVec.ofNat 3 k).toNat ≤ k := by rw [BitVec.toNat_ofNat]; exact Nat.mod_le k _
    _ ≤ z.length := hk

/-! ### The size field (20_memory R61) -/

theorem append_byte_toNat {n : Nat} (x : BitVec n) (b : Byte) : (x ++ b).toNat = 256 * x.toNat + b.toNat := by
  rw [BitVec.toNat_append, ← Nat.shiftLeft_add_eq_or_of_lt b.isLt, Nat.shiftLeft_eq, Nat.mul_comm]

theorem wordOf_true_toNat (b₀ b₁ b₂ b₃ : Byte) :
    (wordOf true b₀ b₁ b₂ b₃).toNat =
      b₀.toNat + 256 * b₁.toNat + 65536 * b₂.toNat + 16777216 * b₃.toNat := by
  change (b₃ ++ b₂ ++ b₁ ++ b₀).toNat = _
  rw [append_byte_toNat, append_byte_toNat, append_byte_toNat]
  omega

/-- Big-endian byte order is little-endian byte order of the bytes the other way round. -/
theorem wordOf_false (b₀ b₁ b₂ b₃ : Byte) : wordOf false b₀ b₁ b₂ b₃ = wordOf true b₃ b₂ b₁ b₀ := rfl

theorem sizeField_toNat (le : Bool) (s : State) : (sizeField le s).toNat = sizeValue le s := by
  cases le with
  | false => exact (congrArg BitVec.toNat (wordOf_false ..)).trans (wordOf_true_toNat ..)
  | true => exact wordOf_true_toNat ..

theorem sizeField_eq_ofNat (le : Bool) (s : State) : sizeField le s = BitVec.ofNat 32 (sizeValue le s) := by
  rw [← sizeField_toNat, BitVec.ofNat_toNat, BitVec.setWidth_eq]

/-! ### The ends of `RESOLVE` -/

theorem resolveDone_eq (le flipped : Bool) (s : State) :
    resolveDone le flipped s =
      { s with phase := .done, pos := .start, rawlen := BitVec.ofNat 32 (sizeValue le s), rle := le,
               flip := flipped } := by
  rw [← sizeField_eq_ofNat]
  rfl

theorem resolveDone_rawLen (le flipped : Bool) (s : State) : (resolveDone le flipped s).rawLen = sizeValue le s :=
  sizeField_toNat le s

section Resolve
variable {le : Bool} {s : State} (hcap : s.inLen ≤ inCap)
include hcap

theorem resolveWith_of_short (h : s.inLen < 4) : resolveWith le s = raise .shortBuffer s := by
  rw [resolveWith, if_neg (Nat.not_lt.2 hcap)]
  exact if_pos h

variable (hlen : 4 ≤ s.inLen)
include hlen

theorem resolveWith_of_long :
    resolveWith le s =
      if sizeValue le s ≤ 0x20000 then resolveDone le false s
      else if sizeValue (!le) s ≤ 0x20000 then resolveDone (!le) true s
      else raise .sizeBothOrders s := by
  rw [resolveWith, if_neg (Nat.not_lt.2 hcap), sizeField_toNat, sizeField_toNat]
  exact if_neg (Nat.not_lt.2 hlen)

theorem resolveWith_assumed (h : sizeValue le s ≤ 0x20000) : resolveWith le s = resolveDone le false s := by
  rw [resolveWith_of_long hcap hlen, if_pos h]

theorem resolveWith_flipped (h : 0x20000 < sizeValue le s) (h' : sizeValue (!le) s ≤ 0x20000) :
    resolveWith le s = resolveDone (!le) true s := by
  rw [resolveWith_of_long hcap hlen, if_neg (Nat.not_le.2 h), if_pos h']

theorem resolveWith_neither (h : 0x20000 < sizeValue le s) (h' : 0x20000 < sizeValue (!le) s) :
    resolveWith le s = raise .sizeBothOrders s := by
  rw [resolveWith_of_long hcap hlen, if_neg (Nat.not_le.2 h), if_neg (Nat.not_le.2 h')]

end Resolve

/-- Settles O29: the tests in their order, on the arithmetic values. -/
theorem resolveRule : Obligations.ResolveRule := by
  unfold Obligations.ResolveRule
  intro le s hcap
  rw [exec_resolve]
  refine ⟨fun hshort => ?_, fun hlen h => ?_, fun hlen h h' => ?_, fun hlen h h' => ?_⟩
  · rw [resolveWith_of_short hcap hshort]
    exact raise_faultsWith .shortBuffer s
  · rw [resolveWith_assumed hcap hlen h, resolveDone_eq]
  · rw [resolveWith_flipped hcap hlen h h', resolveDone_eq]
  · rw [resolveWith_neither hcap hlen h h']
    exact raise_faultsWith .sizeBothOrders s

/-! ### The sizes that stay in range in either order (44_verify R197) -/

/-- In range both ways: the two outer bytes are 0, and the two inner ones, at most 2 each, give the six values. -/
theorem reversed_le_iff {b₀ b₁ b₂ b₃ : Nat} (h₀ : b₀ < 256) (h₁ : b₁ < 256) (h₂ : b₂ < 256) (h₃ : b₃ < 256)
    (hmax : b₀ + 256 * b₁ + 65536 * b₂ + 16777216 * b₃ ≤ 0x20000) :
    b₃ + 256 * b₂ + 65536 * b₁ + 16777216 * b₀ ≤ 0x20000 ↔
      b₀ + 256 * b₁ + 65536 * b₂ + 16777216 * b₃ ∈ ambiguousSizes := by
  simp only [ambiguousSizes, List.mem_cons, List.not_mem_nil, or_false]
  constructor
  · intro hrev
    obtain ⟨rfl, rfl⟩ : b₀ = 0 ∧ b₃ = 0 := by omega
    have hb₁ : b₁ ≤ 2 := by omega
    have hb₂ : b₂ ≤ 2 := by omega
    interval_cases b₁ <;> omega
  · omega

theorem sizeValue_le_iff_mem_ambiguousSizes {le : Bool} {s : State} (h : sizeValue (!le) s ≤ 0x20000) :
    sizeValue le s ≤ 0x20000 ↔ sizeValue (!le) s ∈ ambiguousSizes := by
  have hlt (a : Nat) : (memRead s.ibuf a).toNat < 256 := (memRead s.ibuf a).isLt
  cases le <;> exact reversed_le_iff (hlt _) (hlt _) (hlt _) (hlt _) h

/-- Settles O30: the other order is tried exactly when the value is not one of the six. -/
theorem wrongAssumptionIsFlippedButForSixValues : Obligations.WrongAssumptionIsFlippedButForSixValues := by
  unfold Obligations.WrongAssumptionIsFlippedButForSixValues
  rintro le s _ hlen hcap hmax rfl
  refine ⟨resolveWith le s, rfl, ?_⟩
  by_cases hmem : sizeValue (!le) s ∈ ambiguousSizes
  · rw [resolveWith_assumed hcap hlen ((sizeValue_le_iff_mem_ambiguousSizes hmax).2 hmem)]
    exact ⟨rfl, (absurd hmem ·), fun _ => ⟨resolveDone_rawLen le false s, rfl, rfl⟩⟩
  · have hover : 0x20000 < sizeValue le s := Nat.not_le.1 (mt (sizeValue_le_iff_mem_ambiguousSizes hmax).1 hmem)
    rw [resolveWith_flipped hcap hlen hover hmax]
    exact ⟨rfl, fun _ => ⟨resolveDone_rawLen (!le) true s, rfl, rfl⟩, (absurd · hmem)⟩

end Sys2Proof.Machine
end

section
/-! PROOFS. The host's side of a pipeline (45_pipeline R215, R217): what a command issued on a byte string starts from,
how its fault is reported, and what `VERIFY` of a byte string says of it. -/

namespace Sys2Proof.Machine

/-! ### A command issued by the host (70_reset R262) -/

/-- The state in which a command issued on an input starts. -/
def issued (input : List Byte) (w : Word) (s : State) : State :=
  acceptCommand w { s with ibuf := memLoad s.ibuf 0 (input.take inCap), ilen := lengthWord input }

section Eq
variable (p : Params) (le : Bool) (b : List Byte) (s : State)

theorem hostVerify_eq : hostVerify p b s = verifyWith p.digest (issued b (commandWord 3 false) s) := rfl

theorem hostResolve_eq : hostResolve p b le s = resolveWith le (issued b (commandWord 4 le) s) := rfl

theorem hostDecompress_eq : hostDecompress p b le s = decompressWhole le (issued b (commandWord 2 le) s) := rfl

theorem hostCompress_eq : hostCompress p b le s = compressWith p.hash le (issued b (commandWord 1 le) s) := rfl

end Eq

section Issued
variable {input : List Byte} {w : Word} {s : State}

/-- A command that finds its input in range was given one that is. -/
theorem length_le_of_issued (h : (issued input w s).inLen ≤ inCap) : input.length ≤ inCap :=
  Nat.not_lt.1 fun hgt => Nat.not_lt.2 h (lengthWord_of_gt hgt)

variable (hcap : input.length ≤ inCap)
include hcap

theorem issued_inLen : (issued input w s).inLen = input.length := lengthWord_of_le hcap

theorem issued_memRead {a : Nat} (ha : a < input.length) : memRead (issued input w s).ibuf a = input[a] := by
  change memRead (memLoad s.ibuf 0 (input.take inCap)) a = input[a]
  rw [memRead_memLoad, List.take_of_length_le hcap, dif_pos ⟨Nat.zero_le a, by omega⟩]
  rfl

theorem issued_memBytes {a n : Nat} (h : a + n ≤ input.length) :
    memBytes (issued input w s).ibuf a n = (input.drop a).take n := by
  refine List.ext_getElem (by rw [memBytes_length, List.length_take, List.length_drop]; omega) fun i h₁ h₂ => ?_
  rw [memBytes_length] at h₁
  rw [memBytes_getElem _ _ _ _ h₁, issued_memRead hcap (by omega), List.getElem_take, List.getElem_drop]

end Issued

/-! ### How the fault of a command is reported (45_pipeline R217) -/

/-- A command has ended, and if with a fault, then with one that the pipeline finds in `FAULT`. -/
def Reported (s : State) : Prop := s.phase = .done ∨ s.phase = .flt ∧ ∃ cause, causeOf s.fault = some cause

/-- The two causes of the pipeline itself are the ones it does not look for in `FAULT`. -/
theorem causeOf_faultCode {cause : Cause} (hmarker : cause ≠ .badMarker) (hlength : cause ≠ .lenNotMult8) :
    causeOf (faultCode cause) = some cause := by
  revert hmarker hlength
  cases cause <;> decide

theorem raise_reported {cause : Cause} (s : State) (hmarker : cause ≠ .badMarker) (hlength : cause ≠ .lenNotMult8) :
    Reported (raise cause s) :=
  .inr ⟨rfl, cause, causeOf_faultCode hmarker hlength⟩

section OnDone
variable {α : Type} {v : Variant} {s : State} {next : Except PipeFault α} {a : α}

theorem onDone_of_done (h : s.phase = .done) : onDone v s next = next := by
  rw [onDone, if_neg (by rw [h]; decide)]

theorem onDone_ok_iff (h : Reported s) : onDone v s next = .ok a ↔ s.phase = .done ∧ next = .ok a := by
  rcases h with hdone | ⟨hflt, cause, hcause⟩
  · rw [onDone_of_done hdone, and_iff_right hdone]
  · simp [onDone, hflt, hcause]

end OnDone

theorem verifyWith_reported (digest : List Byte → Vector Byte 16) (s : State) : Reported (verifyWith digest s) := by
  rcases verifyWith_cases digest s with ⟨-, h⟩ | ⟨-, -, h⟩ | ⟨-, _, -, h⟩ <;> rw [h]
  · exact raise_reported s (by decide) (by decide)
  · exact raise_reported s (by decide) (by decide)
  · exact .inl rfl

theorem resolveWith_reported (le : Bool) (s : State) : Reported (resolveWith le s) := by
  rcases resolveWith_cases le s with ⟨-, h⟩ | ⟨-, h⟩ | ⟨-, -, -, h⟩ | ⟨-, -, -, -, h⟩ | ⟨-, -, -, -, h⟩ <;> rw [h]
  · exact raise_reported s (by decide) (by decide)
  · exact raise_reported s (by decide) (by decide)
  · exact .inl rfl
  · exact .inl rfl
  · exact raise_reported s (by decide) (by decide)

theorem decompressWhole_reported (le : Bool) (s : State) : Reported (decompressWhole le s) := by
  rcases decompressWhole_ends le s with ⟨cause, d, hcause, h⟩ | ⟨-, -, -, d, -, h⟩ <;> rw [h]
  · exact raise_reported _ (ne_of_mem_of_not_mem hcause (by decide)) (ne_of_mem_of_not_mem hcause (by decide))
  · exact .inl rfl

theorem compressWith_reported (hash : Hash) (le : Bool) (s : State) : Reported (compressWith hash le s) := by
  rcases compressWith_phase hash le s with hdone | hflt
  · exact .inl hdone
  · obtain ⟨-, -, cause, hcause, hfault⟩ := compressWith_flt hflt
    rw [Reported, hfault]
    exact .inr ⟨hflt, cause, causeOf_faultCode (ne_of_mem_of_not_mem hcause (by decide))
      (ne_of_mem_of_not_mem hcause (by decide))⟩

section Host
variable {p : Params} {le : Bool} {b : List Byte} {s : State}

theorem hostVerify_reported : Reported (hostVerify p b s) := verifyWith_reported _ _

theorem hostResolve_reported : Reported (hostResolve p b le s) := resolveWith_reported _ _

theorem hostDecompress_reported : Reported (hostDecompress p b le s) := decompressWhole_reported _ _

theorem hostCompress_reported : Reported (hostCompress p b le s) := compressWith_reported _ _ _

end Host

/-! ### `VERIFY` of a byte string (44_verify R191, R192) -/

/-- What is left of a byte string without its digest and its last `k` bytes (45_pipeline R216). -/
def stripped (x : List Byte) (k : Nat) : List Byte := (x.take (x.length - k)).drop digestLen

/-- A digest, its payload and further bytes, without as many bytes as there are behind `y`. -/
theorem stripped_append {digest payload y z : List Byte} (h : digest.length = 16) :
    stripped (digest ++ payload ++ (y ++ z)) z.length = payload ++ y := by
  have hlen : (digest ++ payload ++ (y ++ z)).length - z.length = (digest ++ (payload ++ y)).length := by
    simp only [List.length_append]; omega
  rw [stripped, hlen, show digest ++ payload ++ (y ++ z) = digest ++ (payload ++ y) ++ z by simp, List.take_left,
    digestLen, ← h, List.drop_left]

section Verify
variable {p : Params} {x payload z : List Byte} {s : State}

/-- `VERIFY` that completes has found the digest of what is left without the reported bytes in front of it. -/
theorem digest_of_hostVerify_done (h : (hostVerify p x s).phase = .done) :
    (p.digest (stripped x (hostVerify p x s).vk.toNat)).toList = x.take 16 ∧
      16 + (hostVerify p x s).vk.toNat ≤ x.length := by
  rw [hostVerify_eq] at h ⊢
  rcases verifyWith_cases p.digest (issued x (commandWord 3 false) s) with
    ⟨-, h'⟩ | ⟨-, -, h'⟩ | ⟨hcap, k, hloop, h'⟩ <;> rw [h'] at h ⊢
  · cases h
  · cases h
  have hlen := length_le_of_issued hcap
  rw [verifyLoop_eq_find, List.find?_range'_eq_some, issued_inLen hlen] at hloop
  obtain ⟨hcand, hmem, -⟩ := hloop
  obtain ⟨hroom, hdigest⟩ := isCandidate_iff.1 hcand
  have hk : (BitVec.ofNat 3 k).toNat = k := by
    have hlt : k < 0 + (7 + 1) := (List.mem_range'_1.1 hmem).2
    rw [BitVec.toNat_ofNat, Nat.mod_eq_of_lt (by omega)]
  rw [issued_memBytes hlen (by omega), issued_memBytes hlen (by omega)] at hdigest
  rw [complete_vk, setVerified_vk, hk, stripped, List.drop_take]
  exact ⟨hdigest, hroom⟩

/-- A verified byte string is the digest, what it covers, and the bytes left off. -/
theorem eq_append_of_hostVerify_done (h : (hostVerify p x s).phase = .done) :
    x = (p.digest (stripped x (hostVerify p x s).vk.toNat)).toList ++ stripped x (hostVerify p x s).vk.toNat ++
      x.drop (x.length - (hostVerify p x s).vk.toNat) := by
  obtain ⟨hdigest, hroom⟩ := digest_of_hostVerify_done h
  have htake : x.take 16 = (x.take (x.length - (hostVerify p x s).vk.toNat)).take 16 := by
    rw [List.take_take, Nat.min_eq_left (by omega)]
  rw [hdigest, htake, stripped, digestLen, List.take_append_drop, List.take_append_drop]

variable (hz : z.length ≤ 7) (hcap : ((p.digest payload).toList ++ payload ++ z).length ≤ inCap)
include hz hcap

/-- A digest, its payload and up to seven further bytes verify, and at most those bytes are reported. -/
theorem hostVerify_of_padded :
    (hostVerify p ((p.digest payload).toList ++ payload ++ z) s).phase = .done ∧
      (hostVerify p ((p.digest payload).toList ++ payload ++ z) s).vk.toNat ≤ z.length := by
  have hlen := issued_inLen (w := commandWord 3 false) (s := s) hcap
  have hbytes := issued_memBytes (w := commandWord 3 false) (s := s) hcap (a := 0) (n := _) (Nat.zero_add _).le
  rw [List.drop_zero, List.take_length, ← hlen] at hbytes
  obtain ⟨k, hk, hdone⟩ := verifyWith_of_candidate (hlen ▸ hcap) hz (isCandidate_of_padded hbytes)
  rw [hostVerify_eq, hdone]
  exact ⟨rfl, (Nat.mod_le k _).trans hk⟩

/-- Where the digest tells the payload from the payload with some of the further bytes, exactly those are left off. -/
theorem stripped_of_padded
    (hdigest : ∀ j, 1 ≤ j → j ≤ z.length → p.digest (payload ++ z.take j) ≠ p.digest payload) :
    stripped ((p.digest payload).toList ++ payload ++ z)
      (hostVerify p ((p.digest payload).toList ++ payload ++ z) s).vk.toNat = payload := by
  obtain ⟨hdone, hk⟩ := hostVerify_of_padded (s := s) hz hcap
  obtain ⟨hfound, -⟩ := digest_of_hostVerify_done hdone
  generalize (hostVerify p ((p.digest payload).toList ++ payload ++ z) s).vk.toNat = k at hk hfound ⊢
  have hstrip : stripped ((p.digest payload).toList ++ payload ++ z) k = payload ++ z.take (z.length - k) := by
    have hlast : (z.drop (z.length - k)).length = k := by rw [List.length_drop]; omega
    have h := stripped_append (payload := payload) (y := z.take (z.length - k)) (z := z.drop (z.length - k))
      (Vector.length_toList (xs := p.digest payload))
    rwa [List.take_append_drop, hlast] at h
  rw [hstrip, List.append_assoc, List.take_left' (by simp), Vector.toList_inj] at hfound
  rw [hstrip]
  rcases Nat.eq_zero_or_pos (z.length - k) with h0 | hpos
  · rw [h0, List.take_zero, List.append_nil]
  · exact absurd hfound (hdigest _ hpos (Nat.sub_le _ _))

end Verify

end Sys2Proof.Machine
end

section
/-! PROOFS. The bytes `COMPRESS` has left, given to `RESOLVE` and then to `DECOMPRESS` by the host (45_pipeline R215):
the size field settles the byte order, and the normalised input comes back (44_verify R197, 42_compress R164 (a)). -/

namespace Sys2Proof.Machine

/-! ### The input of `COMPRESS` as a byte string (42_compress R150) -/

theorem normalisedBytes_of_ne_nil {b : List Byte} (hne : b ≠ []) :
    normalisedBytes b = if b.getLast hne = 0 then b else b ++ [0] := by
  simp [normalisedBytes, List.getLast?_eq_some_getLast hne]

/-- `NORMALISE` appends nothing or one zero byte. -/
theorem normalisedBytes_eq_append (b : List Byte) : ∃ z, normalisedBytes b = b ++ z ∧ (z = [] ∨ z = [0]) := by
  by_cases hzero : b.getLast? = some 0
  · exact ⟨[], by rw [normalisedBytes, if_pos hzero, List.append_nil], .inl rfl⟩
  · exact ⟨[0], by rw [normalisedBytes, if_neg hzero], .inr rfl⟩

section Normalised
variable {b : List Byte} {w : Word} {s : State} (hcap : b.length ≤ inCap)
include hcap

theorem map_normalisedByte_issued : (List.range b.length).map (normalisedByte (issued b w s)) = b := by
  refine List.ext_getElem (by simp) fun i h₁ h₂ => ?_
  rw [List.getElem_map, List.getElem_range, normalisedByte, issued_inLen hcap, if_pos h₂, issued_memRead hcap h₂]

/-- The normalised input is the byte string with the zero byte that `NORMALISE` appends, if any. -/
theorem normalised_issued (hne : b ≠ []) :
    (List.range (normalisedLen (issued b w s))).map (normalisedByte (issued b w s)) = normalisedBytes b := by
  have hpos : 0 < b.length := List.length_pos_iff.2 hne
  have hlast : memRead (issued b w s).ibuf ((issued b w s).inLen - 1) = b.getLast hne := by
    rw [issued_inLen hcap, issued_memRead hcap (by omega), List.getLast_eq_getElem]
  rw [normalisedLen, hlast, issued_inLen hcap, normalisedBytes_of_ne_nil hne]
  by_cases hzero : b.getLast hne = 0
  · rw [if_neg (not_not_intro hzero), if_pos hzero, map_normalisedByte_issued hcap]
  · have hfill : normalisedByte (issued b w s) b.length = 0 := by
      rw [normalisedByte, issued_inLen hcap, if_neg (lt_irrefl _)]
    rw [if_pos hzero, if_neg hzero, List.range_succ, List.map_append, map_normalisedByte_issued hcap,
      List.map_singleton, hfill]

theorem length_normalisedBytes_issued (hne : b ≠ []) :
    (normalisedBytes b).length = normalisedLen (issued b w s) := by
  rw [← normalised_issued (w := w) (s := s) hcap hne, List.length_map, List.length_range]

end Normalised

/-! ### The results of `COMPRESS` (42_compress R161) -/

@[simp] theorem resultBytes_length (t : State) : (resultBytes t).length = t.opad.toNat := memBytes_length _ _ _

section Compressed
variable {hash : Hash} {le : Bool} {s : State} (h : (compressWith hash le s).phase = .done)
include h

theorem inLen_of_compressWith_done : 0 < s.inLen ∧ s.inLen ≤ inCap := by
  obtain ⟨s', c, hcap, hn, -, -⟩ := compressWith_done h
  exact ⟨Nat.pos_of_ne_zero (normalise_ok_cases hn).1, hcap⟩

/-- `RAWLEN` holds N, and the size field holds it in the written byte order (30_encoding R95). -/
theorem rawlen_of_compressWith_done :
    (compressWith hash le s).rawLen = normalisedLen s ∧ normalisedLen s ≤ sizeMax ∧
      memRead4 le (compressWith hash le s).obuf 0 = (compressWith hash le s).rawlen := by
  obtain ⟨s', c, hcap, hn, hassemble, hend⟩ := compressWith_done h
  rw [hend, compressDone_rawLen, compressDone_obuf, assembleInto_sizeField hassemble, normalise_rawLen_eq hcap hn]
  refine ⟨rfl, normalise_rawLen_eq hcap hn ▸ (normalise_rawLen hcap hn).2, ?_⟩
  rw [← normalise_rawLen_eq hcap hn, State.rawLen, BitVec.ofNat_toNat, BitVec.setWidth_eq, compressDone_rawlen]

/-- PLEN is a multiple of 8 within the capacity, and less than 8 above CLEN. -/
theorem opad_of_compressWith_done :
    4 ≤ (compressWith hash le s).opad.toNat ∧ (compressWith hash le s).opad.toNat ≤ compCap ∧
      (compressWith hash le s).opad.toNat % 8 = 0 ∧
      (compressWith hash le s).olen.toNat ≤ (compressWith hash le s).opad.toNat ∧
      (compressWith hash le s).opad.toNat ≤ (compressWith hash le s).olen.toNat + 7 := by
  obtain ⟨s', c, -, -, hassemble, hend⟩ := compressWith_done h
  have hfit := assembleInto_wp_le hassemble
  obtain ⟨holen, hopad⟩ := compressDone_lengths (s := s') hfit
  have hmin : 4 ≤ c.out.bw.wp := by rw [assembleInto_wp hassemble, streamLen]; omega
  have hle := le_padded c.out.bw.wp
  rw [hend, holen, hopad]
  exact ⟨hmin.trans hle, padded_le_compCap hfit, Nat.mul_mod_left _ _, hle, padded_le _⟩

theorem opad_le_of_compressWith_done : (compressWith hash le s).opad.toNat ≤ inCap :=
  (opad_of_compressWith_done h).2.1.trans (by decide)

/-- The result bytes are `OBUF[0:OLEN]` and at most 7 bytes of filler. -/
theorem resultBytes_of_compressWith_done : ∃ z, z.length ≤ 7 ∧
    resultBytes (compressWith hash le s) =
      memBytes (compressWith hash le s).obuf 0 (compressWith hash le s).olen.toNat ++ z := by
  obtain ⟨-, -, -, hle, hpad⟩ := opad_of_compressWith_done h
  refine ⟨memBytes (compressWith hash le s).obuf (0 + (compressWith hash le s).olen.toNat)
    ((compressWith hash le s).opad.toNat - (compressWith hash le s).olen.toNat), ?_, ?_⟩
  · rw [memBytes_length]
    exact Nat.sub_le_iff_le_add'.2 hpad
  · rw [← memBytes_append, Nat.add_sub_cancel' hle, resultBytes]

end Compressed

/-! ### The result bytes as the next command's input -/

section ResultInput
variable {t : State} {w : Word} {s : State} (hcap : t.opad.toNat ≤ inCap)
include hcap

theorem issued_resultBytes_inLen : (issued (resultBytes t) w s).inLen = t.opad.toNat := by
  rw [issued_inLen (by rwa [resultBytes_length]), resultBytes_length]

theorem issued_resultBytes_memRead {a : Nat} (ha : a < t.opad.toNat) :
    memRead (issued (resultBytes t) w s).ibuf a = memRead t.obuf a := by
  rw [issued_memRead (by rwa [resultBytes_length]) (by rwa [resultBytes_length])]
  exact (memBytes_getElem _ _ _ _ ha).trans (congrArg _ (Nat.zero_add a))

theorem sizeField_issued_resultBytes (le : Bool) (hlen : 4 ≤ t.opad.toNat) :
    sizeField le (issued (resultBytes t) w s) = memRead4 le t.obuf 0 := by
  rw [sizeField, memRead4, memRead4, issued_resultBytes_memRead hcap (by omega),
    issued_resultBytes_memRead hcap (by omega), issued_resultBytes_memRead hcap (by omega),
    issued_resultBytes_memRead hcap (by omega)]

end ResultInput

/-- `RESOLVE` finds the order whose size is in range, from that order, or from the other where the size is not one of
the six (44_verify R196, R197). -/
theorem resolveWith_finds {le le' : Bool} {s : State} (hcap : s.inLen ≤ inCap) (hlen : 4 ≤ s.inLen)
    (hmax : sizeValue le s ≤ 0x20000) (hle : le' = le ∨ sizeValue le s ∉ ambiguousSizes) :
    ∃ flipped, resolveWith le' s = resolveDone le flipped s := by
  by_cases heq : le' = le
  · exact ⟨false, heq ▸ resolveWith_assumed hcap hlen (heq ▸ hmax)⟩
  · obtain rfl : le = !le' := by cases le <;> cases le' <;> simp at heq ⊢
    have hover : 0x20000 < sizeValue le' s :=
      Nat.not_le.1 (mt (sizeValue_le_iff_mem_ambiguousSizes hmax).1 (hle.resolve_left heq))
    exact ⟨true, resolveWith_flipped hcap hlen hover hmax⟩

/-! ### Back to the input -/

section Restore
variable {p : Params} {le le' : Bool} {b : List Byte} {s r : State} (hdone : (hostCompress p b le s).phase = .done)
include hdone

theorem length_le_of_hostCompress_done : b.length ≤ inCap :=
  length_le_of_issued (inLen_of_compressWith_done hdone).2

theorem ne_nil_of_hostCompress_done : b ≠ [] := by
  have hpos : 0 < (issued b _ s).inLen := (inLen_of_compressWith_done hdone).1
  rw [issued_inLen (length_le_of_hostCompress_done hdone)] at hpos
  exact List.length_pos_iff.1 hpos

theorem length_normalisedBytes_of_hostCompress_done :
    (normalisedBytes b).length = normalisedLen (issued b (commandWord 1 le) s) ∧
      (normalisedBytes b).length ≤ inCap := by
  have hlen := length_normalisedBytes_issued (w := commandWord 1 le) (s := s) (length_le_of_hostCompress_done hdone)
    (ne_nil_of_hostCompress_done hdone)
  exact ⟨hlen, hlen ▸ (rawlen_of_compressWith_done hdone).2.1⟩

theorem resultBytes_length_of_hostCompress_done :
    (resultBytes (hostCompress p b le s)).length + 16 ≤ inCap ∧
      (resultBytes (hostCompress p b le s)).length % 8 = 0 := by
  obtain ⟨-, hcap, hmod, -, -⟩ := opad_of_compressWith_done hdone
  rw [resultBytes_length]
  exact ⟨(Nat.add_le_add_right hcap 16).trans (by decide), hmod⟩

/-- `RESOLVE` of what `COMPRESS` has left finds the written order and N. -/
theorem hostResolve_of_hostCompress (hle : le' = le ∨ (normalisedBytes b).length ∉ ambiguousSizes) :
    (hostResolve p (resultBytes (hostCompress p b le s)) le' r).phase = .done ∧
      (hostResolve p (resultBytes (hostCompress p b le s)) le' r).rle = le ∧
      (hostResolve p (resultBytes (hostCompress p b le s)) le' r).rawlen = (hostCompress p b le s).rawlen := by
  have hcap : (hostCompress p b le s).opad.toNat ≤ inCap := opad_le_of_compressWith_done hdone
  have hlen : 4 ≤ (hostCompress p b le s).opad.toNat := (opad_of_compressWith_done hdone).1
  obtain ⟨hN, hmax, hfield⟩ := rawlen_of_compressWith_done hdone
  have hsize : sizeField le (issued (resultBytes (hostCompress p b le s)) (commandWord 4 le') r) =
      (hostCompress p b le s).rawlen := (sizeField_issued_resultBytes hcap le hlen).trans hfield
  have hvalue : sizeValue le (issued (resultBytes (hostCompress p b le s)) (commandWord 4 le') r) =
      normalisedLen (issued b (commandWord 1 le) s) := by
    rw [← sizeField_toNat, hsize]
    exact hN
  have hin := issued_resultBytes_inLen (w := commandWord 4 le') (s := r) hcap
  rw [(length_normalisedBytes_of_hostCompress_done hdone).1, ← hvalue] at hle
  obtain ⟨flipped, hresolve⟩ := resolveWith_finds (hin ▸ hcap) (hin ▸ hlen) (hvalue ▸ hmax) hle
  rw [hostResolve_eq, hresolve]
  exact ⟨rfl, rfl, hsize⟩

/-- `DECOMPRESS` of what `COMPRESS` has left gives the normalised input back. -/
theorem hostDecompress_of_hostCompress (hrawlen : r.rawlen = (hostCompress p b le s).rawlen) :
    (hostDecompress p (resultBytes (hostCompress p b le s)) le r).phase = .done ∧
      resultBytes (hostDecompress p (resultBytes (hostCompress p b le s)) le r) = normalisedBytes b := by
  have hcap : (hostCompress p b le s).opad.toNat ≤ inCap := opad_le_of_compressWith_done hdone
  have hin := issued_resultBytes_inLen (w := commandWord 2 le) (s := r) hcap
  obtain ⟨v, hv, hphase, holen, hopad, hbytes⟩ := compressThenDecompressRestoresInput p.hash le
    (issued b (commandWord 1 le) s) _ (issued (resultBytes (hostCompress p b le s)) (commandWord 2 le) r) rfl hdone
    (.inl hin) hrawlen fun a ha => issued_resultBytes_memRead hcap (hin ▸ ha)
  obtain rfl : hostDecompress p (resultBytes (hostCompress p b le s)) le r = v := Host.Outcome.next.inj hv
  refine ⟨hphase, ?_⟩
  rw [resultBytes, hopad, holen, ← normalised_issued (w := commandWord 1 le) (s := s)
    (length_le_of_hostCompress_done hdone) (ne_nil_of_hostCompress_done hdone)]
  refine List.ext_getElem (by simp) fun i h₁ h₂ => ?_
  rw [memBytes_length] at h₁
  rw [memBytes_getElem _ _ _ _ h₁, Nat.zero_add, hbytes i h₁, List.getElem_map, List.getElem_range]

end Restore

end Sys2Proof.Machine
end

section
/-! PROOFS. `DECODE_CONTAINER` variant by variant (45_pipeline R210 to R217), and its round trips with
`ENCODE_CONTAINER` (R218, R220). -/

namespace Sys2Proof.Machine

/-! ### What each decode order returns (45_pipeline R215, R216) -/

section Decode
variable {p : Params} {le : Bool} {x m : List Byte} {s : State}

theorem decodePlain_ok_iff :
    decodePlain p x s = .ok m ↔
      (hostVerify p x s).phase = .done ∧ stripped x (hostVerify p x s).vk.toNat = m :=
  (onDone_ok_iff hostVerify_reported).trans (and_congr_right fun _ => by rw [Except.ok.injEq]; rfl)

theorem decodeA_ok_iff :
    decodeA p le x s = .ok m ↔
      ∃ v r d, v = hostVerify p x s ∧ r = hostResolve p (x.drop 16) le v ∧
        d = hostDecompress p (x.drop 16) r.rle r ∧
        v.phase = .done ∧ r.phase = .done ∧ d.phase = .done ∧ resultBytes d = m := by
  rw [decodeA, onDone_ok_iff hostVerify_reported, onDone_ok_iff hostResolve_reported,
    onDone_ok_iff hostDecompress_reported, Except.ok.injEq]
  constructor
  · exact fun h => ⟨_, _, _, rfl, rfl, rfl, h⟩
  · rintro ⟨_, _, _, rfl, rfl, rfl, h⟩
    exact h

theorem decodeB_ok_iff :
    decodeB p le x s = .ok m ↔
      ∃ r d, r = hostResolve p x le s ∧ d = hostDecompress p x r.rle r ∧ r.phase = .done ∧ d.phase = .done ∧
        (hostVerify p (resultBytes d) d).phase = .done ∧
        stripped (resultBytes d) (hostVerify p (resultBytes d) d).vk.toNat = m := by
  rw [decodeB, onDone_ok_iff hostResolve_reported, onDone_ok_iff hostDecompress_reported,
    onDone_ok_iff hostVerify_reported, Except.ok.injEq]
  constructor
  · exact fun h => ⟨_, _, rfl, rfl, h⟩
  · rintro ⟨_, _, rfl, rfl, h⟩
    exact h

end Decode

/-! ### The variant (45_pipeline R212, R213) -/

/-- The decode order of the variant that the markers select (45_pipeline R215). -/
def decodeVariant (p : Params) (le : Bool) (x : List Byte) (s : State) :
    Option Variant → Except PipeFault (List Byte)
  | some .plain => decodePlain p x s
  | some .compressedA => decodeA p le x s
  | some .compressedB => decodeB p le x s
  | none => .error (.raised .badMarker none)

section Variant
variable {p : Params} {key : Vector Byte 8} {le : Bool} {container x : List Byte} {s : State}

/-- A container that is too long, or whose length is no multiple of 8, is never decrypted (45_pipeline R210). -/
theorem decodeContainer_of_tooLong (h : inCap < container.length) :
    decodeContainer p key le container s = .error .containerTooLong := if_pos h

theorem decodeContainer_of_badLength (hcap : container.length ≤ inCap) (hmod : container.length % 8 ≠ 0) :
    decodeContainer p key le container s = .error (.raised .lenNotMult8 none) :=
  (if_neg (Nat.not_lt.2 hcap)).trans (if_pos hmod)

theorem decodeContainer_of_length (hcap : container.length ≤ inCap) (hmod : container.length % 8 = 0) :
    decodeContainer p key le container s =
      decodeVariant p le (decrypt p key container) s (variantOf p (decrypt p key container)) :=
  (if_neg (Nat.not_lt.2 hcap)).trans (if_neg (not_not_intro hmod))

/-- What `DECODE_CONTAINER` returns comes from one of the three decode orders. -/
theorem decodeVariant_of_decodeContainer_ok {m : List Byte} (h : decodeContainer p key le container s = .ok m) :
    container.length ≤ inCap ∧ container.length % 8 = 0 ∧
      decodeVariant p le (decrypt p key container) s (variantOf p (decrypt p key container)) = .ok m := by
  have hcap : container.length ≤ inCap := by
    by_contra hlong
    cases (decodeContainer_of_tooLong (Nat.not_le.1 hlong)).symm.trans h
  have hmod : container.length % 8 = 0 := by
    by_contra hne
    cases (decodeContainer_of_badLength hcap hne).symm.trans h
  exact ⟨hcap, hmod, (decodeContainer_of_length hcap hmod).symm.trans h⟩

theorem variantOf_plain (h : markerAt x 16 markPlain = true) : variantOf p x = some .plain := if_pos h

variable (hplain : markerAt x 16 markPlain = false)
include hplain

theorem variantOf_compressedA (h : markerAt x 20 p.markA = true) : variantOf p x = some .compressedA := by
  simp [variantOf, hplain, h]

variable (hA : markerAt x 20 p.markA = false)
include hA

theorem variantOf_compressedB (h : markerAt x 22 p.markB = true) : variantOf p x = some .compressedB := by
  simp [variantOf, hplain, hA, h]

theorem variantOf_none (h : markerAt x 22 p.markB = false) : variantOf p x = none := by
  simp [variantOf, hplain, hA, h]

end Variant

/-- Settles O54: the two tests of the length come first, and no marker selects no variant. -/
theorem containerFormatFaults : Obligations.ContainerFormatFaults := by
  unfold Obligations.ContainerFormatFaults
  intro p key le container s
  refine ⟨decodeContainer_of_tooLong, decodeContainer_of_badLength, fun hcap hmod hplain hA hB => ?_⟩
  rw [decodeContainer_of_length hcap hmod, variantOf_none hplain hA hB, decodeVariant]

/-- Settles O53: by the variant; `VERIFY` that completes has found the digest of what it covers. -/
theorem returnedMarkupIsVerified : Obligations.ReturnedMarkupIsVerified := by
  unfold Obligations.ReturnedMarkupIsVerified
  intro p key le container m s h
  obtain ⟨hcap, hmod, h⟩ := decodeVariant_of_decodeContainer_ok h
  refine ⟨hcap, hmod, ?_⟩
  rcases hvariant : variantOf p (decrypt p key container) with _ | _ | _ | _ <;> rw [hvariant] at h
  case none => cases h
  case some.plain =>
    obtain ⟨hdone, rfl⟩ := decodePlain_ok_iff.1 h
    exact .inl ⟨rfl, (digest_of_hostVerify_done hdone).1⟩
  case some.compressedA =>
    obtain ⟨_, r, d, rfl, hr, hd, hverified, -, hdone, hm⟩ := decodeA_ok_iff.1 h
    refine .inr (.inl ⟨rfl, ⟨_, ?_, (digest_of_hostVerify_done hverified).1⟩, r, d, hm.symm, hdone, hr, hd⟩)
    exact Nat.le_of_lt_succ (hostVerify p (decrypt p key container) s).vk.isLt
  case some.compressedB =>
    obtain ⟨r, d, hr, hd, -, hdone, hverified, rfl⟩ := decodeB_ok_iff.1 h
    refine .inr (.inr ⟨rfl, _, ?_, r, d, eq_append_of_hostVerify_done hverified, hdone, hr, hd⟩)
    have hvk := (hostVerify p (resultBytes d) d).vk.isLt
    rw [List.length_drop]
    omega

/-! ### Round trips (45_pipeline R218, R220) -/

section RoundTrip
variable {p : Params} {key : Vector Byte 8} {le le' : Bool} {x m container : List Byte} {s s' : State}

/-- A container of encrypted bytes is decoded by those bytes' own markers. -/
theorem decodeContainer_encrypt (hcipher : ∀ b, p.decBlock key (p.encBlock key b) = b) (hcap : x.length ≤ inCap)
    (hmod : x.length % 8 = 0) :
    decodeContainer p key le (encrypt p key x) s = decodeVariant p le x s (variantOf p x) := by
  have hlen := encrypt_length p key hmod
  rw [decodeContainer_of_length (hlen ▸ hcap) (hlen ▸ hmod), decrypt_encrypt hcipher hmod]

theorem padList_length (b : List Byte) : (padList b).length = padded b.length := by
  rw [padList, List.length_append, List.length_replicate, Nat.add_sub_cancel' (le_padded _)]

/-- The capacity of `IBUF` is a multiple of 8, so what fits still fits with its filler. -/
theorem padded_le_inCap {n : Nat} (h : n ≤ inCap) : padded n ≤ inCap := by
  unfold inCap at *
  unfold padded padBlock
  omega

/-- The filler is at most 7 bytes. -/
theorem padList_eq_append (b : List Byte) : ∃ n, n ≤ 7 ∧ padList b = b ++ List.replicate n fill :=
  ⟨_, Nat.sub_le_iff_le_add'.2 (padded_le _), rfl⟩

/-- Markup that begins with the marker has it at offset 16, behind its digest. -/
theorem markerAt_of_begins {digest z : List Byte} (hdigest : digest.length = 16) (hm : markPlain <+: m) :
    markerAt (digest ++ m ++ z) 16 markPlain = true := by
  obtain ⟨rest, rfl⟩ := hm
  have hdrop : (digest ++ (markPlain ++ rest) ++ z).drop 16 = markPlain ++ (rest ++ z) := by
    rw [List.append_assoc, List.drop_left' hdigest, List.append_assoc]
  rw [markerAt, hdrop, List.take_left, decide_eq_true rfl, Bool.and_true, decide_eq_true_iff]
  simp only [List.length_append]
  omega

/-- What variant A encrypts verifies, and behind its digest stands what `COMPRESS` has left (45_pipeline R218). -/
theorem encodeA_ok (h : encodeContainer p key .compressedA le m s = .ok container) :
    (hostCompress p m le s).phase = .done ∧
      ∃ x, container = encrypt p key x ∧ x.length ≤ inCap ∧ x.length % 8 = 0 ∧
        x.drop 16 = resultBytes (hostCompress p m le s) ∧ ∀ s', (hostVerify p x s').phase = .done := by
  obtain ⟨hdone, hcontainer⟩ := (onDone_ok_iff hostCompress_reported).1 h
  obtain ⟨hroom, hmod⟩ := resultBytes_length_of_hostCompress_done hdone
  obtain ⟨z, hz, hsplit⟩ := resultBytes_of_compressWith_done hdone
  change resultBytes (hostCompress p m le s) = memBytes (hostCompress p m le s).obuf 0 _ ++ z at hsplit
  have hcap : ((p.digest (memBytes (hostCompress p m le s).obuf 0 (hostCompress p m le s).olen.toNat)).toList ++
      resultBytes (hostCompress p m le s)).length ≤ inCap := by
    rwa [List.length_append, Vector.length_toList, Nat.add_comm]
  refine ⟨hdone, _, (Except.ok.inj hcontainer).symm, hcap, ?_, List.drop_left' (Vector.length_toList ..), fun s' => ?_⟩
  · rw [List.length_append, Vector.length_toList, Nat.add_mod, hmod]
  · rw [hsplit, ← List.append_assoc] at hcap ⊢
    exact (hostVerify_of_padded hz hcap).1

/-- What variant B encrypts is what `COMPRESS` of the digest and the markup has left (45_pipeline R218). -/
theorem encodeB_ok (h : encodeContainer p key .compressedB le m s = .ok container) :
    (hostCompress p ((p.digest m).toList ++ m) le s).phase = .done ∧
      container = encrypt p key (resultBytes (hostCompress p ((p.digest m).toList ++ m) le s)) := by
  obtain ⟨hdone, hcontainer⟩ := (onDone_ok_iff hostCompress_reported).1 h
  exact ⟨hdone, (Except.ok.inj hcontainer).symm⟩

end RoundTrip

/-- Settles O50: `VERIFY` leaves off exactly the filler, since the digest tells every shorter choice. -/
theorem plainContainerRoundTrip : Obligations.PlainContainerRoundTrip := by
  unfold Obligations.PlainContainerRoundTrip
  rintro p key le le' m _ s s' hcipher hmarker hcap hdigest ⟨⟩
  have hlen : ((p.digest m).toList ++ m).length = m.length + 16 := by simp [Nat.add_comm]
  have hfull : (padList ((p.digest m).toList ++ m)).length ≤ inCap :=
    padList_length _ ▸ padded_le_inCap (hlen ▸ hcap)
  have hmod : (padList ((p.digest m).toList ++ m)).length % 8 = 0 := padList_length _ ▸ Nat.mul_mod_left _ _
  obtain ⟨n, hfew, hpad⟩ := padList_eq_append ((p.digest m).toList ++ m)
  rw [decodeContainer_encrypt hcipher hfull hmod]
  rw [hpad] at hfull ⊢
  have hz : (List.replicate n fill).length ≤ 7 := by rwa [List.length_replicate]
  rw [variantOf_plain (markerAt_of_begins (Vector.length_toList ..) hmarker)]
  refine decodePlain_ok_iff.2 ⟨(hostVerify_of_padded hz hfull).1, stripped_of_padded hz hfull fun j hpos hj => ?_⟩
  rw [List.length_replicate] at hj
  rw [List.take_replicate, Nat.min_eq_left hj]
  exact hdigest j hpos (hj.trans hfew)

/-- Settles O51: whatever `VERIFY` leaves off, the bytes behind the digest are what `COMPRESS` has left. -/
theorem compressedAContainerRoundTrip : Obligations.CompressedAContainerRoundTrip := by
  unfold Obligations.CompressedAContainerRoundTrip
  intro p key le le' m container s s' hcipher _ hencode hplain hA hle
  obtain ⟨hdone, x, rfl, hcap, hmod, hdrop, hverified⟩ := encodeA_ok hencode
  rw [decrypt_encrypt hcipher hmod] at hplain hA
  obtain ⟨hresolved, hrle, hrawlen⟩ := hostResolve_of_hostCompress (r := hostVerify p x s') hdone hle
  rw [decodeContainer_encrypt hcipher hcap hmod, variantOf_compressedA hplain hA]
  refine decodeA_ok_iff.2 ⟨_, _, _, rfl, rfl, rfl, hverified s', ?_⟩
  rw [hdrop, hrle]
  exact ⟨hresolved, hostDecompress_of_hostCompress hdone hrawlen⟩

/-- Settles O52: the decompressed bytes are the digest, the markup and at most the zero byte of `NORMALISE`, which
`VERIFY` leaves off, since the digest tells. -/
theorem compressedBContainerRoundTrip : Obligations.CompressedBContainerRoundTrip := by
  unfold Obligations.CompressedBContainerRoundTrip
  intro p key le le' m container s s' hcipher _ hdigest hencode hplain hA hB hle
  obtain ⟨hdone, rfl⟩ := encodeB_ok hencode
  obtain ⟨hroom, hmod⟩ := resultBytes_length_of_hostCompress_done hdone
  rw [decrypt_encrypt hcipher hmod] at hplain hA hB
  obtain ⟨hresolved, hrle, hrawlen⟩ := hostResolve_of_hostCompress (r := s') hdone hle
  obtain ⟨hdecompressed, hraw⟩ := hostDecompress_of_hostCompress hdone hrawlen
  obtain ⟨-, hfit⟩ := length_normalisedBytes_of_hostCompress_done hdone
  rw [decodeContainer_encrypt hcipher (by omega) hmod, variantOf_compressedB hplain hA hB]
  refine decodeB_ok_iff.2 ⟨_, _, rfl, rfl, hresolved, ?_⟩
  rw [hrle, hraw]
  obtain ⟨z, hz, hzero⟩ := normalisedBytes_eq_append ((p.digest m).toList ++ m)
  rw [hz] at hfit ⊢
  have hshort : z.length ≤ 7 := by rcases hzero with rfl | rfl <;> decide
  refine ⟨hdecompressed, (hostVerify_of_padded hshort hfit).1, stripped_of_padded hshort hfit fun j hpos hj => ?_⟩
  rcases hzero with rfl | rfl
  · exact absurd hj (Nat.not_le.2 hpos)
  · obtain rfl : j = 1 := Nat.le_antisymm hj hpos
    exact hdigest

end Sys2Proof.Machine
end

section
/-! PROOFS. The fault record (60_exceptions): the codes of the causes, what a command that ends in a fault leaves, and the
two ways out of an ended command. -/

namespace Sys2Proof.Machine

/-! ### The codes of the causes (60_exceptions R231 to R236) -/

/-- Settles O33: each cause's number and kind, evaluated. -/
theorem faultCodes : Obligations.FaultCodes := by
  unfold Obligations.FaultCodes
  decide

/-! ### A command that ends in a fault (60_exceptions R240, R241) -/

/-- The result registers and the flags are the same (10_state R40 to R42). -/
def SameOutputs (s t : State) : Prop :=
  t.olen = s.olen ∧ t.opad = s.opad ∧ t.vk = s.vk ∧ t.vok = s.vok ∧ t.rle = s.rle ∧ t.flip = s.flip

theorem SameOutputs.refl (s : State) : SameOutputs s s := ⟨rfl, rfl, rfl, rfl, rfl, rfl⟩

/-- `VERIFY` that faults has done nothing else. -/
theorem verifyWith_flt {digest : List Byte → Vector Byte 16} {s : State} (h : (verifyWith digest s).phase = .flt) :
    ∃ cause, verifyWith digest s = raise cause s := by
  rcases verifyWith_cases digest s with ⟨-, h'⟩ | ⟨-, -, h'⟩ | ⟨-, _, -, h'⟩
  · exact ⟨_, h'⟩
  · exact ⟨_, h'⟩
  · rw [h'] at h
    cases h

/-- `RESOLVE` that faults has done nothing else. -/
theorem resolveWith_flt {le : Bool} {s : State} (h : (resolveWith le s).phase = .flt) :
    ∃ cause, resolveWith le s = raise cause s := by
  rcases resolveWith_cases le s with ⟨-, h'⟩ | ⟨-, h'⟩ | ⟨-, -, -, h'⟩ | ⟨-, -, -, -, h'⟩ | ⟨-, -, -, -, h'⟩
  · exact ⟨_, h'⟩
  · exact ⟨_, h'⟩
  · rw [h'] at h
    cases h
  · rw [h'] at h
    cases h
  · exact ⟨_, h'⟩

/-- A running block's move that ends in a fault writes no result, and `RAWLEN` only in `COMPRESS`. -/
theorem blockLeaves_flt {s t : State} (hrun : s.phase = .run) (h : BlockLeaves s t) (hflt : t.phase = .flt) :
    SameOutputs s t ∧ (fetchCommand s ≠ .compress s.le → t.rawlen = s.rawlen) := by
  cases h with
  | compress _ hc =>
    obtain ⟨holen, hopad, -⟩ := compressWith_flt hflt
    obtain ⟨-, ⟨hvok, hvk⟩, ⟨hrle, hflip⟩, -⟩ := compressWith_frame Config.params.hash s.le s
    exact ⟨⟨holen, hopad, hvk, hvok, hrle, hflip⟩, fun hne => absurd hc hne⟩
  | verify _ _ =>
    obtain ⟨cause, h⟩ := verifyWith_flt hflt
    exact h ▸ ⟨.refl s, fun _ => rfl⟩
  | resolve _ _ =>
    obtain ⟨cause, h⟩ := resolveWith_flt hflt
    exact h ▸ ⟨.refl s, fun _ => rfl⟩
  | reserved _ _ => exact ⟨.refl s, fun _ => rfl⟩
  | decompress _ h =>
    cases h with
    | fault _ _ => exact ⟨.refl s, fun _ => rfl⟩
    | done _ => cases hflt
    | more _ _ => cases hrun.symm.trans hflt

/-- After an accepted `CMD` write a command runs that has produced nothing yet (10_state R40). -/
theorem controlOk_acceptCommand (w : Word) (s : State) : ControlOk (acceptCommand w s) :=
  ⟨fun _ => ⟨rfl, rfl, rfl, rfl, rfl, rfl, rfl⟩, by simp, fun _ => rfl⟩

/-- Settles O56: the accepted write clears the results, a fault leaves them as they are, and the block writes `IBUF` at
`ILEN` only. -/
theorem faultedCommandHasNoResult : Obligations.FaultedCommandHasNoResult := by
  unfold Obligations.FaultedCommandHasNoResult
  intro w s t h hflt
  have hleaves : BlockLeaves (acceptCommand w s) t := runningMove_leaves rfl (.inl h)
  have hfault : t.fault ≠ 0 := (controlOk_block (controlOk_acceptCommand w s) rfl hleaves).faulted.1 hflt
  obtain ⟨⟨holen, hopad, hvk, hvok, hrle, hflip⟩, hrawlen⟩ := blockLeaves_flt rfl hleaves hflt
  obtain ⟨-, hilen, -, hibuf, -⟩ := blockWritesOnlyItsOwn _ t rfl (.inl h)
  refine ⟨hfault, holen, hopad, hvk, hvok, hrle, hflip, hilen, fun a ha => ?_, fun hbe hle => hrawlen ?_⟩
  · by_contra hne
    obtain ⟨rfl, -⟩ := hibuf a hne
    exact absurd ha (lt_irrefl _)
  · change decodeCommand w ≠ .compress (leOf w)
    cases leOf w
    · exact hbe
    · exact hle

/-! ### The ways out of an ended command (60_exceptions R243) -/

/-- A read of a register leaves what it answers. -/
theorem readRegMove_answers {offset : Nat} {s t : State} (h : readRegMove offset s = .next t) :
    ∃ rdata, t = { s with rdata := rdata } := by
  unfold readRegMove at h
  rcases hr : regAt offset with _ | r <;> simp only [hr] at h
  · cases h
  · split_ifs at h
    exact ⟨_, (Host.Outcome.next.inj h).symm⟩

/-- A read of `OBUF` leaves what it answers, and counts a draw. -/
theorem readObufMove_answers {a : Nat} {s t : State} (h : readObufMove a s = .next t) :
    ∃ rdata draws, t = { s with rdata := rdata, draws := draws } := by
  unfold readObufMove at h
  split_ifs at h <;> obtain ⟨-, -, rfl⟩ := bufferMove_next_iff.1 h
  · exact ⟨_, s.draws, rfl⟩
  · exact ⟨_, _, rfl⟩

/-- `CMD` is the register at offset 0 only (10_state R40). -/
theorem regAt_eq_cmd {offset : Nat} (h : regAt offset = some .cmd) : offset = 0 := by
  unfold regAt at h
  split at h <;> cases h
  rfl

/-- Outside `RUN` a write of a register is accepted as a command at offset 0, and elsewhere stores `ILEN`, `RAWLEN` or
nothing. -/
theorem writeRegMove_cases_of_not_running {offset : Nat} {v : Word} {s t : State} (hrun : s.phase ≠ .run)
    (h : writeRegMove offset v s = .next t) :
    (offset = 0 ∧ t = acceptCommand v s) ∨ ∃ ilen rawlen, t = { s with ilen := ilen, rawlen := rawlen } := by
  unfold writeRegMove at h
  rcases hr : regAt offset with _ | r
  · simp [hr] at h
  · cases r <;> simp only [hr, hrun, if_false] at h <;> obtain rfl := Host.Outcome.next.inj h
    case cmd => exact .inl ⟨regAt_eq_cmd hr, rfl⟩
    case ilen => exact .inr ⟨v, s.rawlen, rfl⟩
    case rawlen => exact .inr ⟨s.ilen, v, rfl⟩
    all_goals exact .inr ⟨s.ilen, s.rawlen, rfl⟩

/-- `PHASE`, `FAULT`, the result registers and the flags are the same. -/
def SameRecord (s t : State) : Prop := t.phase = s.phase ∧ t.fault = s.fault ∧ SameOutputs s t

theorem SameRecord.refl (s : State) : SameRecord s s := ⟨rfl, rfl, .refl s⟩

/-- Outside `RUN` every access of the host but a reset and a `CMD` write keeps the record. -/
theorem hostMove_cases_of_not_running {op : HostOp} {s t : State} (hrun : s.phase ≠ .run)
    (h : hostMove op s = .next t) :
    SameRecord s t ∨ op = .reset ∨ ∃ w, op = .writeReg 0 w ∧ t = acceptCommand w s := by
  cases op with
  | reset => exact .inr (.inl rfl)
  | readReg offset =>
    obtain ⟨_, rfl⟩ := readRegMove_answers h
    exact .inl (.refl s)
  | writeReg offset v =>
    rcases writeRegMove_cases_of_not_running hrun h with ⟨rfl, rfl⟩ | ⟨_, _, rfl⟩
    · exact .inr (.inr ⟨v, rfl, rfl⟩)
    · exact .inl (.refl s)
  | readObuf a =>
    obtain ⟨_, _, rfl⟩ := readObufMove_answers h
    exact .inl (.refl s)
  | readIbuf a | writeIbuf a b | writeObuf a b =>
    obtain ⟨-, -, rfl⟩ := bufferMove_next_iff.1 h
    exact .inl (.refl s)

/-- The block does nothing outside `RUN`, at either granularity (70_reset R260). -/
theorem eq_of_move_of_not_running {s t : State} (h : blockMove s = .next t ∨ tokenMove s = .next t)
    (hrun : s.phase ≠ .run) : t = s := by
  rw [blockMove_of_not_running hrun, tokenMove_of_not_running hrun, or_self] at h
  exact (Host.Outcome.next.inj h).symm

/-- Settles O43: outside `RUN` the block's moves do nothing, and of the host's only reset and a `CMD` write touch the
record. -/
theorem endedCommandIsLeftOnlyByCommandOrReset : Obligations.EndedCommandIsLeftOnlyByCommandOrReset := by
  unfold Obligations.EndedCommandIsLeftOnlyByCommandOrReset
  intro s t hended h
  have hrun : s.phase ≠ .run := by rcases hended with h | h <;> simp [h]
  rcases step_cases s with ⟨-, hs⟩ | ⟨op, rest, hturns, hs⟩ | ⟨rest, -, hs⟩ | ⟨rest, -, hs⟩ <;> rw [hs] at h
  · obtain rfl := eq_of_move_of_not_running (.inl h) hrun
    exact .inl (SameRecord.refl t)
  · rcases hostMove_cases_of_not_running (s := { s with turns := rest }) hrun h with hsame | rfl | ⟨w, rfl, rfl⟩
    · exact .inl hsame
    · exact .inr (.inl ⟨rest, hturns⟩)
    · exact .inr (.inr ⟨w, rest, hturns, rfl, rfl, rfl, rfl, rfl, rfl, rfl, rfl, rfl, rfl⟩)
  · obtain rfl := eq_of_move_of_not_running (.inl h) hrun
    exact .inl (SameRecord.refl s)
  · obtain rfl := eq_of_move_of_not_running (.inr h) hrun
    exact .inl (SameRecord.refl s)

end Sys2Proof.Machine
end

section
/-! PROOFS. Reset, hazards and granularity (70_reset): a `DECOMPRESS` taken token by token is the whole command (R282);
what the host may touch while the block is busy and while it is not (R263, R270); and reset (R260). -/

namespace Sys2Proof.Machine

/-! ### A `DECOMPRESS` taken token by token (70_reset R282) -/

/-- One more unit of fuel than N - `DP` changes nothing: every token produces a byte. -/
theorem dMain_spare_fuel {src : Stream} {n fuel : Nat} {d : Dec} (hfuel : n - d.dp ≤ fuel) :
    dMain src n (fuel + 1) d = dMain src n fuel d := by
  induction fuel generalizing d with
  | zero => rw [dMain_of_done _ (by omega), dMain_of_done _ (by omega)]
  | succ fuel ih =>
    rw [dMain_succ, dMain_succ src n fuel]
    rcases hstep : dStep src n d with e | d'
    · rfl
    · have := dStep_advances hstep
      exact congrArg (if d.dp < n then · else .ok d) (ih (d := d') (by omega))

/-- As much fuel as N - `DP` is enough. -/
theorem dMain_of_enough_fuel {src : Stream} {n fuel : Nat} {d : Dec} (hfuel : n - d.dp ≤ fuel) :
    dMain src n fuel d = dMain src n (n - d.dp) d :=
  Nat.le_induction rfl (fun _ h ih => (dMain_spare_fuel h).trans ih) fuel hfuel

/-- One iteration of `D_MAIN` before N, and then the rest of it. -/
theorem dMain_unroll {src : Stream} {n : Nat} {d : Dec} (hlt : d.dp < n) :
    dMain src n (n - d.dp) d = dStep src n d >>= fun d' => dMain src n (n - d'.dp) d' := by
  rw [show n - d.dp = n - d.dp - 1 + 1 by omega, dMain_succ, if_pos hlt]
  rcases hstep : dStep src n d with e | d'
  · rfl
  · have := dStep_advances hstep
    exact dMain_of_enough_fuel (by omega)

section Rest
variable {le : Bool} {s : State} {d : Dec} {cause : Cause}

/-- At N nothing remains but the results. -/
theorem decompressRest_of_done (h : s.rawLen ≤ s.dp) : decompressRest le s = decompressDone s :=
  decompressRest_of_ok (d := s.dec) (dMain_of_done _ h)

theorem decompressRest_of_dStep_error (hlt : s.dp < s.rawLen)
    (h : dStep (s.stream le) s.rawLen s.dec = .error (cause, d)) : decompressRest le s = raise cause (s.setDec d) :=
  decompressRest_of_error (d := s.dec) ((dMain_unroll (d := s.dec) hlt).trans (by rw [h]; rfl))

theorem decompressRest_of_dStep_ok (hlt : s.dp < s.rawLen) (h : dStep (s.stream le) s.rawLen s.dec = .ok d) :
    decompressRest le s = decompressRest le (s.setDec d) := by
  have hmain : dMain (s.stream le) s.rawLen (s.rawLen - s.dp) s.dec =
      dMain (s.stream le) s.rawLen (s.rawLen - d.dp) d := (dMain_unroll (d := s.dec) hlt).trans (by rw [h]; rfl)
  rcases decompressRest_cases le (s.setDec d) with ⟨_, _, hm, hrest⟩ | ⟨_, hm, hrest⟩
  · exact (decompressRest_of_error (d := s.dec) (hmain.trans hm)).trans hrest.symm
  · exact (decompressRest_of_ok (d := s.dec) (hmain.trans hm)).trans hrest.symm

/-- The end of the command does not depend on where the model says that control stands (log 1). -/
theorem decompressRest_at_tokens : decompressRest le { s with pos := .tokens } = decompressRest le s := by
  rcases decompressRest_cases le s with ⟨_, _, hm, hrest⟩ | ⟨_, hm, hrest⟩
  · exact (decompressRest_of_error (s := { s with pos := .tokens }) (d := s.dec) hm).trans hrest.symm
  · exact (decompressRest_of_ok (s := { s with pos := .tokens }) (d := s.dec) hm).trans hrest.symm

end Rest

/-- A stream that ends inside the token is a faulting iteration of `D_MAIN`, with the reader as before it (log 18). -/
theorem dStep_of_underrun {src : Stream} {n : Nat} {d : Dec} {e : Reject} (hf : fetchFrom src d.br = .error e) :
    dStep src n d = .error (.srcUnderrun, d) := by
  simp [dStep, hf]

/-- Closing the command at N is no more than the block would do in its next move. -/
theorem blockMove_closeTokens {s : State} (hrun : s.phase = .run) (hpos : s.pos = .tokens) :
    blockMove (closeTokens s) = .next (decompressRest s.le s) := by
  unfold closeTokens
  split_ifs with h
  · rw [blockMove_of_not_running (by simp), decompressRest_of_done h.2]
  · exact blockMove_of_tokens hrun hpos

/-- Beginning a `DECOMPRESS` and then running to the end is the whole command. -/
theorem blockMove_startTokens {s : State} (hrun : s.phase = .run) :
    blockMove (startTokens s.le s) = .next (decompressWhole s.le s) := by
  unfold startTokens decompressWhole
  split_ifs with hcap
  · exact blockMove_of_not_running (by simp)
  · rcases dInit s.le s with ⟨cause, d⟩ | d
    · exact blockMove_of_not_running (by simp)
    · exact (blockMove_closeTokens (s := { s.setDec d with pos := .tokens }) hrun rfl).trans
        (congrArg _ decompressRest_at_tokens)

/-- One token and then the block's move to the end is that move. -/
theorem blockMove_of_tokenStep {s t : State} (hrun : s.phase = .run) (hpos : s.pos = .tokens)
    (h : tokenStep s = .next t) : blockMove t = .next (decompressRest s.le s) := by
  by_cases hlt : s.dp < s.rawLen
  · rcases hf : fetchFrom (s.stream s.le) s.br with e | ⟨tok, r⟩
    · rw [tokenStep_of_underrun hlt hf] at h
      obtain rfl := Host.Outcome.next.inj h
      rw [decompressRest_of_dStep_error hlt (dStep_of_underrun hf)]
      exact blockMove_of_not_running (by simp)
    rw [tokenStep_of_token hlt hf] at h
    rcases he : exec tok.toInstr { s with br := r } with u | f | f <;> rw [he] at h <;> cases h
    rcases exec_token_cases he with ⟨cause, ht, rfl⟩ | ⟨d, ht, rfl⟩
    · rw [decompressRest_of_dStep_error hlt (dStep_of_error hf ht)]
      exact blockMove_of_not_running (by simp [closeTokens])
    · rw [decompressRest_of_dStep_ok hlt (dStep_of_ok hf ht)]
      exact blockMove_closeTokens (s := s.setDec d) hrun hpos
  · rw [tokenStep, if_neg hlt] at h
    obtain rfl := Host.Outcome.next.inj h
    rw [decompressRest_of_done (by omega)]
    exact blockMove_of_not_running (by simp)

/-- Only a `DECOMPRESS` has tokens. -/
theorem startStep_of_not_decompress {i : Instr} (s : State) (h : ∀ le, i ≠ .decompress le) :
    startStep i s = exec i s := by
  cases i with
  | decompress le => exact absurd rfl (h le)
  | _ => rfl

theorem fetchCommand_decompress_le {s : State} {le : Bool} (h : fetchCommand s = .decompress le) : le = s.le := by
  change decodeCommand s.cmd = _ at h
  rcases decodeCommand_cases s.cmd with hc | hc | hc | hc | hc <;> rw [hc] at h <;> cases h
  rfl

/-- The first step of a command taken token by token and then the block's move to the end is the whole command. -/
theorem blockMove_of_startStep {s t : State} (hrun : s.phase = .run) (h : startStep (fetchCommand s) s = .next t) :
    blockMove t = exec (fetchCommand s) s := by
  by_cases hc : ∃ le, fetchCommand s = .decompress le
  · obtain ⟨le, hc⟩ := hc
    obtain rfl := fetchCommand_decompress_le hc
    rw [hc] at h ⊢
    obtain rfl := Host.Outcome.next.inj h
    exact blockMove_startTokens hrun
  · rw [startStep_of_not_decompress s (not_exists.1 hc)] at h
    obtain ⟨u, hu, hended⟩ := exec_command_phase s.cmd s
    obtain rfl := Host.Outcome.next.inj (hu.symm.trans h)
    rw [h]
    exact blockMove_of_not_running (by rcases hended with h | h <;> simp [h])

/-- From a running state, the move by one token and then the move to the end is the move to the end. -/
theorem blockMove_of_tokenMove {s t : State} (hrun : s.phase = .run) (h : tokenMove s = .next t) :
    blockMove t = blockMove s := by
  cases hpos : s.pos with
  | start =>
    rw [tokenMove_of_start hrun hpos] at h
    rw [blockMove_of_start hrun hpos, blockMove_of_startStep hrun h]
  | tokens =>
    rw [tokenMove_of_tokens hrun hpos] at h
    rw [blockMove_of_tokens hrun hpos, blockMove_of_tokenStep hrun hpos h]

/-- Settles O41: `blockMove_of_tokenMove`, and outside `RUN` the block's move is to stay. -/
theorem tokenByTokenEqualsWhole : Obligations.TokenByTokenEqualsWhole := by
  unfold Obligations.TokenByTokenEqualsWhole
  intro s t hrun h
  have hmove : blockMove t = blockMove s := blockMove_of_tokenMove hrun h
  exact ⟨fun _ => hmove, fun hended => hmove.symm.trans (blockMove_of_not_running hended)⟩

/-! ### The busy block (70_reset R270) -/

section Busy
variable {s : State} (hrun : s.phase = .run)
include hrun

theorem readRegMove_busy_refused_iff (o : Nat) :
    readRegMove o s = .refused .hostAccessWhileBusy ↔ o ∈ [0, 0xC, 0x10, 0x14, 0x18, 0x1C] := by
  by_cases ho : o ∈ [0, 4, 8, 0xC, 0x10, 0x14, 0x18, 0x1C]
  · fin_cases ho <;> simp [readRegMove, regAt, hrun]
  · simp only [readRegMove, regAt_eq_none ho, reduceCtorEq, false_iff]
    simp_all

theorem writeRegMove_busy_refused_iff (o : Nat) (v : Word) :
    writeRegMove o v s = .refused .hostAccessWhileBusy ↔ o ∈ [4, 8, 0xC, 0x10, 0x14, 0x18, 0x1C] := by
  by_cases ho : o ∈ [0, 4, 8, 0xC, 0x10, 0x14, 0x18, 0x1C]
  · fin_cases ho <;> simp [writeRegMove, regAt, hrun]
  · simp only [writeRegMove, regAt_eq_none ho, reduceCtorEq, false_iff]
    simp_all

theorem bufferMove_of_busy (a cap : Nat) (s' : State) : bufferMove a cap s s' = .refused .hostAccessWhileBusy :=
  if_pos hrun

theorem readObufMove_of_busy (a : Nat) : readObufMove a s = .refused .hostAccessWhileBusy := by
  unfold readObufMove
  split_ifs <;> exact bufferMove_of_busy hrun _ _ _

end Busy

/-- Settles O36: a buffer access always stops at the test of `PHASE`, and a register's offset decides the rest. -/
theorem busyBlockRefusesAccess : Obligations.BusyBlockRefusesAccess := by
  unfold Obligations.BusyBlockRefusesAccess
  intro op s hrun
  refine ⟨?_, fun w => if_pos hrun, by simp [hostMove, readRegMove, regAt, regValue],
    by simp [hostMove, readRegMove, regAt, regValue]⟩
  cases op with
  | reset => simp [hostMove]
  | readReg o => simpa [hostMove] using readRegMove_busy_refused_iff hrun o
  | writeReg o v => simpa [hostMove] using writeRegMove_busy_refused_iff hrun o v
  | readIbuf a => simp [hostMove, readIbufMove, bufferMove_of_busy hrun]
  | writeIbuf a b => simp [hostMove, writeIbufMove, bufferMove_of_busy hrun]
  | readObuf a => simp [hostMove, readObufMove_of_busy hrun]
  | writeObuf a b => simp [hostMove, writeObufMove, bufferMove_of_busy hrun]

/-! ### Reset (70_reset R260) -/

theorem statusWord_resetMove (s : State) : statusWord (resetMove s) = 0 := by
  simp [statusWord, resetMove, State.reset, bitAt]

theorem memRead_resetMove_ibuf (s : State) {a : Nat} (ha : a < inCap) :
    memRead (resetMove s).ibuf a = Config.resetIbufByte s.draws a :=
  (memRead_memOf _ _ _).trans (if_pos ha)

theorem memRead_resetMove_obuf (s : State) {a : Nat} (ha : a < outCap) :
    memRead (resetMove s).obuf a = Config.resetObufByte s.draws a :=
  (memRead_memOf _ _ _).trans (if_pos ha)

/-- Settles O35: the step is `resetMove` of the state without the turn. -/
theorem resetEffect : Obligations.ResetEffect := by
  unfold Obligations.ResetEffect
  refine ⟨fun s rest hturns => ⟨resetMove { s with turns := rest }, ?_, rfl, rfl, rfl, rfl, rfl, rfl, rfl, rfl,
    statusWord_resetMove _, rfl, fun a => memRead_resetMove_ibuf _, fun a => memRead_resetMove_obuf _⟩, ?_, rfl⟩
  · unfold step
    rw [nextTurn_cons hturns]
    rfl
  · intro r
    cases r <;> rfl

/-! ### Buffer accesses outside `RUN` (70_reset R263) -/

theorem bufferMove_of_idle {a cap : Nat} {s : State} (hrun : s.phase ≠ .run) (ha : a < cap) (s' : State) :
    bufferMove a cap s s' = .next s' :=
  bufferMove_next_iff.2 ⟨hrun, ha, rfl⟩

/-- Settles O38: `bufferMove_of_idle` for each access, and `memRead_memWrite` for what a write leaves. -/
theorem idleBufferAccess : Obligations.IdleBufferAccess := by
  unfold Obligations.IdleBufferAccess
  intro a b s hrun
  constructor
  · intro ha
    exact ⟨bufferMove_of_idle hrun ha _, _, bufferMove_of_idle hrun ha _, rfl,
      fun c => memRead_memWrite s.ibuf a c b⟩
  · intro ha
    refine ⟨fun hdone hlow => ?_, fun hfree => ?_, _, bufferMove_of_idle hrun ha _, rfl,
      fun c => memRead_memWrite s.obuf a c b⟩
    · exact (if_pos ⟨hdone, hlow⟩).trans (bufferMove_of_idle hrun ha _)
    · have hnot : ¬ (s.phase = .done ∧ a < s.opad.toNat) := by
        rintro ⟨hdone, hlow⟩
        rcases hfree with h | h
        · exact h hdone
        · omega
      exact (if_neg hnot).trans (bufferMove_of_idle hrun ha _)

end Sys2Proof.Machine
end
